-- ==== Sys2Proof/Word.lean ====
section
/-! DEFINITION. The value types of the alex-machine CORE and their plainest readings
(00_scope.md R6 to R8, R13): bytes, halves, 32-bit words, 64-bit float patterns, the register
indices of an instruction, and the number a float pattern stands for. -/

namespace Sys2Proof

/-- One byte (R50). -/
abbrev Byte := BitVec 8

/-- A half: 2 bytes, also an I-format immediate (R55, R83). -/
abbrev Half := BitVec 16

/-- A 32-bit word: an integer register, an address, an instruction word, the pc (R6). -/
abbrev Word := BitVec 32

/-- A binary64 pattern: what a float register holds (R26). -/
abbrev Pattern := BitVec 64

/-- The index of an integer register: a 4-bit field, always in [0, 15] (R9, R21, R101). -/
abbrev XReg := BitVec 4

/-- The index of a float register (R26). -/
abbrev FReg := BitVec 4

/-- `u(v)`: the unsigned reading of a word (R8). -/
abbrev uval (v : Word) : Int := (v.toNat : Int)

/-- `s(v)`: the two's-complement reading of a word (R8). -/
abbrev sval (v : Word) : Int := v.toInt

/-- `wrap32(n)`: a mathematical integer modulo 2^32 (R8). -/
abbrev wrap32 (n : Int) : Word := BitVec.ofInt 32 n

/-- `F(b)` as data: what a binary64 pattern stands for (R13). A finite number is
`± units * 2^-1074`: every finite binary64 value is an integer number of these units, so sums,
products and quotients are computed exactly on naturals. The sign of a zero is kept. -/
inductive FVal where
  | nan
  | inf (neg : Bool)
  | fin (neg : Bool) (units : Nat)
  deriving DecidableEq, Repr

end Sys2Proof
end

