-- ==== Sys2Proof/Syntax.lean ====
section
/-! DEFINITION. The syntax of the alex-machine CORE: the 97 mnemonics of 30_encoding.md R96, and one
constructor of `Instr` for each row of spec/opcode_table.json, holding exactly the fields that row
reads (R93, R96). The operand roles are those of R93: `ra` is the destination (or a store's,
push's or putc's data, the target of jr and call, the first register a branch compares), `rb` the
first source or base, `rc` the second source. -/

namespace Sys2Proof

/-- The 97 mnemonics (R96). The names are the spec's own (R110, D2). -/
inductive Mnemonic where
  | nop | halt | putc | add | addSi | addZi | addu | adduSi | adduZi | sub | subSi | subZi
  | subu | subuSi | subuZi | mul | mulSi | mulZi | mulu | muluSi | muluZi | div | divSi | divZi
  | divu | divuSi | divuZi | mod | modSi | modZi | modu | moduSi | moduZi | sll | srl | sra
  | slli | srli | srai | and | or | xor | not | eq | ne | lt | ltu | gt | gtu | le | leu | ge
  | geu | b | beq | bne | blt | bgt | j | jr | call | ret | lw | lh | lb | lf | sw | sh | sb
  | sf | li | liu | lui | pushW | pushH | pushB | pushF | popW | popH | popB | popF | itof
  | utof | ftoi | fadd | fsub | fmul | fdiv | fmod | ffloor | fceil | feq | fne | flt | fgt
  | fle | fge
  deriving DecidableEq, Repr

/-- A decoded instruction: a mnemonic with the fields its row reads (R85, R93, R96). Bits an
instruction does not use are not part of it (R86). -/
inductive Instr where
  -- 45_system.md
  | nop
  | halt
  | putc (ra : XReg)
  -- 40_int_arith.md
  | add (ra rb rc : XReg)
  | addSi (ra rb : XReg) (imm16 : Half)
  | addZi (ra rb : XReg) (imm16 : Half)
  | addu (ra rb rc : XReg)
  | adduSi (ra rb : XReg) (imm16 : Half)
  | adduZi (ra rb : XReg) (imm16 : Half)
  | sub (ra rb rc : XReg)
  | subSi (ra rb : XReg) (imm16 : Half)
  | subZi (ra rb : XReg) (imm16 : Half)
  | subu (ra rb rc : XReg)
  | subuSi (ra rb : XReg) (imm16 : Half)
  | subuZi (ra rb : XReg) (imm16 : Half)
  | mul (ra rb rc : XReg)
  | mulSi (ra rb : XReg) (imm16 : Half)
  | mulZi (ra rb : XReg) (imm16 : Half)
  | mulu (ra rb rc : XReg)
  | muluSi (ra rb : XReg) (imm16 : Half)
  | muluZi (ra rb : XReg) (imm16 : Half)
  | div (ra rb rc : XReg)
  | divSi (ra rb : XReg) (imm16 : Half)
  | divZi (ra rb : XReg) (imm16 : Half)
  | divu (ra rb rc : XReg)
  | divuSi (ra rb : XReg) (imm16 : Half)
  | divuZi (ra rb : XReg) (imm16 : Half)
  | mod (ra rb rc : XReg)
  | modSi (ra rb : XReg) (imm16 : Half)
  | modZi (ra rb : XReg) (imm16 : Half)
  | modu (ra rb rc : XReg)
  | moduSi (ra rb : XReg) (imm16 : Half)
  | moduZi (ra rb : XReg) (imm16 : Half)
  -- 41_shift_logic_relational.md
  | sll (ra rb rc : XReg)
  | srl (ra rb rc : XReg)
  | sra (ra rb rc : XReg)
  | slli (ra rb : XReg) (imm16 : Half)
  | srli (ra rb : XReg) (imm16 : Half)
  | srai (ra rb : XReg) (imm16 : Half)
  | and (ra rb rc : XReg)
  | or (ra rb rc : XReg)
  | xor (ra rb rc : XReg)
  | not (ra rb : XReg)
  | eq (ra rb rc : XReg)
  | ne (ra rb rc : XReg)
  | lt (ra rb rc : XReg)
  | ltu (ra rb rc : XReg)
  | gt (ra rb rc : XReg)
  | gtu (ra rb rc : XReg)
  | le (ra rb rc : XReg)
  | leu (ra rb rc : XReg)
  | ge (ra rb rc : XReg)
  | geu (ra rb rc : XReg)
  -- 42_control_transfer.md
  | b (imm16 : Half)
  | beq (ra rb : XReg) (imm16 : Half)
  | bne (ra rb : XReg) (imm16 : Half)
  | blt (ra rb : XReg) (imm16 : Half)
  | bgt (ra rb : XReg) (imm16 : Half)
  | j (imm24 : BitVec 24)
  | jr (ra : XReg)
  | call (ra : XReg)
  | ret
  -- 43_load_store.md
  | lw (ra rb : XReg) (imm16 : Half)
  | lh (ra rb : XReg) (imm16 : Half)
  | lb (ra rb : XReg) (imm16 : Half)
  | lf (ra : FReg) (rb : XReg) (imm16 : Half)
  | sw (ra rb : XReg) (imm16 : Half)
  | sh (ra rb : XReg) (imm16 : Half)
  | sb (ra rb : XReg) (imm16 : Half)
  | sf (ra : FReg) (rb : XReg) (imm16 : Half)
  | li (ra : XReg) (imm16 : Half)
  | liu (ra : XReg) (imm16 : Half)
  | lui (ra : XReg) (imm16 : Half)
  | pushW (ra : XReg)
  | pushH (ra : XReg)
  | pushB (ra : XReg)
  | pushF (ra : FReg)
  | popW (ra : XReg)
  | popH (ra : XReg)
  | popB (ra : XReg)
  | popF (ra : FReg)
  -- 44_float.md
  | itof (ra : FReg) (rb : XReg)
  | utof (ra : FReg) (rb : XReg)
  | ftoi (ra : XReg) (rb : FReg)
  | fadd (ra rb rc : FReg)
  | fsub (ra rb rc : FReg)
  | fmul (ra rb rc : FReg)
  | fdiv (ra rb rc : FReg)
  | fmod (ra rb rc : FReg)
  | ffloor (ra rb : FReg)
  | fceil (ra rb : FReg)
  | feq (ra : XReg) (rb rc : FReg)
  | fne (ra : XReg) (rb rc : FReg)
  | flt (ra : XReg) (rb rc : FReg)
  | fgt (ra : XReg) (rb rc : FReg)
  | fle (ra : XReg) (rb rc : FReg)
  | fge (ra : XReg) (rb rc : FReg)
  deriving DecidableEq, Repr

/-- The mnemonic of an instruction (R96). -/
def Instr.mnemonic : Instr → Mnemonic
  | .nop => .nop
  | .halt => .halt
  | .putc _ => .putc
  | .add _ _ _ => .add
  | .addSi _ _ _ => .addSi
  | .addZi _ _ _ => .addZi
  | .addu _ _ _ => .addu
  | .adduSi _ _ _ => .adduSi
  | .adduZi _ _ _ => .adduZi
  | .sub _ _ _ => .sub
  | .subSi _ _ _ => .subSi
  | .subZi _ _ _ => .subZi
  | .subu _ _ _ => .subu
  | .subuSi _ _ _ => .subuSi
  | .subuZi _ _ _ => .subuZi
  | .mul _ _ _ => .mul
  | .mulSi _ _ _ => .mulSi
  | .mulZi _ _ _ => .mulZi
  | .mulu _ _ _ => .mulu
  | .muluSi _ _ _ => .muluSi
  | .muluZi _ _ _ => .muluZi
  | .div _ _ _ => .div
  | .divSi _ _ _ => .divSi
  | .divZi _ _ _ => .divZi
  | .divu _ _ _ => .divu
  | .divuSi _ _ _ => .divuSi
  | .divuZi _ _ _ => .divuZi
  | .mod _ _ _ => .mod
  | .modSi _ _ _ => .modSi
  | .modZi _ _ _ => .modZi
  | .modu _ _ _ => .modu
  | .moduSi _ _ _ => .moduSi
  | .moduZi _ _ _ => .moduZi
  | .sll _ _ _ => .sll
  | .srl _ _ _ => .srl
  | .sra _ _ _ => .sra
  | .slli _ _ _ => .slli
  | .srli _ _ _ => .srli
  | .srai _ _ _ => .srai
  | .and _ _ _ => .and
  | .or _ _ _ => .or
  | .xor _ _ _ => .xor
  | .not _ _ => .not
  | .eq _ _ _ => .eq
  | .ne _ _ _ => .ne
  | .lt _ _ _ => .lt
  | .ltu _ _ _ => .ltu
  | .gt _ _ _ => .gt
  | .gtu _ _ _ => .gtu
  | .le _ _ _ => .le
  | .leu _ _ _ => .leu
  | .ge _ _ _ => .ge
  | .geu _ _ _ => .geu
  | .b _ => .b
  | .beq _ _ _ => .beq
  | .bne _ _ _ => .bne
  | .blt _ _ _ => .blt
  | .bgt _ _ _ => .bgt
  | .j _ => .j
  | .jr _ => .jr
  | .call _ => .call
  | .ret => .ret
  | .lw _ _ _ => .lw
  | .lh _ _ _ => .lh
  | .lb _ _ _ => .lb
  | .lf _ _ _ => .lf
  | .sw _ _ _ => .sw
  | .sh _ _ _ => .sh
  | .sb _ _ _ => .sb
  | .sf _ _ _ => .sf
  | .li _ _ => .li
  | .liu _ _ => .liu
  | .lui _ _ => .lui
  | .pushW _ => .pushW
  | .pushH _ => .pushH
  | .pushB _ => .pushB
  | .pushF _ => .pushF
  | .popW _ => .popW
  | .popH _ => .popH
  | .popB _ => .popB
  | .popF _ => .popF
  | .itof _ _ => .itof
  | .utof _ _ => .utof
  | .ftoi _ _ => .ftoi
  | .fadd _ _ _ => .fadd
  | .fsub _ _ _ => .fsub
  | .fmul _ _ _ => .fmul
  | .fdiv _ _ _ => .fdiv
  | .fmod _ _ _ => .fmod
  | .ffloor _ _ => .ffloor
  | .fceil _ _ => .fceil
  | .feq _ _ _ => .feq
  | .fne _ _ _ => .fne
  | .flt _ _ _ => .flt
  | .fgt _ _ _ => .fgt
  | .fle _ _ _ => .fle
  | .fge _ _ _ => .fge

/-- The three instruction-word layouts (R82 to R84). -/
inductive Format where
  | R | I | J
  deriving DecidableEq, Repr

/-- How an immediate is treated (R87 to R91): not at all, sign-extended, zero-extended, as a branch
offset, shifted into the upper half, or as a word index in the jump's segment. -/
inductive ImmExt where
  | none | sign | zero | offset | upper | segment
  deriving DecidableEq, Repr

/-- The two control-transfer policies (R97, R103). -/
inductive PcPolicy where
  | advance | jump
  deriving DecidableEq, Repr

/-- The conventional names of r11 to r15 (R22). Only `regSP` means anything to the hardware
(R23). -/
def regFP : XReg := 11

/-- r12, the stack pointer: the one register used implicitly (R23). -/
def regSP : XReg := 12

/-- r13 (R22). -/
def regGP : XReg := 13

/-- r14 (R22). -/
def regAT : XReg := 14

/-- r15 (R22). -/
def regLR : XReg := 15

end Sys2Proof
end

