-- ==== Sys2Proof/Config.lean ====
section
/-! DEFINITION. The implementation parameters of 00_scope.md R6: their types. What a model takes
for each (the spec's reference values) stands in `Sys2Proof.Machine.params`
(Machine/Params.lean) and, for OPCODE_MAP, in `Sys2Proof.opcodeMap` (Decode.lean). Every
operation that depends on a parameter takes it as an argument, and so does the machine under any
implementation (Machine/Implementation.lean). No result of this hardware is left
undefined once these are fixed, so there is no free value. -/

namespace Sys2Proof

/-- OPCODE_MAP (R95): a partial map from mnemonic to opcode byte, as the list of its pairs. What
makes such a list a legal map is `OpcodeMap.wellFormed` (WellFormed.lean). -/
abbrev OpcodeMap := List (Mnemonic × Byte)

/-- The mnemonic an opcode is assigned to (R95, R101). -/
def OpcodeMap.mnemonicOf : OpcodeMap → Byte → Option Mnemonic
  | [], _ => none
  | (m, o) :: rest, op => if o = op then some m else OpcodeMap.mnemonicOf rest op

/-- The opcode of a mnemonic (R95). -/
def OpcodeMap.opcodeOf : OpcodeMap → Mnemonic → Option Byte
  | [], _ => none
  | (m, o) :: rest, mn => if m = mn then some o else OpcodeMap.opcodeOf rest mn

/-- NARROW_LOAD_EXT (R231): how a byte or half read from memory is widened. -/
inductive NarrowExt where
  | zero
  | sign
  deriving DecidableEq, Repr

/-- The stack opcodes, each with a step of its own (R246). -/
inductive StackOp where
  | pushW | pushH | pushB | pushF | popW | popH | popB | popF | call | ret
  deriving DecidableEq, Repr

/-- The parameters of R6 other than OPCODE_MAP. -/
structure Params where
  /-- BRANCH_SCALE (R89): what the branch immediate is multiplied by. -/
  branchScale : Int
  /-- NARROW_LOAD_EXT (R231). -/
  narrowLoadExt : NarrowExt
  /-- STACK_STEP (R246): the bytes SP moves, kept apart from the access width; one step for each
  opcode, a push's and its pop's independent (D14; log 18). -/
  stackStep : StackOp → Nat
  /-- FTOI_OOR (R272): the result of a float-to-integer conversion that is out of range. -/
  ftoiOor : FVal → Word
  /-- NAN_PAYLOAD (R271): the pattern of a NaN result. -/
  nanPayload : Pattern

/-- An implementation of the ISA: a value for every parameter of R6. A machine with a subset of the
instructions is one whose map leaves the others out (R95). -/
structure Implementation where
  /-- OPCODE_MAP (R95). -/
  map : OpcodeMap
  /-- The other parameters. -/
  params : Params

end Sys2Proof
end

