-- ==== Sys2Proof/Decode.lean ====
section
/-! DEFINITION. Decoding and encoding (30_encoding.md R80 to R86, R94 to R98, R101). The opcode
map is the parameter OPCODE_MAP (R95): `decodeWith` and `encodeWith` take it as an argument, and
`opcodeMap` is the spec's reference assignment (R96), which `decodeWord` and `encode` use. A word
whose opcode the map does not assign is rejected by name; no other field is looked at to decide
(R85), and bits an instruction does not use are ignored (R86). -/

namespace Sys2Proof

/-- Why an instruction cannot be decoded. -/
inductive DecodeReject where
  /-- The opcode has no dispatch entry (R94, R101, R322). -/
  | unassignedOpcode (op : Byte)
  /-- Fewer than the four bytes of an instruction word were given (R80). -/
  | truncated
  deriving DecidableEq, Repr

/-- bits 31:24 (R82). -/
def fieldOp (w : Word) : Byte := w.extractLsb' 24 8

/-- bits 23:20 (R82, R83). -/
def fieldRa (w : Word) : BitVec 4 := w.extractLsb' 20 4

/-- bits 19:16 (R82, R83). -/
def fieldRb (w : Word) : BitVec 4 := w.extractLsb' 16 4

/-- bits 15:12 (R82). -/
def fieldRc (w : Word) : BitVec 4 := w.extractLsb' 12 4

/-- bits 15:0 (R83). -/
def fieldImm16 (w : Word) : Half := w.extractLsb' 0 16

/-- bits 23:0 (R84). -/
def fieldImm24 (w : Word) : BitVec 24 := w.extractLsb' 0 24

/-- The reference opcodes of 45_system.md (R96). -/
def opcodesSystem : OpcodeMap :=
  [(.nop, 0x01), (.halt, 0x02), (.putc, 0x03)]

/-- The reference opcodes of 40_int_arith.md (R96). -/
def opcodesArith : OpcodeMap :=
  [(.add, 0x10), (.addSi, 0x11), (.addZi, 0x12), (.addu, 0x13), (.adduSi, 0x14),
   (.adduZi, 0x15), (.sub, 0x16), (.subSi, 0x17), (.subZi, 0x18), (.subu, 0x19),
   (.subuSi, 0x1A), (.subuZi, 0x1B), (.mul, 0x1C), (.mulSi, 0x1D), (.mulZi, 0x1E),
   (.mulu, 0x1F), (.muluSi, 0x20), (.muluZi, 0x21), (.div, 0x22), (.divSi, 0x23),
   (.divZi, 0x24), (.divu, 0x25), (.divuSi, 0x26), (.divuZi, 0x27), (.mod, 0x28),
   (.modSi, 0x29), (.modZi, 0x2A), (.modu, 0x2B), (.moduSi, 0x2C), (.moduZi, 0x2D)]

/-- The reference opcodes of 41_shift_logic_relational.md (R96). -/
def opcodesShift : OpcodeMap :=
  [(.sll, 0x30), (.srl, 0x31), (.sra, 0x32), (.slli, 0x33), (.srli, 0x34), (.srai, 0x35),
   (.and, 0x38), (.or, 0x39), (.xor, 0x3A), (.not, 0x3B), (.eq, 0x40), (.ne, 0x41),
   (.lt, 0x42), (.ltu, 0x43), (.gt, 0x44), (.gtu, 0x45), (.le, 0x46), (.leu, 0x47),
   (.ge, 0x48), (.geu, 0x49)]

/-- The reference opcodes of 42_control_transfer.md (R96). -/
def opcodesControl : OpcodeMap :=
  [(.b, 0x50), (.beq, 0x51), (.bne, 0x52), (.blt, 0x53), (.bgt, 0x54), (.j, 0x58),
   (.jr, 0x59), (.call, 0x5A), (.ret, 0x5B)]

/-- The reference opcodes of 43_load_store.md (R96). -/
def opcodesMemory : OpcodeMap :=
  [(.lw, 0x60), (.lh, 0x61), (.lb, 0x62), (.lf, 0x63), (.sw, 0x64), (.sh, 0x65),
   (.sb, 0x66), (.sf, 0x67), (.li, 0x68), (.liu, 0x69), (.lui, 0x6A), (.pushW, 0x70),
   (.pushH, 0x71), (.pushB, 0x72), (.pushF, 0x73), (.popW, 0x74), (.popH, 0x75),
   (.popB, 0x76), (.popF, 0x77)]

/-- The reference opcodes of 44_float.md (R96). -/
def opcodesFloat : OpcodeMap :=
  [(.itof, 0x80), (.utof, 0x81), (.ftoi, 0x82), (.fadd, 0x90), (.fsub, 0x91),
   (.fmul, 0x92), (.fdiv, 0x93), (.fmod, 0x94), (.ffloor, 0x95), (.fceil, 0x96),
   (.feq, 0x98), (.fne, 0x99), (.flt, 0x9A), (.fgt, 0x9B), (.fle, 0x9C), (.fge, 0x9D)]

/-- The reference value of OPCODE_MAP (R96, D1; log 1). -/
def opcodeMap : OpcodeMap :=
  opcodesSystem ++ opcodesArith ++ opcodesShift ++ opcodesControl ++
    opcodesMemory ++ opcodesFloat

/-- The instruction a mnemonic makes of a word's fields: the "fields read from the word" column of
R96. -/
def Mnemonic.build (m : Mnemonic) (w : Word) : Instr :=
  match m with
  | .nop => .nop
  | .halt => .halt
  | .putc => .putc (fieldRa w)
  | .add => .add (fieldRa w) (fieldRb w) (fieldRc w)
  | .addSi => .addSi (fieldRa w) (fieldRb w) (fieldImm16 w)
  | .addZi => .addZi (fieldRa w) (fieldRb w) (fieldImm16 w)
  | .addu => .addu (fieldRa w) (fieldRb w) (fieldRc w)
  | .adduSi => .adduSi (fieldRa w) (fieldRb w) (fieldImm16 w)
  | .adduZi => .adduZi (fieldRa w) (fieldRb w) (fieldImm16 w)
  | .sub => .sub (fieldRa w) (fieldRb w) (fieldRc w)
  | .subSi => .subSi (fieldRa w) (fieldRb w) (fieldImm16 w)
  | .subZi => .subZi (fieldRa w) (fieldRb w) (fieldImm16 w)
  | .subu => .subu (fieldRa w) (fieldRb w) (fieldRc w)
  | .subuSi => .subuSi (fieldRa w) (fieldRb w) (fieldImm16 w)
  | .subuZi => .subuZi (fieldRa w) (fieldRb w) (fieldImm16 w)
  | .mul => .mul (fieldRa w) (fieldRb w) (fieldRc w)
  | .mulSi => .mulSi (fieldRa w) (fieldRb w) (fieldImm16 w)
  | .mulZi => .mulZi (fieldRa w) (fieldRb w) (fieldImm16 w)
  | .mulu => .mulu (fieldRa w) (fieldRb w) (fieldRc w)
  | .muluSi => .muluSi (fieldRa w) (fieldRb w) (fieldImm16 w)
  | .muluZi => .muluZi (fieldRa w) (fieldRb w) (fieldImm16 w)
  | .div => .div (fieldRa w) (fieldRb w) (fieldRc w)
  | .divSi => .divSi (fieldRa w) (fieldRb w) (fieldImm16 w)
  | .divZi => .divZi (fieldRa w) (fieldRb w) (fieldImm16 w)
  | .divu => .divu (fieldRa w) (fieldRb w) (fieldRc w)
  | .divuSi => .divuSi (fieldRa w) (fieldRb w) (fieldImm16 w)
  | .divuZi => .divuZi (fieldRa w) (fieldRb w) (fieldImm16 w)
  | .mod => .mod (fieldRa w) (fieldRb w) (fieldRc w)
  | .modSi => .modSi (fieldRa w) (fieldRb w) (fieldImm16 w)
  | .modZi => .modZi (fieldRa w) (fieldRb w) (fieldImm16 w)
  | .modu => .modu (fieldRa w) (fieldRb w) (fieldRc w)
  | .moduSi => .moduSi (fieldRa w) (fieldRb w) (fieldImm16 w)
  | .moduZi => .moduZi (fieldRa w) (fieldRb w) (fieldImm16 w)
  | .sll => .sll (fieldRa w) (fieldRb w) (fieldRc w)
  | .srl => .srl (fieldRa w) (fieldRb w) (fieldRc w)
  | .sra => .sra (fieldRa w) (fieldRb w) (fieldRc w)
  | .slli => .slli (fieldRa w) (fieldRb w) (fieldImm16 w)
  | .srli => .srli (fieldRa w) (fieldRb w) (fieldImm16 w)
  | .srai => .srai (fieldRa w) (fieldRb w) (fieldImm16 w)
  | .and => .and (fieldRa w) (fieldRb w) (fieldRc w)
  | .or => .or (fieldRa w) (fieldRb w) (fieldRc w)
  | .xor => .xor (fieldRa w) (fieldRb w) (fieldRc w)
  | .not => .not (fieldRa w) (fieldRb w)
  | .eq => .eq (fieldRa w) (fieldRb w) (fieldRc w)
  | .ne => .ne (fieldRa w) (fieldRb w) (fieldRc w)
  | .lt => .lt (fieldRa w) (fieldRb w) (fieldRc w)
  | .ltu => .ltu (fieldRa w) (fieldRb w) (fieldRc w)
  | .gt => .gt (fieldRa w) (fieldRb w) (fieldRc w)
  | .gtu => .gtu (fieldRa w) (fieldRb w) (fieldRc w)
  | .le => .le (fieldRa w) (fieldRb w) (fieldRc w)
  | .leu => .leu (fieldRa w) (fieldRb w) (fieldRc w)
  | .ge => .ge (fieldRa w) (fieldRb w) (fieldRc w)
  | .geu => .geu (fieldRa w) (fieldRb w) (fieldRc w)
  | .b => .b (fieldImm16 w)
  | .beq => .beq (fieldRa w) (fieldRb w) (fieldImm16 w)
  | .bne => .bne (fieldRa w) (fieldRb w) (fieldImm16 w)
  | .blt => .blt (fieldRa w) (fieldRb w) (fieldImm16 w)
  | .bgt => .bgt (fieldRa w) (fieldRb w) (fieldImm16 w)
  | .j => .j (fieldImm24 w)
  | .jr => .jr (fieldRa w)
  | .call => .call (fieldRa w)
  | .ret => .ret
  | .lw => .lw (fieldRa w) (fieldRb w) (fieldImm16 w)
  | .lh => .lh (fieldRa w) (fieldRb w) (fieldImm16 w)
  | .lb => .lb (fieldRa w) (fieldRb w) (fieldImm16 w)
  | .lf => .lf (fieldRa w) (fieldRb w) (fieldImm16 w)
  | .sw => .sw (fieldRa w) (fieldRb w) (fieldImm16 w)
  | .sh => .sh (fieldRa w) (fieldRb w) (fieldImm16 w)
  | .sb => .sb (fieldRa w) (fieldRb w) (fieldImm16 w)
  | .sf => .sf (fieldRa w) (fieldRb w) (fieldImm16 w)
  | .li => .li (fieldRa w) (fieldImm16 w)
  | .liu => .liu (fieldRa w) (fieldImm16 w)
  | .lui => .lui (fieldRa w) (fieldImm16 w)
  | .pushW => .pushW (fieldRa w)
  | .pushH => .pushH (fieldRa w)
  | .pushB => .pushB (fieldRa w)
  | .pushF => .pushF (fieldRa w)
  | .popW => .popW (fieldRa w)
  | .popH => .popH (fieldRa w)
  | .popB => .popB (fieldRa w)
  | .popF => .popF (fieldRa w)
  | .itof => .itof (fieldRa w) (fieldRb w)
  | .utof => .utof (fieldRa w) (fieldRb w)
  | .ftoi => .ftoi (fieldRa w) (fieldRb w)
  | .fadd => .fadd (fieldRa w) (fieldRb w) (fieldRc w)
  | .fsub => .fsub (fieldRa w) (fieldRb w) (fieldRc w)
  | .fmul => .fmul (fieldRa w) (fieldRb w) (fieldRc w)
  | .fdiv => .fdiv (fieldRa w) (fieldRb w) (fieldRc w)
  | .fmod => .fmod (fieldRa w) (fieldRb w) (fieldRc w)
  | .ffloor => .ffloor (fieldRa w) (fieldRb w)
  | .fceil => .fceil (fieldRa w) (fieldRb w)
  | .feq => .feq (fieldRa w) (fieldRb w) (fieldRc w)
  | .fne => .fne (fieldRa w) (fieldRb w) (fieldRc w)
  | .flt => .flt (fieldRa w) (fieldRb w) (fieldRc w)
  | .fgt => .fgt (fieldRa w) (fieldRb w) (fieldRc w)
  | .fle => .fle (fieldRa w) (fieldRb w) (fieldRc w)
  | .fge => .fge (fieldRa w) (fieldRb w) (fieldRc w)

/-- The format column of R96, the same for every OPCODE_MAP (R97). -/
def Mnemonic.format : Mnemonic → Format
  | .nop | .halt | .putc | .add => .R
  | .addSi | .addZi => .I
  | .addu => .R
  | .adduSi | .adduZi => .I
  | .sub => .R
  | .subSi | .subZi => .I
  | .subu => .R
  | .subuSi | .subuZi => .I
  | .mul => .R
  | .mulSi | .mulZi => .I
  | .mulu => .R
  | .muluSi | .muluZi => .I
  | .div => .R
  | .divSi | .divZi => .I
  | .divu => .R
  | .divuSi | .divuZi => .I
  | .mod => .R
  | .modSi | .modZi => .I
  | .modu => .R
  | .moduSi | .moduZi => .I
  | .sll | .srl | .sra => .R
  | .slli | .srli | .srai => .I
  | .and | .or | .xor | .not | .eq | .ne | .lt | .ltu | .gt | .gtu | .le | .leu | .ge
  | .geu => .R
  | .b | .beq | .bne | .blt | .bgt => .I
  | .j => .J
  | .jr | .call | .ret => .R
  | .lw | .lh | .lb | .lf | .sw | .sh | .sb | .sf | .li | .liu | .lui => .I
  | .pushW | .pushH | .pushB | .pushF | .popW | .popH | .popB | .popF | .itof | .utof
  | .ftoi | .fadd | .fsub | .fmul | .fdiv | .fmod | .ffloor | .fceil | .feq | .fne
  | .flt | .fgt | .fle | .fge => .R

/-- The immediate-extension column of R96. -/
def Mnemonic.immExt : Mnemonic → ImmExt
  | .nop | .halt | .putc | .add => .none
  | .addSi => .sign
  | .addZi => .zero
  | .addu => .none
  | .adduSi => .sign
  | .adduZi => .zero
  | .sub => .none
  | .subSi => .sign
  | .subZi => .zero
  | .subu => .none
  | .subuSi => .sign
  | .subuZi => .zero
  | .mul => .none
  | .mulSi => .sign
  | .mulZi => .zero
  | .mulu => .none
  | .muluSi => .sign
  | .muluZi => .zero
  | .div => .none
  | .divSi => .sign
  | .divZi => .zero
  | .divu => .none
  | .divuSi => .sign
  | .divuZi => .zero
  | .mod => .none
  | .modSi => .sign
  | .modZi => .zero
  | .modu => .none
  | .moduSi => .sign
  | .moduZi => .zero
  | .sll | .srl | .sra => .none
  | .slli | .srli | .srai => .zero
  | .and | .or | .xor | .not | .eq | .ne | .lt | .ltu | .gt | .gtu | .le | .leu | .ge
  | .geu => .none
  | .b | .beq | .bne | .blt | .bgt => .offset
  | .j => .segment
  | .jr | .call | .ret => .none
  | .lw | .lh | .lb | .lf | .sw | .sh | .sb | .sf | .li => .sign
  | .liu => .zero
  | .lui => .upper
  | .pushW | .pushH | .pushB | .pushF | .popW | .popH | .popB | .popF | .itof | .utof
  | .ftoi | .fadd | .fsub | .fmul | .fdiv | .fmod | .ffloor | .fceil | .feq | .fne
  | .flt | .fgt | .fle | .fge => .none

/-- The control-transfer policy column of R96; `halt` takes the advance policy (R312). -/
def Mnemonic.pcPolicy : Mnemonic → PcPolicy
  | .nop | .halt | .putc | .add | .addSi | .addZi | .addu | .adduSi | .adduZi | .sub
  | .subSi | .subZi | .subu | .subuSi | .subuZi | .mul | .mulSi | .mulZi | .mulu
  | .muluSi | .muluZi | .div | .divSi | .divZi | .divu | .divuSi | .divuZi | .mod
  | .modSi | .modZi | .modu | .moduSi | .moduZi | .sll | .srl | .sra | .slli | .srli
  | .srai | .and | .or | .xor | .not | .eq | .ne | .lt | .ltu | .gt | .gtu | .le | .leu
  | .ge | .geu => .advance
  | .b | .beq | .bne | .blt | .bgt | .j | .jr | .call | .ret => .jump
  | .lw | .lh | .lb | .lf | .sw | .sh | .sb | .sf | .li | .liu | .lui | .pushW | .pushH
  | .pushB | .pushF | .popW | .popH | .popB | .popF | .itof | .utof | .ftoi | .fadd
  | .fsub | .fmul | .fdiv | .fmod | .ffloor | .fceil | .feq | .fne | .flt | .fgt | .fle
  | .fge => .advance

/-- Decode a word under an opcode map (R95, R101). Total: the only rejection is an unassigned
opcode (R86, R94). -/
def decodeWith (map : OpcodeMap) (w : Word) : Except DecodeReject Instr :=
  match map.mnemonicOf (fieldOp w) with
  | some m => .ok (m.build w)
  | none => .error (.unassignedOpcode (fieldOp w))

/-- Decode a word under the reference map. -/
def decodeWord (w : Word) : Except DecodeReject Instr := decodeWith opcodeMap w

/-- The word four bytes in memory order make: the first is bits 7:0 (R53, R81). -/
def wordOfBytes (b0 b1 b2 b3 : Byte) : Word := b3 ++ b2 ++ b1 ++ b0

/-- The four bytes of a word in memory order: lowest first (R53, R81). -/
def bytesOfWord (w : Word) : List Byte :=
  [w.extractLsb' 0 8, w.extractLsb' 8 8, w.extractLsb' 16 8, w.extractLsb' 24 8]

/-- Decode the instruction at the front of a byte sequence, and give the rest back (R80, R81). -/
def decodeBytes : List Byte → Except DecodeReject (Instr × List Byte)
  | b0 :: b1 :: b2 :: b3 :: rest =>
    match decodeWord (wordOfBytes b0 b1 b2 b3) with
    | .ok i => .ok (i, rest)
    | .error e => .error e
  | _ => .error .truncated

/-- The word of an instruction whose low `nbits` bits are `w` and whose other bits are 0. -/
def tableWord (nbits w : Nat) : Word := BitVec.ofNat 32 (w % 2 ^ nbits)

/-- What the decoder reads from an instruction whose bits are `w`, bit 0 the least significant bit
of its one word: the word is laid out as memory stores it (R81) and given to the decoder. -/
def decodeTableWord (nbits w : Nat) : Option Instr :=
  match decodeBytes (bytesOfWord (tableWord nbits w)) with
  | .ok (i, _) => some i
  | .error _ => none

/-- The low 24 bits of an R-format word, its reserved bits zero (R82). -/
def packR (ra rb rc : BitVec 4) : BitVec 24 := ra ++ rb ++ rc ++ 0#12

/-- The low 24 bits of an I-format word (R83). -/
def packI (ra rb : BitVec 4) (imm16 : Half) : BitVec 24 := ra ++ rb ++ imm16

/-- The bits of an instruction below its opcode: its fields where R82 to R84 place them, and zero
in every bit it does not use. -/
def Instr.fields : Instr → BitVec 24
  | .nop => packR 0 0 0
  | .halt => packR 0 0 0
  | .putc ra => packR ra 0 0
  | .add ra rb rc => packR ra rb rc
  | .addSi ra rb imm16 => packI ra rb imm16
  | .addZi ra rb imm16 => packI ra rb imm16
  | .addu ra rb rc => packR ra rb rc
  | .adduSi ra rb imm16 => packI ra rb imm16
  | .adduZi ra rb imm16 => packI ra rb imm16
  | .sub ra rb rc => packR ra rb rc
  | .subSi ra rb imm16 => packI ra rb imm16
  | .subZi ra rb imm16 => packI ra rb imm16
  | .subu ra rb rc => packR ra rb rc
  | .subuSi ra rb imm16 => packI ra rb imm16
  | .subuZi ra rb imm16 => packI ra rb imm16
  | .mul ra rb rc => packR ra rb rc
  | .mulSi ra rb imm16 => packI ra rb imm16
  | .mulZi ra rb imm16 => packI ra rb imm16
  | .mulu ra rb rc => packR ra rb rc
  | .muluSi ra rb imm16 => packI ra rb imm16
  | .muluZi ra rb imm16 => packI ra rb imm16
  | .div ra rb rc => packR ra rb rc
  | .divSi ra rb imm16 => packI ra rb imm16
  | .divZi ra rb imm16 => packI ra rb imm16
  | .divu ra rb rc => packR ra rb rc
  | .divuSi ra rb imm16 => packI ra rb imm16
  | .divuZi ra rb imm16 => packI ra rb imm16
  | .mod ra rb rc => packR ra rb rc
  | .modSi ra rb imm16 => packI ra rb imm16
  | .modZi ra rb imm16 => packI ra rb imm16
  | .modu ra rb rc => packR ra rb rc
  | .moduSi ra rb imm16 => packI ra rb imm16
  | .moduZi ra rb imm16 => packI ra rb imm16
  | .sll ra rb rc => packR ra rb rc
  | .srl ra rb rc => packR ra rb rc
  | .sra ra rb rc => packR ra rb rc
  | .slli ra rb imm16 => packI ra rb imm16
  | .srli ra rb imm16 => packI ra rb imm16
  | .srai ra rb imm16 => packI ra rb imm16
  | .and ra rb rc => packR ra rb rc
  | .or ra rb rc => packR ra rb rc
  | .xor ra rb rc => packR ra rb rc
  | .not ra rb => packR ra rb 0
  | .eq ra rb rc => packR ra rb rc
  | .ne ra rb rc => packR ra rb rc
  | .lt ra rb rc => packR ra rb rc
  | .ltu ra rb rc => packR ra rb rc
  | .gt ra rb rc => packR ra rb rc
  | .gtu ra rb rc => packR ra rb rc
  | .le ra rb rc => packR ra rb rc
  | .leu ra rb rc => packR ra rb rc
  | .ge ra rb rc => packR ra rb rc
  | .geu ra rb rc => packR ra rb rc
  | .b imm16 => packI 0 0 imm16
  | .beq ra rb imm16 => packI ra rb imm16
  | .bne ra rb imm16 => packI ra rb imm16
  | .blt ra rb imm16 => packI ra rb imm16
  | .bgt ra rb imm16 => packI ra rb imm16
  | .j imm24 => imm24
  | .jr ra => packR ra 0 0
  | .call ra => packR ra 0 0
  | .ret => packR 0 0 0
  | .lw ra rb imm16 => packI ra rb imm16
  | .lh ra rb imm16 => packI ra rb imm16
  | .lb ra rb imm16 => packI ra rb imm16
  | .lf ra rb imm16 => packI ra rb imm16
  | .sw ra rb imm16 => packI ra rb imm16
  | .sh ra rb imm16 => packI ra rb imm16
  | .sb ra rb imm16 => packI ra rb imm16
  | .sf ra rb imm16 => packI ra rb imm16
  | .li ra imm16 => packI ra 0 imm16
  | .liu ra imm16 => packI ra 0 imm16
  | .lui ra imm16 => packI ra 0 imm16
  | .pushW ra => packR ra 0 0
  | .pushH ra => packR ra 0 0
  | .pushB ra => packR ra 0 0
  | .pushF ra => packR ra 0 0
  | .popW ra => packR ra 0 0
  | .popH ra => packR ra 0 0
  | .popB ra => packR ra 0 0
  | .popF ra => packR ra 0 0
  | .itof ra rb => packR ra rb 0
  | .utof ra rb => packR ra rb 0
  | .ftoi ra rb => packR ra rb 0
  | .fadd ra rb rc => packR ra rb rc
  | .fsub ra rb rc => packR ra rb rc
  | .fmul ra rb rc => packR ra rb rc
  | .fdiv ra rb rc => packR ra rb rc
  | .fmod ra rb rc => packR ra rb rc
  | .ffloor ra rb => packR ra rb 0
  | .fceil ra rb => packR ra rb 0
  | .feq ra rb rc => packR ra rb rc
  | .fne ra rb rc => packR ra rb rc
  | .flt ra rb rc => packR ra rb rc
  | .fgt ra rb rc => packR ra rb rc
  | .fle ra rb rc => packR ra rb rc
  | .fge ra rb rc => packR ra rb rc

/-- The word of an instruction under an opcode map: the opcode in bits 31:24 above the fields
(R82 to R84); none where the map leaves its mnemonic out (R95). -/
def encodeWith (map : OpcodeMap) (i : Instr) : Option Word :=
  match map.opcodeOf i.mnemonic with
  | some op => some (op ++ i.fields)
  | none => none

/-- The word of an instruction under the reference map. -/
def encode (i : Instr) : Option Word := encodeWith opcodeMap i

end Sys2Proof
end

