-- ==== Sys2Proof/Machine/Operands.lean ====
section
/-! DEFINITION. Every operand form the spec gives (30_encoding.md R87 to R92, 00_scope.md R11,
43_load_store.md R230, R231). The second operand of a register form is the register itself. -/

namespace Sys2Proof.Machine

/-- `sext_32` of a half (R11, R87): the `_si` forms, load and store offsets, li. -/
def sext32 (v : Half) : Word := v.signExtend 32

/-- `zext_32` of a half (R11, R88): the `_zi` forms, liu, the immediate shifts. -/
def zext32 (v : Half) : Word := v.zeroExtend 32

/-- `zext_32` of a byte (R11). -/
def zext32b (v : Byte) : Word := v.zeroExtend 32

/-- `sext_32` of a byte (R11). -/
def sext32b (v : Byte) : Word := v.signExtend 32

/-- `offext_32`: the branch displacement in bytes (R11, R89). -/
def offext32 (scale : Int) (imm16 : Half) : Word := wrap32 (imm16.toInt * scale)

/-- The target of a taken branch, from the branch's own address (R200). -/
def branchTarget (scale : Int) (pc : Word) (imm16 : Half) : Word := pc + offext32 scale imm16

/-- The target of `j`: the top 6 bits of the jump's own address, the immediate, and two zeros
(R90, R206). -/
def jumpTarget (pc : Word) (imm24 : BitVec 24) : Word :=
  (pc &&& 0xFC000000) ||| (imm24.zeroExtend 32 <<< 2)

/-- The upper immediate of `lui` (R91). -/
def upperImm (imm16 : Half) : Word := imm16 ++ 0#16

/-- The amount of a shift: the low 5 bits of the word (R92). -/
def shamt (v : Word) : Nat := (v.extractLsb' 0 5).toNat

/-- The effective address of a load or store: base plus sign-extended offset modulo 2^32 (R230). -/
def effAddr (base : Word) (imm16 : Half) : Word := base + sext32 imm16

/-- `ext16`: a half read from memory, widened by NARROW_LOAD_EXT (R231). -/
def ext16 (e : NarrowExt) (v : Half) : Word :=
  match e with
  | .zero => zext32 v
  | .sign => sext32 v

/-- `ext8`: a byte read from memory, widened by NARROW_LOAD_EXT (R231). -/
def ext8 (e : NarrowExt) (v : Byte) : Word :=
  match e with
  | .zero => zext32b v
  | .sign => sext32b v

/-- The half a narrow store or push keeps (R231, R237). -/
def lowHalf (v : Word) : Half := v.extractLsb' 0 16

/-- The byte a narrow store, push or putc keeps (R238, R310). -/
def lowByte (v : Word) : Byte := v.extractLsb' 0 8

end Sys2Proof.Machine
end

