-- ==== Sys2Proof/Machine/State.lean ====
section
/-! DEFINITION. The state of the machine (10_state.md R20: exactly x, f, pc, Mem, run, out), its
value after reset (R35, 70_reset_and_hazards.md R350), and the ways a step can stop. -/

namespace Sys2Proof.Machine

/-- Memory (R50, R51): the bytes that are not 0x00, as (address, byte) pairs with addresses strictly
rising. An address that is not listed reads as 0x00, which is also what a written 0x00 reads as
(R345), so the zero bytes are never listed and equal memories are equal lists
(`Memory.wf`, Machine/Ops.lean). -/
abbrev Memory := List Host.Cell

/-- The kinds of fault (R321). -/
inductive FaultKind where
  /-- The opcode has no dispatch entry: raised by a step at decode (R322). -/
  | decodeFault
  /-- Division or remainder by zero: raised by the 12 div and mod instructions (R323). -/
  | arithmeticFault
  /-- A register index outside [0, 15]: raised by host register accesses only (R324, R347). -/
  | indexFault
  /-- Reserved: nothing raises it; its name and code are kept (R325, log 14). -/
  | memoryFault
  deriving DecidableEq, Repr

/-- The run state (R32, R327): a fault leaves its kind, the pc and the word of the failing
instruction (for a host index fault the third field is the offending index). -/
inductive RunState where
  | running
  | halted
  | faulted (kind : FaultKind) (pc : Word) (word : Word)
  deriving DecidableEq, Repr

/-- The architectural state (R20). -/
structure State where
  /-- the 16 integer registers (R21) -/
  x : Vector Word 16
  /-- the 16 float registers, as binary64 patterns (R26) -/
  f : Vector Pattern 16
  /-- the program counter (R28) -/
  pc : Word
  /-- the bytes of memory (R50) -/
  mem : Memory
  /-- running, halted or faulted (R32) -/
  run : RunState
  /-- the bytes emitted by putc, in emission order (R33) -/
  out : List Byte
  deriving DecidableEq, Repr

/-- What a step can stop with and leave no state. The spec gives no such case: every fault it
describes (R321 to R327) leaves a state, in which `run` holds the fault record and nothing else has
changed, so it is a next state (log 7). Nothing raises a `Fault`, and leaving the type empty is
safe: no step of the model stops where the spec goes on. -/
inductive Fault where
  deriving DecidableEq, Repr

/-- Why a step is refused. -/
inductive Refusal where
  /-- Raised by an arm of `exec` whose instruction has no meaning yet. No arm is left so; safe. -/
  | notModelled (mnemonic : String)
  /-- Raised by `step` when `run` is halted: the operation is refused and changes nothing
  (R104, R343, D38). Safe: the spec refuses it. -/
  | halted
  /-- Raised by `step` when `run` is faulted: refused, nothing changes (R104, R343, D38). Safe: the
  spec refuses it. -/
  | faulted
  deriving DecidableEq, Repr

/-- The outcome of a step or of an instruction. -/
abbrev StepResult := Host.Outcome State Fault Refusal

/-- The machine right after reset (R35, R350): every register, the pc and every byte of memory zero,
running, no output. -/
def State.reset : State where
  x := Vector.replicate 16 0
  f := Vector.replicate 16 0
  pc := 0
  mem := []
  run := .running
  out := []

end Sys2Proof.Machine
end

