-- ==== Sys2Proof/Machine/Ops.lean ====
section
/-! DEFINITION. The named operations every meaning is made of: registers (00_scope.md R9), memory
(R10, 20_memory.md R50 to R60), the two control-transfer policies (30_encoding.md R103), the stack
(43_load_store.md R245), taking a fault (60_exceptions.md R326, R327), halting and output
(45_system.md R310, R312). There is no return from a fault (R331): only a host reset leaves a
terminal run state. -/

namespace Sys2Proof.Machine

/-! ## Memory -/

/-- What an address that is not listed reads as (R51). -/
def Memory.default : Byte := 0

/-- The byte at an address (R50, R51). -/
def Memory.read : Memory → Nat → Byte
  | [], _ => Memory.default
  | (b, v) :: rest, a => if b = a then v else Memory.read rest a

/-- The memory with an address no longer listed. -/
def Memory.erase : Memory → Nat → Memory
  | [], _ => []
  | (b, v) :: rest, a =>
    if b = a then Memory.erase rest a else (b, v) :: Memory.erase rest a

/-- A cell put in its place among rising addresses. -/
def Memory.insert : Memory → Nat → Byte → Memory
  | [], a, v => [(a, v)]
  | (b, w) :: rest, a, v =>
    if a < b then (a, v) :: (b, w) :: rest else (b, w) :: Memory.insert rest a v

/-- Write one byte; writing what an unlisted address reads as removes the entry (R51, R345). -/
def Memory.write (m : Memory) (a : Nat) (v : Byte) : Memory :=
  if v = Memory.default then m.erase a else (m.erase a).insert a v

/-- The addresses rise strictly from above `lo`, and no cell holds the default byte. -/
def Memory.wfFrom : Option Nat → Memory → Bool
  | _, [] => true
  | lo, (a, v) :: rest =>
    (match lo with
      | none => true
      | some l => decide (l < a)) &&
    decide (a < 2 ^ 32) && decide (v ≠ Memory.default) && Memory.wfFrom (some a) rest

/-- The canonical form: addresses strictly rising and below 2^32 (R50), no zero byte listed. -/
def Memory.wf (m : Memory) : Bool := Memory.wfFrom none m

/-- `MemRead(addr, n)` as a natural: the n bytes at addr, addr+1, ... modulo 2^32, the first least
significant (R10, R52, R57). -/
def readLE (m : Memory) : Word → Nat → Nat
  | _, 0 => 0
  | a, n + 1 => (m.read a.toNat).toNat + 2 ^ 8 * readLE m (a + 1) n

/-- `MemWrite(addr, n, v)`: the low n bytes of v at addr, addr+1, ... modulo 2^32, the least
significant first (R10, R52, R57). -/
def writeLE (m : Memory) : Word → Nat → Nat → Memory
  | _, 0, _ => m
  | a, n + 1, v => writeLE (m.write a.toNat (BitVec.ofNat 8 v)) (a + 1) n (v / 2 ^ 8)

/-- The byte of memory at an address (R50). -/
def State.readByte (s : State) (a : Word) : Byte := s.mem.read a.toNat

/-- A byte access (R55). -/
def State.load8 (s : State) (a : Word) : Byte := BitVec.ofNat 8 (readLE s.mem a 1)

/-- A half access (R55). -/
def State.load16 (s : State) (a : Word) : Half := BitVec.ofNat 16 (readLE s.mem a 2)

/-- A word access (R55). -/
def State.load32 (s : State) (a : Word) : Word := BitVec.ofNat 32 (readLE s.mem a 4)

/-- A float access (R55). -/
def State.load64 (s : State) (a : Word) : Pattern := BitVec.ofNat 64 (readLE s.mem a 8)

/-- A byte store (R55). -/
def State.store8 (s : State) (a : Word) (v : Byte) : State :=
  { s with mem := writeLE s.mem a 1 v.toNat }

/-- A half store (R55). -/
def State.store16 (s : State) (a : Word) (v : Half) : State :=
  { s with mem := writeLE s.mem a 2 v.toNat }

/-- A word store (R55). -/
def State.store32 (s : State) (a : Word) (v : Word) : State :=
  { s with mem := writeLE s.mem a 4 v.toNat }

/-- A float store: the pattern's eight bytes, unchanged (R55, R239). -/
def State.store64 (s : State) (a : Word) (v : Pattern) : State :=
  { s with mem := writeLE s.mem a 8 v.toNat }

/-! ## Registers -/

/-- `x[i]` (R9); r0 is a register like every other (R24). -/
def State.readX (s : State) (r : XReg) : Word := s.x[r.toNat]'r.isLt

/-- `x[i] <- v` (R9, R24). -/
def State.writeX (s : State) (r : XReg) (v : Word) : State :=
  { s with x := s.x.set r.toNat v r.isLt }

/-- `f[i]`, as a pattern (R9). -/
def State.readF (s : State) (r : FReg) : Pattern := s.f[r.toNat]'r.isLt

/-- `f[i] <- v` (R9). -/
def State.writeF (s : State) (r : FReg) (v : Pattern) : State :=
  { s with f := s.f.set r.toNat v r.isLt }

/-! ## Control transfer -/

/-- The address of the next instruction in sequence, modulo 2^32 (R29, R80). -/
def State.nextPc (s : State) : Word := s.pc + 4

/-- The advance policy (R103). -/
def State.advance (s : State) : State := { s with pc := s.nextPc }

/-- The jump policy: any 32-bit target, unchecked (R103, R210). -/
def State.jump (s : State) (target : Word) : State := { s with pc := target }

/-- A branch: the target when taken, the next instruction when not (R200). -/
def State.branch (s : State) (scale : Int) (taken : Bool) (imm16 : Half) : State :=
  s.jump (if taken then branchTarget scale s.pc imm16 else s.nextPc)

/-! ## Run state and output -/

/-- The word at pc: what the fetch reads (R60, R100). No instruction has written memory or pc when a
fault is raised (R326), so it is also the word of the instruction in execution. -/
def State.fetchWord (s : State) : Word := s.load32 s.pc

/-- `raise kind(pc, w)`: nothing is committed, and the run state becomes the fault record
(R12, R326, R327). -/
def State.raiseFault (s : State) (kind : FaultKind) (w : Word) : State :=
  { s with run := .faulted kind s.pc w }

/-- A fault of the instruction fetched from pc (R322, R323). -/
def State.takeFault (s : State) (kind : FaultKind) : State := s.raiseFault kind s.fetchWord

/-- `run <- halted` (R312). -/
def State.halt (s : State) : State := { s with run := .halted }

/-- One byte appended to the output (R33, R310). -/
def State.emit (s : State) (b : Byte) : State := { s with out := s.out ++ [b] }

/-! ## The shapes an instruction ends in -/

/-- Write an integer register and advance. -/
def setX (r : XReg) (v : Word) (s : State) : StepResult := .next (s.writeX r v).advance

/-- Write a float register and advance. -/
def setF (r : FReg) (v : Pattern) (s : State) : StepResult := .next (s.writeF r v).advance

/-- A divide or remainder: a zero divisor raises ArithmeticFault before anything is written
(R124, R323). -/
def setXDivided (r : XReg) (op : Word → Word → Word) (a b : Word) (s : State) : StepResult :=
  if b = 0 then .next (s.takeFault .arithmeticFault) else setX r (op a b) s

/-! ## The stack (R245): SP is r12, the step is kept apart from the access width -/

/-- Where a push with this step stores: SP minus the step, modulo 2^32 (R245). -/
def State.pushAddr (s : State) (step : Nat) : Word := s.readX regSP - BitVec.ofNat 32 step

/-- Where a pop reads: SP (R245). -/
def State.popAddr (s : State) : Word := s.readX regSP

/-- SP after a pop with this step (R245). -/
def State.popSP (s : State) (step : Nat) : Word := s.readX regSP + BitVec.ofNat 32 step

/-- SP moved by a push (R245). -/
def State.pushSP (s : State) (step : Nat) : State := s.writeX regSP (s.pushAddr step)

end Sys2Proof.Machine
end

