-- ==== Sys2Proof/Machine/Cycle.lean ====
section
/-! DEFINITION. The step of a machine with a given opcode map and given instruction meanings
(30_encoding.md R95, R100 to R104): fetch the word at pc, decode it, execute it; a word with no
dispatch entry raises DecodeFault (60_exceptions.md R322); and the same on a word the host supplies
(R343). -/

namespace Sys2Proof.Machine

/-- Fetch, decode, execute (R100 to R102). -/
def cycleOf (map : OpcodeMap) (ex : Instr → State → StepResult) (s : State) : StepResult :=
  match decodeWith map s.fetchWord with
  | .ok i => ex i s
  | .error _ => .next (s.takeFault .decodeFault)

/-- One step: a running machine runs the instruction at pc; a halted or faulted one refuses and
changes nothing (R104, R343, D38). -/
def stepOf (map : OpcodeMap) (ex : Instr → State → StepResult) (s : State) : StepResult :=
  match s.run with
  | .running => cycleOf map ex s
  | .halted => .refused .halted
  | .faulted _ _ _ => .refused .faulted

/-- The fault record of a supplied word holds that word (R327, R343). -/
def recordWord (w : Word) : StepResult → StepResult
  | .next t =>
    match t.run with
    | .faulted k p _ => .next { t with run := .faulted k p w }
    | _ => .next t
  | o => o

/-- The step on a word the host supplies; memory at pc plays no part in what it does (R100, R343,
D31). -/
def stepWordOf (map : OpcodeMap) (ex : Instr → State → StepResult) (w : Word) (s : State) :
    StepResult :=
  match s.run with
  | .running =>
    match decodeWith map w with
    | .ok i => recordWord w (ex i s)
    | .error _ => .next (s.raiseFault .decodeFault w)
  | .halted => .refused .halted
  | .faulted _ _ _ => .refused .faulted

/-- The run loop (R354) of a machine with this step, under a harness that asks for at most `fuel`
steps (R348): it stops as soon as the machine no longer runs, and otherwise leaves the state after
the last completed step. -/
def runLoopOf (st : State → StepResult) : Nat → State → State
  | 0, s => s
  | fuel + 1, s =>
    match st s with
    | .next t => runLoopOf st fuel t
    | _ => s

end Sys2Proof.Machine
end

