-- ==== Sys2Proof/Machine/Ieee.lean ====
section
/-! DEFINITION. The float unit's arithmetic (44_float.md R270 to R272, R277 to R284): IEEE-754
binary64, round to nearest, ties to even, on exact values. A finite value is `± units * 2^-1074`
(`FVal.fin`), so nothing is rounded until the one rounding of `roundMag`. -/

namespace Sys2Proof.Machine

/-- The number of units in 1.0: 2^1074. -/
def oneUnits : Nat := 2 ^ 1074

/-- The magnitude pattern of an infinity: exponent field all ones, fraction 0. -/
def infMag : Nat := 0x7FF0000000000000

/-- The exponent field of a pattern: bits 62:52. -/
def expField (b : Pattern) : Nat := (b.extractLsb' 52 11).toNat

/-- The fraction field of a pattern: bits 51:0. -/
def fracField (b : Pattern) : Nat := (b.extractLsb' 0 52).toNat

/-- The sign of a pattern: bit 63. -/
def signField (b : Pattern) : Bool := b.getLsbD 63

/-- The magnitude, in units, of the finite number with these fields: a subnormal's fraction counts
units; a normal's hidden bit is added and the exponent shifts it (R270, R13). -/
def unitsOf (e fr : Nat) : Nat := if e = 0 then fr else (2 ^ 52 + fr) * 2 ^ (e - 1)

/-- `F(b)`: what a pattern stands for (R13). -/
def toFVal (b : Pattern) : FVal :=
  if expField b = 0x7FF then
    if fracField b = 0 then .inf (signField b) else .nan
  else .fin (signField b) (unitsOf (expField b) (fracField b))

/-- A quotient of naturals rounded to the nearest natural, ties to even (R270). -/
def roundHalfEven (n d : Nat) : Nat :=
  if 2 * (n % d) < d then n / d
  else if d < 2 * (n % d) then n / d + 1
  else n / d + n / d % 2

/-- The magnitude pattern (bits 62:0) nearest to `n / d` units, ties to even. Below 2^53 units the
spacing is one unit; above, the last 52 bits under the leading one are kept and the exponent field
counts the shift; a carry out of the fraction moves to the next exponent by itself; past the
largest finite number the result is an infinity (R270). -/
def roundMag (n d : Nat) : Nat :=
  min infMag
    (roundHalfEven n (d * 2 ^ (Nat.log2 (n / d) - 52)) + (Nat.log2 (n / d) - 52) * 2 ^ 52)

/-- A pattern from its sign and magnitude. -/
def packFloat (neg : Bool) (mag : Nat) : Pattern :=
  BitVec.ofNat 64 ((if neg then 2 ^ 63 else 0) + mag)

/-- `B(d)`: the pattern of a value; a NaN is written as NAN_PAYLOAD (R13, R271). -/
def ofFVal (nan : Pattern) : FVal → Pattern
  | .nan => nan
  | .inf neg => packFloat neg infMag
  | .fin neg k => packFloat neg (roundMag k 1)

/-- The exact signed value of a finite number, in units. -/
def signedUnits (neg : Bool) (k : Nat) : Int := if neg then -(k : Int) else (k : Int)

/-- The sum of two values, rounded (R277). An exact zero sum is +0.0 unless both operands are
negative zeros (log 12). -/
def addVal (nan : Pattern) : FVal → FVal → Pattern
  | .nan, _ => nan
  | _, .nan => nan
  | .inf n1, .inf n2 => if n1 = n2 then packFloat n1 infMag else nan
  | .inf n1, .fin _ _ => packFloat n1 infMag
  | .fin _ _, .inf n2 => packFloat n2 infMag
  | .fin n1 k1, .fin n2 k2 =>
    let z := signedUnits n1 k1 + signedUnits n2 k2
    if z = 0 then packFloat (n1 && n2) 0
    else packFloat (decide (z < 0)) (roundMag z.natAbs 1)

/-- The value with the other sign. -/
def negVal : FVal → FVal
  | .nan => .nan
  | .inf n => .inf (!n)
  | .fin n k => .fin (!n) k

/-- The product of two values, rounded (R279). -/
def mulVal (nan : Pattern) : FVal → FVal → Pattern
  | .nan, _ => nan
  | _, .nan => nan
  | .inf n1, .inf n2 => packFloat (n1 ^^ n2) infMag
  | .inf n1, .fin n2 k2 => if k2 = 0 then nan else packFloat (n1 ^^ n2) infMag
  | .fin n1 k1, .inf n2 => if k1 = 0 then nan else packFloat (n1 ^^ n2) infMag
  | .fin n1 k1, .fin n2 k2 => packFloat (n1 ^^ n2) (roundMag (k1 * k2) oneUnits)

/-- The quotient of two values, rounded; a division by zero gives an infinity or a NaN, never a
fault (R280). -/
def divVal (nan : Pattern) : FVal → FVal → Pattern
  | .nan, _ => nan
  | _, .nan => nan
  | .inf _, .inf _ => nan
  | .inf n1, .fin n2 _ => packFloat (n1 ^^ n2) infMag
  | .fin n1 _, .inf n2 => packFloat (n1 ^^ n2) 0
  | .fin n1 k1, .fin n2 k2 =>
    if k2 = 0 then (if k1 = 0 then nan else packFloat (n1 ^^ n2) infMag)
    else packFloat (n1 ^^ n2) (roundMag (k1 * oneUnits) k2)

/-- The truncated remainder of two values: exact, with the sign of the dividend (R281). -/
def modVal (nan : Pattern) : FVal → FVal → Pattern
  | .nan, _ => nan
  | _, .nan => nan
  | .inf _, _ => nan
  | .fin n1 k1, .inf _ => packFloat n1 (roundMag k1 1)
  | .fin n1 k1, .fin _ k2 => if k2 = 0 then nan else packFloat n1 (roundMag (k1 % k2) 1)

/-- A magnitude in units with its fraction dropped. -/
def unitsDown (k : Nat) : Nat := k - k % oneUnits

/-- A magnitude in units rounded up to a whole number. -/
def unitsUp (k : Nat) : Nat := if k % oneUnits = 0 then k else k - k % oneUnits + oneUnits

/-- `floor` as a value: infinities and zeros keep themselves (R282). -/
def floorVal : FVal → FVal
  | .nan => .nan
  | .inf n => .inf n
  | .fin n k => .fin n (if n then unitsUp k else unitsDown k)

/-- `ceil` as a value: the sign is kept, so the ceiling of -0.5 is -0.0 (R283). -/
def ceilVal : FVal → FVal
  | .nan => .nan
  | .inf n => .inf n
  | .fin n k => .fin n (if n then unitsDown k else unitsUp k)

/-- `floor(d)` of a finite value as an integer (R272). -/
def floorInt (neg : Bool) (k : Nat) : Int :=
  if neg then -((unitsUp k / oneUnits : Nat) : Int) else ((k / oneUnits : Nat) : Int)

/-- `fadd64` on patterns (R277). -/
def fadd64 (nan a b : Pattern) : Pattern := addVal nan (toFVal a) (toFVal b)

/-- `fsub64`: the sum with the second operand's sign changed (R278). -/
def fsub64 (nan a b : Pattern) : Pattern := addVal nan (toFVal a) (negVal (toFVal b))

/-- `fmul64` (R279). -/
def fmul64 (nan a b : Pattern) : Pattern := mulVal nan (toFVal a) (toFVal b)

/-- `fdiv64` (R280). -/
def fdiv64 (nan a b : Pattern) : Pattern := divVal nan (toFVal a) (toFVal b)

/-- `fmod64` (R281). -/
def fmod64 (nan a b : Pattern) : Pattern := modVal nan (toFVal a) (toFVal b)

/-- `B(floor(F(b)))` (R282). -/
def ffloor64 (nan a : Pattern) : Pattern := ofFVal nan (floorVal (toFVal a))

/-- `B(ceil(F(b)))` (R283). -/
def fceil64 (nan a : Pattern) : Pattern := ofFVal nan (ceilVal (toFVal a))

/-- `B(n)` of an integer: +0.0 for 0 (R273, R274). -/
def ofInteger (n : Int) : Pattern :=
  packFloat (decide (n < 0)) (roundMag (n.natAbs * oneUnits) 1)

/-- The float-to-integer law (R272): the floor when it is an int32, FTOI_OOR otherwise. -/
def ftoiVal (oor : FVal → Word) (d : FVal) : Word :=
  match d with
  | .fin neg k =>
    if -(2 ^ 31) ≤ floorInt neg k ∧ floorInt neg k ≤ 2 ^ 31 - 1 then wrap32 (floorInt neg k)
    else oor d
  | _ => oor d

/-- The reference value of FTOI_OOR (R272, D17): 0 for a NaN or an infinity, the floor modulo 2^32
for a finite value. -/
def ftoiWraps : FVal → Word
  | .fin neg k => wrap32 (floorInt neg k)
  | _ => 0

end Sys2Proof.Machine
end

