-- ==== Sys2Proof/Machine/Flags.lean ====
section
/-! DEFINITION. The hardware has no flags (10_state.md R30): a relation is computed from its two
operands and gives exactly 0 or 1 (41_shift_logic_relational.md R171, 44_float.md R284) or decides
a branch (42_control_transfer.md R200). These are all the conditions the spec gives. -/

namespace Sys2Proof.Machine

/-- `bool32(c)` (R8, R171). -/
def bool32 (c : Bool) : Word := if c then 1 else 0

/-- eq (R172, R202). -/
def relEq (a b : Word) : Bool := decide (a = b)

/-- ne (R173, R203). -/
def relNe (a b : Word) : Bool := decide (a ≠ b)

/-- lt, signed (R174, R204). -/
def relLt (a b : Word) : Bool := decide (sval a < sval b)

/-- ltu (R175). -/
def relLtu (a b : Word) : Bool := decide (uval a < uval b)

/-- gt, signed (R176, R205). -/
def relGt (a b : Word) : Bool := decide (sval b < sval a)

/-- gtu (R177). -/
def relGtu (a b : Word) : Bool := decide (uval b < uval a)

/-- le, signed (R178). -/
def relLe (a b : Word) : Bool := decide (sval a ≤ sval b)

/-- leu (R179). -/
def relLeu (a b : Word) : Bool := decide (uval a ≤ uval b)

/-- ge, signed (R180). -/
def relGe (a b : Word) : Bool := decide (sval b ≤ sval a)

/-- geu (R181). -/
def relGeu (a b : Word) : Bool := decide (uval b ≤ uval a)

/-- IEEE-754 ordering of two values (R284): none when either is a NaN; zeros of either sign are
equal; -Inf is below and +Inf above every other value. -/
def compareVal : FVal → FVal → Option Ordering
  | .nan, _ => none
  | _, .nan => none
  | .inf n1, .inf n2 => some (if n1 = n2 then .eq else if n1 then .lt else .gt)
  | .inf n1, .fin _ _ => some (if n1 then .lt else .gt)
  | .fin _ _, .inf n2 => some (if n2 then .gt else .lt)
  | .fin n1 k1, .fin n2 k2 => some (compare (signedUnits n1 k1) (signedUnits n2 k2))

/-- The ordering of two patterns. -/
def compareFloat (a b : Pattern) : Option Ordering := compareVal (toFVal a) (toFVal b)

/-- feq (R285). -/
def relFeq (a b : Pattern) : Bool := compareFloat a b == some .eq

/-- fne: a NaN operand gives true (R286). -/
def relFne (a b : Pattern) : Bool := !(relFeq a b)

/-- flt (R287). -/
def relFlt (a b : Pattern) : Bool := compareFloat a b == some .lt

/-- fgt (R288). -/
def relFgt (a b : Pattern) : Bool := compareFloat a b == some .gt

/-- fle: a NaN operand gives false (R289). -/
def relFle (a b : Pattern) : Bool :=
  compareFloat a b == some .lt || compareFloat a b == some .eq

/-- fge (R290). -/
def relFge (a b : Pattern) : Bool :=
  compareFloat a b == some .gt || compareFloat a b == some .eq

end Sys2Proof.Machine
end

