-- ==== Sys2Proof/Machine/Params.lean ====
section
/-! DEFINITION. The values this model takes for the parameters of 00_scope.md R6: the spec's own
reference values (log 2 to 6). They stand here, and not in Config.lean, so that one can be changed
without touching a type. -/

namespace Sys2Proof.Machine

/-- STACK_STEP: equal to the access width (R246, D14; log 4). -/
def stackStepRef : StackOp → Nat
  | .pushW | .popW => 4
  | .pushH | .popH => 2
  | .pushB | .popB => 1
  | .pushF | .popF => 8
  | .call | .ret => 4

/-- The reference parameters (R6): BRANCH_SCALE 1 (log 2), NARROW_LOAD_EXT zero (log 3), STACK_STEP
the access width (log 4), FTOI_OOR of R272 (log 5), NAN_PAYLOAD the quiet NaN of R271 (log 6). -/
def params : Params where
  branchScale := 1
  narrowLoadExt := .zero
  stackStep := stackStepRef
  ftoiOor := ftoiWraps
  nanPayload := 0x7FF8000000000000

/-- The reference implementation: the map of R96 (log 1) and the reference parameters. `step` and
the host operations without an implementation argument are this machine's. -/
def reference : Implementation where
  map := opcodeMap
  params := params

end Sys2Proof.Machine
end

