-- ==== Sys2Proof/Machine/Control.lean ====
section
/-! DEFINITION. Control transfer: 42_control_transfer.md (R200 to R210). No target is checked for
alignment (R210). A meaning that depends on a parameter of R6 takes the parameters as an argument
(`exec…With`), and stands beside its form with the reference values. -/

namespace Sys2Proof.Machine

/-- `b imm` (R201): always taken. -/
def execBWith (P : Params) (imm16 : Half) (s : State) : StepResult :=
  .next (s.branch P.branchScale true imm16)

/-- `b imm` (R201) with the reference parameters. -/
def execB (imm16 : Half) (s : State) : StepResult :=
  execBWith params imm16 s

/-- `beq ra, rb, imm` (R202): taken when x[ra] = x[rb]. -/
def execBeqWith (P : Params) (ra rb : XReg) (imm16 : Half) (s : State) : StepResult :=
  .next (s.branch P.branchScale (relEq (s.readX ra) (s.readX rb)) imm16)

/-- `beq ra, rb, imm` (R202) with the reference parameters. -/
def execBeq (ra rb : XReg) (imm16 : Half) (s : State) : StepResult :=
  execBeqWith params ra rb imm16 s

/-- `bne ra, rb, imm` (R203): taken when x[ra] is not x[rb]. -/
def execBneWith (P : Params) (ra rb : XReg) (imm16 : Half) (s : State) : StepResult :=
  .next (s.branch P.branchScale (relNe (s.readX ra) (s.readX rb)) imm16)

/-- `bne ra, rb, imm` (R203) with the reference parameters. -/
def execBne (ra rb : XReg) (imm16 : Half) (s : State) : StepResult :=
  execBneWith params ra rb imm16 s

/-- `blt ra, rb, imm` (R204): taken when x[ra] is signed-below x[rb]. -/
def execBltWith (P : Params) (ra rb : XReg) (imm16 : Half) (s : State) : StepResult :=
  .next (s.branch P.branchScale (relLt (s.readX ra) (s.readX rb)) imm16)

/-- `blt ra, rb, imm` (R204) with the reference parameters. -/
def execBlt (ra rb : XReg) (imm16 : Half) (s : State) : StepResult :=
  execBltWith params ra rb imm16 s

/-- `bgt ra, rb, imm` (R205): taken when x[ra] is signed-above x[rb]. -/
def execBgtWith (P : Params) (ra rb : XReg) (imm16 : Half) (s : State) : StepResult :=
  .next (s.branch P.branchScale (relGt (s.readX ra) (s.readX rb)) imm16)

/-- `bgt ra, rb, imm` (R205) with the reference parameters. -/
def execBgt (ra rb : XReg) (imm16 : Half) (s : State) : StepResult :=
  execBgtWith params ra rb imm16 s

/-- `j target` (R206): inside the jump's own 64 MB segment. -/
def execJ (imm24 : BitVec 24) (s : State) : StepResult :=
  .next (s.jump (jumpTarget s.pc imm24))

/-- `jr ra` (R207): any target. -/
def execJr (ra : XReg) (s : State) : StepResult :=
  .next (s.jump (s.readX ra))

/-- `call ra` (R208): push the return address, then jump to x[ra] as it was before SP changed. -/
def execCallWith (P : Params) (ra : XReg) (s : State) : StepResult :=
  .next (((s.store32 (s.pushAddr (P.stackStep .call)) s.nextPc).pushSP
    (P.stackStep .call)).jump (s.readX ra))

/-- `call ra` (R208) with the reference parameters. -/
def execCall (ra : XReg) (s : State) : StepResult :=
  execCallWith params ra s

/-- `ret` (R209): pop a word into pc. -/
def execRetWith (P : Params) (s : State) : StepResult :=
  .next ((s.writeX regSP (s.popSP (P.stackStep .ret))).jump (s.load32 s.popAddr))

/-- `ret` (R209) with the reference parameters. -/
def execRet (s : State) : StepResult :=
  execRetWith params s

end Sys2Proof.Machine
end

