-- ==== Sys2Proof/Machine/FloatUnit.lean ====
section
/-! DEFINITION. The float unit and the conversions: 44_float.md (R273 to R290). None of them
faults. A meaning that depends on a parameter of R6 takes the parameters as an argument
(`exec…With`), and stands beside its form with the reference values. -/

namespace Sys2Proof.Machine

/-- `itof ra, rb` (R273): exact. -/
def execItof (ra : FReg) (rb : XReg) (s : State) : StepResult :=
  setF ra (ofInteger (sval (s.readX rb))) s

/-- `utof ra, rb` (R274): exact. -/
def execUtof (ra : FReg) (rb : XReg) (s : State) : StepResult :=
  setF ra (ofInteger (uval (s.readX rb))) s

/-- `ftoi ra, rb` (R275): rounds toward minus infinity (R272). -/
def execFtoiWith (P : Params) (ra : XReg) (rb : FReg) (s : State) : StepResult :=
  setX ra (ftoiVal P.ftoiOor (toFVal (s.readF rb))) s

/-- `ftoi ra, rb` (R275) with the reference parameters. -/
def execFtoi (ra : XReg) (rb : FReg) (s : State) : StepResult :=
  execFtoiWith params ra rb s

/-- `fadd ra, rb, rc` (R277). -/
def execFaddWith (P : Params) (ra rb rc : FReg) (s : State) : StepResult :=
  setF ra (fadd64 P.nanPayload (s.readF rb) (s.readF rc)) s

/-- `fadd ra, rb, rc` (R277) with the reference parameters. -/
def execFadd (ra rb rc : FReg) (s : State) : StepResult :=
  execFaddWith params ra rb rc s

/-- `fsub ra, rb, rc` (R278). -/
def execFsubWith (P : Params) (ra rb rc : FReg) (s : State) : StepResult :=
  setF ra (fsub64 P.nanPayload (s.readF rb) (s.readF rc)) s

/-- `fsub ra, rb, rc` (R278) with the reference parameters. -/
def execFsub (ra rb rc : FReg) (s : State) : StepResult :=
  execFsubWith params ra rb rc s

/-- `fmul ra, rb, rc` (R279). -/
def execFmulWith (P : Params) (ra rb rc : FReg) (s : State) : StepResult :=
  setF ra (fmul64 P.nanPayload (s.readF rb) (s.readF rc)) s

/-- `fmul ra, rb, rc` (R279) with the reference parameters. -/
def execFmul (ra rb rc : FReg) (s : State) : StepResult :=
  execFmulWith params ra rb rc s

/-- `fdiv ra, rb, rc` (R280). -/
def execFdivWith (P : Params) (ra rb rc : FReg) (s : State) : StepResult :=
  setF ra (fdiv64 P.nanPayload (s.readF rb) (s.readF rc)) s

/-- `fdiv ra, rb, rc` (R280) with the reference parameters. -/
def execFdiv (ra rb rc : FReg) (s : State) : StepResult :=
  execFdivWith params ra rb rc s

/-- `fmod ra, rb, rc` (R281). -/
def execFmodWith (P : Params) (ra rb rc : FReg) (s : State) : StepResult :=
  setF ra (fmod64 P.nanPayload (s.readF rb) (s.readF rc)) s

/-- `fmod ra, rb, rc` (R281) with the reference parameters. -/
def execFmod (ra rb rc : FReg) (s : State) : StepResult :=
  execFmodWith params ra rb rc s

/-- `ffloor ra, rb` (R282). -/
def execFfloorWith (P : Params) (ra rb : FReg) (s : State) : StepResult :=
  setF ra (ffloor64 P.nanPayload (s.readF rb)) s

/-- `ffloor ra, rb` (R282) with the reference parameters. -/
def execFfloor (ra rb : FReg) (s : State) : StepResult :=
  execFfloorWith params ra rb s

/-- `fceil ra, rb` (R283). -/
def execFceilWith (P : Params) (ra rb : FReg) (s : State) : StepResult :=
  setF ra (fceil64 P.nanPayload (s.readF rb)) s

/-- `fceil ra, rb` (R283) with the reference parameters. -/
def execFceil (ra rb : FReg) (s : State) : StepResult :=
  execFceilWith params ra rb s

/-- `feq ra, rb, rc` (R285): 1 or 0 into an integer register. -/
def execFeq (ra : XReg) (rb rc : FReg) (s : State) : StepResult :=
  setX ra (bool32 (relFeq (s.readF rb) (s.readF rc))) s

/-- `fne ra, rb, rc` (R286): 1 or 0 into an integer register. -/
def execFne (ra : XReg) (rb rc : FReg) (s : State) : StepResult :=
  setX ra (bool32 (relFne (s.readF rb) (s.readF rc))) s

/-- `flt ra, rb, rc` (R287): 1 or 0 into an integer register. -/
def execFlt (ra : XReg) (rb rc : FReg) (s : State) : StepResult :=
  setX ra (bool32 (relFlt (s.readF rb) (s.readF rc))) s

/-- `fgt ra, rb, rc` (R288): 1 or 0 into an integer register. -/
def execFgt (ra : XReg) (rb rc : FReg) (s : State) : StepResult :=
  setX ra (bool32 (relFgt (s.readF rb) (s.readF rc))) s

/-- `fle ra, rb, rc` (R289): 1 or 0 into an integer register. -/
def execFle (ra : XReg) (rb rc : FReg) (s : State) : StepResult :=
  setX ra (bool32 (relFle (s.readF rb) (s.readF rc))) s

/-- `fge ra, rb, rc` (R290): 1 or 0 into an integer register. -/
def execFge (ra : XReg) (rb rc : FReg) (s : State) : StepResult :=
  setX ra (bool32 (relFge (s.readF rb) (s.readF rc))) s

end Sys2Proof.Machine
end

