-- ==== Sys2Proof/Machine/Alu.lean ====
section
/-! DEFINITION. The integer ALU (40_int_arith.md R120 to R125, 41_shift_logic_relational.md R160):
operands are read as integers, the result is computed exactly and narrowed modulo 2^32. There are
no flags (R30), so a word is the whole result. -/

namespace Sys2Proof.Machine

/-- signed addition (R120, R126). -/
def addS (a b : Word) : Word := wrap32 (sval a + sval b)

/-- unsigned addition (R120, R129). -/
def addU (a b : Word) : Word := wrap32 (uval a + uval b)

/-- signed subtraction (R132). -/
def subS (a b : Word) : Word := wrap32 (sval a - sval b)

/-- unsigned subtraction (R135). -/
def subU (a b : Word) : Word := wrap32 (uval a - uval b)

/-- signed multiplication, low 32 bits (R138). -/
def mulS (a b : Word) : Word := wrap32 (sval a * sval b)

/-- unsigned multiplication, low 32 bits (R141). -/
def mulU (a b : Word) : Word := wrap32 (uval a * uval b)

/-- signed quotient, rounded toward zero, for a divisor that is not 0 (R122, R144). -/
def divS (a b : Word) : Word := wrap32 (Int.tdiv (sval a) (sval b))

/-- unsigned quotient (R123, R147). -/
def divU (a b : Word) : Word := BitVec.ofNat 32 (a.toNat / b.toNat)

/-- signed remainder, the sign of the dividend (R122, R150). -/
def modS (a b : Word) : Word :=
  wrap32 (sval a - Int.tdiv (sval a) (sval b) * sval b)

/-- unsigned remainder (R123, R153). -/
def modU (a b : Word) : Word := BitVec.ofNat 32 (a.toNat % b.toNat)

/-- `sll(v, n)` (R160). -/
def sllOp (v : Word) (n : Nat) : Word := BitVec.ofNat 32 (v.toNat * 2 ^ n)

/-- `srl(v, n)` (R160). -/
def srlOp (v : Word) (n : Nat) : Word := BitVec.ofNat 32 (v.toNat / 2 ^ n)

/-- `sra(v, n)`: rounds toward minus infinity (R160, R163). -/
def sraOp (v : Word) (n : Nat) : Word := wrap32 (Int.fdiv (sval v) (2 ^ n))

end Sys2Proof.Machine
end

