-- ==== Sys2Proof/Machine/IntArith.lean ====
section
/-! DEFINITION. Integer arithmetic: the 30 instructions of 40_int_arith.md (R126 to R155). The
second operand of each form is R125's: the register, the sign-extended or the zero-extended
immediate. -/

namespace Sys2Proof.Machine

/-- `add ra, rb, rc` (R126): the signed sum. -/
def execAdd (ra rb rc : XReg) (s : State) : StepResult :=
  setX ra (addS (s.readX rb) (s.readX rc)) s

/-- `add_si ra, rb, imm` (R127): the signed sum, sign-extended immediate. -/
def execAddSi (ra rb : XReg) (imm16 : Half) (s : State) : StepResult :=
  setX ra (addS (s.readX rb) (sext32 imm16)) s

/-- `add_zi ra, rb, imm` (R128): the signed sum, zero-extended immediate. -/
def execAddZi (ra rb : XReg) (imm16 : Half) (s : State) : StepResult :=
  setX ra (addS (s.readX rb) (zext32 imm16)) s

/-- `addu ra, rb, rc` (R129): the unsigned sum. -/
def execAddu (ra rb rc : XReg) (s : State) : StepResult :=
  setX ra (addU (s.readX rb) (s.readX rc)) s

/-- `addu_si ra, rb, imm` (R130): the unsigned sum, sign-extended immediate. -/
def execAdduSi (ra rb : XReg) (imm16 : Half) (s : State) : StepResult :=
  setX ra (addU (s.readX rb) (sext32 imm16)) s

/-- `addu_zi ra, rb, imm` (R131): the unsigned sum, zero-extended immediate. -/
def execAdduZi (ra rb : XReg) (imm16 : Half) (s : State) : StepResult :=
  setX ra (addU (s.readX rb) (zext32 imm16)) s

/-- `sub ra, rb, rc` (R132): the signed difference. -/
def execSub (ra rb rc : XReg) (s : State) : StepResult :=
  setX ra (subS (s.readX rb) (s.readX rc)) s

/-- `sub_si ra, rb, imm` (R133): the signed difference, sign-extended immediate. -/
def execSubSi (ra rb : XReg) (imm16 : Half) (s : State) : StepResult :=
  setX ra (subS (s.readX rb) (sext32 imm16)) s

/-- `sub_zi ra, rb, imm` (R134): the signed difference, zero-extended immediate. -/
def execSubZi (ra rb : XReg) (imm16 : Half) (s : State) : StepResult :=
  setX ra (subS (s.readX rb) (zext32 imm16)) s

/-- `subu ra, rb, rc` (R135): the unsigned difference. -/
def execSubu (ra rb rc : XReg) (s : State) : StepResult :=
  setX ra (subU (s.readX rb) (s.readX rc)) s

/-- `subu_si ra, rb, imm` (R136): the unsigned difference, sign-extended immediate. -/
def execSubuSi (ra rb : XReg) (imm16 : Half) (s : State) : StepResult :=
  setX ra (subU (s.readX rb) (sext32 imm16)) s

/-- `subu_zi ra, rb, imm` (R137): the unsigned difference, zero-extended immediate. -/
def execSubuZi (ra rb : XReg) (imm16 : Half) (s : State) : StepResult :=
  setX ra (subU (s.readX rb) (zext32 imm16)) s

/-- `mul ra, rb, rc` (R138): the signed low word of the product. -/
def execMul (ra rb rc : XReg) (s : State) : StepResult :=
  setX ra (mulS (s.readX rb) (s.readX rc)) s

/-- `mul_si ra, rb, imm` (R139): the signed low word of the product, sign-extended immediate. -/
def execMulSi (ra rb : XReg) (imm16 : Half) (s : State) : StepResult :=
  setX ra (mulS (s.readX rb) (sext32 imm16)) s

/-- `mul_zi ra, rb, imm` (R140): the signed low word of the product, zero-extended immediate. -/
def execMulZi (ra rb : XReg) (imm16 : Half) (s : State) : StepResult :=
  setX ra (mulS (s.readX rb) (zext32 imm16)) s

/-- `mulu ra, rb, rc` (R141): the unsigned low word of the product. -/
def execMulu (ra rb rc : XReg) (s : State) : StepResult :=
  setX ra (mulU (s.readX rb) (s.readX rc)) s

/-- `mulu_si ra, rb, imm` (R142): the unsigned low word of the product, sign-extended immediate. -/
def execMuluSi (ra rb : XReg) (imm16 : Half) (s : State) : StepResult :=
  setX ra (mulU (s.readX rb) (sext32 imm16)) s

/-- `mulu_zi ra, rb, imm` (R143): the unsigned low word of the product, zero-extended immediate. -/
def execMuluZi (ra rb : XReg) (imm16 : Half) (s : State) : StepResult :=
  setX ra (mulU (s.readX rb) (zext32 imm16)) s

/-- `div ra, rb, rc` (R144): the signed quotient; a zero divisor
raises ArithmeticFault (R124). -/
def execDiv (ra rb rc : XReg) (s : State) : StepResult :=
  setXDivided ra divS (s.readX rb) (s.readX rc) s

/-- `div_si ra, rb, imm` (R145): the signed quotient, sign-extended immediate; a zero divisor
raises ArithmeticFault (R124). -/
def execDivSi (ra rb : XReg) (imm16 : Half) (s : State) : StepResult :=
  setXDivided ra divS (s.readX rb) (sext32 imm16) s

/-- `div_zi ra, rb, imm` (R146): the signed quotient, zero-extended immediate; a zero divisor
raises ArithmeticFault (R124). -/
def execDivZi (ra rb : XReg) (imm16 : Half) (s : State) : StepResult :=
  setXDivided ra divS (s.readX rb) (zext32 imm16) s

/-- `divu ra, rb, rc` (R147): the unsigned quotient; a zero divisor
raises ArithmeticFault (R124). -/
def execDivu (ra rb rc : XReg) (s : State) : StepResult :=
  setXDivided ra divU (s.readX rb) (s.readX rc) s

/-- `divu_si ra, rb, imm` (R148): the unsigned quotient, sign-extended immediate; a zero divisor
raises ArithmeticFault (R124). -/
def execDivuSi (ra rb : XReg) (imm16 : Half) (s : State) : StepResult :=
  setXDivided ra divU (s.readX rb) (sext32 imm16) s

/-- `divu_zi ra, rb, imm` (R149): the unsigned quotient, zero-extended immediate; a zero divisor
raises ArithmeticFault (R124). -/
def execDivuZi (ra rb : XReg) (imm16 : Half) (s : State) : StepResult :=
  setXDivided ra divU (s.readX rb) (zext32 imm16) s

/-- `mod ra, rb, rc` (R150): the signed remainder; a zero divisor
raises ArithmeticFault (R124). -/
def execMod (ra rb rc : XReg) (s : State) : StepResult :=
  setXDivided ra modS (s.readX rb) (s.readX rc) s

/-- `mod_si ra, rb, imm` (R151): the signed remainder, sign-extended immediate; a zero divisor
raises ArithmeticFault (R124). -/
def execModSi (ra rb : XReg) (imm16 : Half) (s : State) : StepResult :=
  setXDivided ra modS (s.readX rb) (sext32 imm16) s

/-- `mod_zi ra, rb, imm` (R152): the signed remainder, zero-extended immediate; a zero divisor
raises ArithmeticFault (R124). -/
def execModZi (ra rb : XReg) (imm16 : Half) (s : State) : StepResult :=
  setXDivided ra modS (s.readX rb) (zext32 imm16) s

/-- `modu ra, rb, rc` (R153): the unsigned remainder; a zero divisor
raises ArithmeticFault (R124). -/
def execModu (ra rb rc : XReg) (s : State) : StepResult :=
  setXDivided ra modU (s.readX rb) (s.readX rc) s

/-- `modu_si ra, rb, imm` (R154): the unsigned remainder, sign-extended immediate; a zero divisor
raises ArithmeticFault (R124). -/
def execModuSi (ra rb : XReg) (imm16 : Half) (s : State) : StepResult :=
  setXDivided ra modU (s.readX rb) (sext32 imm16) s

/-- `modu_zi ra, rb, imm` (R155): the unsigned remainder, zero-extended immediate; a zero divisor
raises ArithmeticFault (R124). -/
def execModuZi (ra rb : XReg) (imm16 : Half) (s : State) : StepResult :=
  setXDivided ra modU (s.readX rb) (zext32 imm16) s

end Sys2Proof.Machine
end

