-- ==== Sys2Proof/Machine/LoadStore.lean ====
section
/-! DEFINITION. Loads, stores, load-immediates and the stack: 43_load_store.md (R230 to R257). A
meaning that depends on a parameter of R6 takes the parameters as an argument (`exec…With`), and
stands beside its form with the reference values. -/

namespace Sys2Proof.Machine

/-- `lw ra, imm(rb)` (R232). -/
def execLw (ra rb : XReg) (imm16 : Half) (s : State) : StepResult :=
  setX ra (s.load32 (effAddr (s.readX rb) imm16)) s

/-- `lh ra, imm(rb)` (R233): widened by NARROW_LOAD_EXT (R231). -/
def execLhWith (P : Params) (ra rb : XReg) (imm16 : Half) (s : State) : StepResult :=
  setX ra (ext16 P.narrowLoadExt (s.load16 (effAddr (s.readX rb) imm16))) s

/-- `lh ra, imm(rb)` (R233) with the reference parameters. -/
def execLh (ra rb : XReg) (imm16 : Half) (s : State) : StepResult :=
  execLhWith params ra rb imm16 s

/-- `lb ra, imm(rb)` (R234): widened by NARROW_LOAD_EXT (R231). -/
def execLbWith (P : Params) (ra rb : XReg) (imm16 : Half) (s : State) : StepResult :=
  setX ra (ext8 P.narrowLoadExt (s.load8 (effAddr (s.readX rb) imm16))) s

/-- `lb ra, imm(rb)` (R234) with the reference parameters. -/
def execLb (ra rb : XReg) (imm16 : Half) (s : State) : StepResult :=
  execLbWith params ra rb imm16 s

/-- `lf ra, imm(rb)` (R235). -/
def execLf (ra : FReg) (rb : XReg) (imm16 : Half) (s : State) : StepResult :=
  setF ra (s.load64 (effAddr (s.readX rb) imm16)) s

/-- `sw ra, imm(rb)` (R236). -/
def execSw (ra rb : XReg) (imm16 : Half) (s : State) : StepResult :=
  .next (s.store32 (effAddr (s.readX rb) imm16) (s.readX ra)).advance

/-- `sh ra, imm(rb)` (R237). -/
def execSh (ra rb : XReg) (imm16 : Half) (s : State) : StepResult :=
  .next (s.store16 (effAddr (s.readX rb) imm16) (lowHalf (s.readX ra))).advance

/-- `sb ra, imm(rb)` (R238). -/
def execSb (ra rb : XReg) (imm16 : Half) (s : State) : StepResult :=
  .next (s.store8 (effAddr (s.readX rb) imm16) (lowByte (s.readX ra))).advance

/-- `sf ra, imm(rb)` (R239). -/
def execSf (ra : FReg) (rb : XReg) (imm16 : Half) (s : State) : StepResult :=
  .next (s.store64 (effAddr (s.readX rb) imm16) (s.readF ra)).advance

/-- `li ra, imm` (R240). -/
def execLi (ra : XReg) (imm16 : Half) (s : State) : StepResult :=
  setX ra (sext32 imm16) s

/-- `liu ra, imm` (R241). -/
def execLiu (ra : XReg) (imm16 : Half) (s : State) : StepResult :=
  setX ra (zext32 imm16) s

/-- `lui ra, imm` (R242). -/
def execLui (ra : XReg) (imm16 : Half) (s : State) : StepResult :=
  setX ra (upperImm imm16) s

/-- `push_w ra` (R250): the data is read before SP changes. -/
def execPushWWith (P : Params) (ra : XReg) (s : State) : StepResult :=
  .next ((s.store32 (s.pushAddr (P.stackStep .pushW)) (s.readX ra)).pushSP
    (P.stackStep .pushW)).advance

/-- `push_w ra` (R250) with the reference parameters. -/
def execPushW (ra : XReg) (s : State) : StepResult :=
  execPushWWith params ra s

/-- `push_h ra` (R251): the data is read before SP changes. -/
def execPushHWith (P : Params) (ra : XReg) (s : State) : StepResult :=
  .next ((s.store16 (s.pushAddr (P.stackStep .pushH)) (lowHalf (s.readX ra))).pushSP
    (P.stackStep .pushH)).advance

/-- `push_h ra` (R251) with the reference parameters. -/
def execPushH (ra : XReg) (s : State) : StepResult :=
  execPushHWith params ra s

/-- `push_b ra` (R252): the data is read before SP changes. -/
def execPushBWith (P : Params) (ra : XReg) (s : State) : StepResult :=
  .next ((s.store8 (s.pushAddr (P.stackStep .pushB)) (lowByte (s.readX ra))).pushSP
    (P.stackStep .pushB)).advance

/-- `push_b ra` (R252) with the reference parameters. -/
def execPushB (ra : XReg) (s : State) : StepResult :=
  execPushBWith params ra s

/-- `push_f ra` (R253): the data is read before SP changes. -/
def execPushFWith (P : Params) (ra : FReg) (s : State) : StepResult :=
  .next ((s.store64 (s.pushAddr (P.stackStep .pushF)) (s.readF ra)).pushSP
    (P.stackStep .pushF)).advance

/-- `push_f ra` (R253) with the reference parameters. -/
def execPushF (ra : FReg) (s : State) : StepResult :=
  execPushFWith params ra s

/-- `pop_w ra` (R254): SP first, the destination last. -/
def execPopWWith (P : Params) (ra : XReg) (s : State) : StepResult :=
  .next ((s.writeX regSP (s.popSP (P.stackStep .popW))).writeX ra
    (s.load32 s.popAddr)).advance

/-- `pop_w ra` (R254) with the reference parameters. -/
def execPopW (ra : XReg) (s : State) : StepResult :=
  execPopWWith params ra s

/-- `pop_h ra` (R255): SP first, the destination last. -/
def execPopHWith (P : Params) (ra : XReg) (s : State) : StepResult :=
  .next ((s.writeX regSP (s.popSP (P.stackStep .popH))).writeX ra
    (ext16 P.narrowLoadExt (s.load16 s.popAddr))).advance

/-- `pop_h ra` (R255) with the reference parameters. -/
def execPopH (ra : XReg) (s : State) : StepResult :=
  execPopHWith params ra s

/-- `pop_b ra` (R256): SP first, the destination last. -/
def execPopBWith (P : Params) (ra : XReg) (s : State) : StepResult :=
  .next ((s.writeX regSP (s.popSP (P.stackStep .popB))).writeX ra
    (ext8 P.narrowLoadExt (s.load8 s.popAddr))).advance

/-- `pop_b ra` (R256) with the reference parameters. -/
def execPopB (ra : XReg) (s : State) : StepResult :=
  execPopBWith params ra s

/-- `pop_f ra` (R257): SP first, the destination last. -/
def execPopFWith (P : Params) (ra : FReg) (s : State) : StepResult :=
  .next ((s.writeX regSP (s.popSP (P.stackStep .popF))).writeF ra
    (s.load64 s.popAddr)).advance

/-- `pop_f ra` (R257) with the reference parameters. -/
def execPopF (ra : FReg) (s : State) : StepResult :=
  execPopFWith params ra s

end Sys2Proof.Machine
end

