-- ==== Sys2Proof/Machine/ShiftLogic.lean ====
section
/-! DEFINITION. Shifts, bitwise and relational operations: 41_shift_logic_relational.md (R161 to
R181). -/

namespace Sys2Proof.Machine

/-- `sll ra, rb, rc` (R161): shift by the low 5 bits of x[rc]. -/
def execSll (ra rb rc : XReg) (s : State) : StepResult :=
  setX ra (sllOp (s.readX rb) (shamt (s.readX rc))) s

/-- `srl ra, rb, rc` (R162): shift by the low 5 bits of x[rc]. -/
def execSrl (ra rb rc : XReg) (s : State) : StepResult :=
  setX ra (srlOp (s.readX rb) (shamt (s.readX rc))) s

/-- `sra ra, rb, rc` (R163): shift by the low 5 bits of x[rc]. -/
def execSra (ra rb rc : XReg) (s : State) : StepResult :=
  setX ra (sraOp (s.readX rb) (shamt (s.readX rc))) s

/-- `slli ra, rb, imm` (R164): shift by the low 5 bits of the immediate. -/
def execSlli (ra rb : XReg) (imm16 : Half) (s : State) : StepResult :=
  setX ra (sllOp (s.readX rb) (shamt (zext32 imm16))) s

/-- `srli ra, rb, imm` (R165): shift by the low 5 bits of the immediate. -/
def execSrli (ra rb : XReg) (imm16 : Half) (s : State) : StepResult :=
  setX ra (srlOp (s.readX rb) (shamt (zext32 imm16))) s

/-- `srai ra, rb, imm` (R166): shift by the low 5 bits of the immediate. -/
def execSrai (ra rb : XReg) (imm16 : Half) (s : State) : StepResult :=
  setX ra (sraOp (s.readX rb) (shamt (zext32 imm16))) s

/-- `and ra, rb, rc` (R167). -/
def execAnd (ra rb rc : XReg) (s : State) : StepResult :=
  setX ra (s.readX rb &&& s.readX rc) s

/-- `or ra, rb, rc` (R168). -/
def execOr (ra rb rc : XReg) (s : State) : StepResult :=
  setX ra (s.readX rb ||| s.readX rc) s

/-- `xor ra, rb, rc` (R169). -/
def execXor (ra rb rc : XReg) (s : State) : StepResult :=
  setX ra (s.readX rb ^^^ s.readX rc) s

/-- `not ra, rb` (R170): the bitwise complement. -/
def execNot (ra rb : XReg) (s : State) : StepResult :=
  setX ra (~~~(s.readX rb)) s

/-- `eq ra, rb, rc` (R172): 1 or 0. -/
def execEq (ra rb rc : XReg) (s : State) : StepResult :=
  setX ra (bool32 (relEq (s.readX rb) (s.readX rc))) s

/-- `ne ra, rb, rc` (R173): 1 or 0. -/
def execNe (ra rb rc : XReg) (s : State) : StepResult :=
  setX ra (bool32 (relNe (s.readX rb) (s.readX rc))) s

/-- `lt ra, rb, rc` (R174): 1 or 0. -/
def execLt (ra rb rc : XReg) (s : State) : StepResult :=
  setX ra (bool32 (relLt (s.readX rb) (s.readX rc))) s

/-- `ltu ra, rb, rc` (R175): 1 or 0. -/
def execLtu (ra rb rc : XReg) (s : State) : StepResult :=
  setX ra (bool32 (relLtu (s.readX rb) (s.readX rc))) s

/-- `gt ra, rb, rc` (R176): 1 or 0. -/
def execGt (ra rb rc : XReg) (s : State) : StepResult :=
  setX ra (bool32 (relGt (s.readX rb) (s.readX rc))) s

/-- `gtu ra, rb, rc` (R177): 1 or 0. -/
def execGtu (ra rb rc : XReg) (s : State) : StepResult :=
  setX ra (bool32 (relGtu (s.readX rb) (s.readX rc))) s

/-- `le ra, rb, rc` (R178): 1 or 0. -/
def execLe (ra rb rc : XReg) (s : State) : StepResult :=
  setX ra (bool32 (relLe (s.readX rb) (s.readX rc))) s

/-- `leu ra, rb, rc` (R179): 1 or 0. -/
def execLeu (ra rb rc : XReg) (s : State) : StepResult :=
  setX ra (bool32 (relLeu (s.readX rb) (s.readX rc))) s

/-- `ge ra, rb, rc` (R180): 1 or 0. -/
def execGe (ra rb rc : XReg) (s : State) : StepResult :=
  setX ra (bool32 (relGe (s.readX rb) (s.readX rc))) s

/-- `geu ra, rb, rc` (R181): 1 or 0. -/
def execGeu (ra rb rc : XReg) (s : State) : StepResult :=
  setX ra (bool32 (relGeu (s.readX rb) (s.readX rc))) s

end Sys2Proof.Machine
end

