-- ==== Sys2Proof/Machine/System.lean ====
section
/-! DEFINITION. Character output, no-op and halt: 45_system.md (R310 to R312). -/

namespace Sys2Proof.Machine

/-- `nop` (R311): only advances the pc. -/
def execNop (s : State) : StepResult :=
  .next s.advance

/-- `halt` (R312): advances the pc, then halts. -/
def execHalt (s : State) : StepResult :=
  .next s.advance.halt

/-- `putc ra` (R310): the low byte of x[ra] to the output. -/
def execPutc (ra : XReg) (s : State) : StepResult :=
  .next (s.emit (lowByte (s.readX ra))).advance

end Sys2Proof.Machine
end

