-- ==== Sys2Proof/Machine/Dispatch.lean ====
section
/-! DEFINITION. The dispatch from an instruction to its meaning (30_encoding.md R94, R102): one arm
for each constructor of `Instr`. -/

namespace Sys2Proof.Machine

def exec (i : Instr) (s : State) : Host.Outcome State Fault Refusal :=
  match i with
  | .nop => Sys2Proof.Machine.execNop s
  | .halt => Sys2Proof.Machine.execHalt s
  | .putc ra => Sys2Proof.Machine.execPutc ra s
  | .add ra rb rc => Sys2Proof.Machine.execAdd ra rb rc s
  | .addSi ra rb imm16 => Sys2Proof.Machine.execAddSi ra rb imm16 s
  | .addZi ra rb imm16 => Sys2Proof.Machine.execAddZi ra rb imm16 s
  | .addu ra rb rc => Sys2Proof.Machine.execAddu ra rb rc s
  | .adduSi ra rb imm16 => Sys2Proof.Machine.execAdduSi ra rb imm16 s
  | .adduZi ra rb imm16 => Sys2Proof.Machine.execAdduZi ra rb imm16 s
  | .sub ra rb rc => Sys2Proof.Machine.execSub ra rb rc s
  | .subSi ra rb imm16 => Sys2Proof.Machine.execSubSi ra rb imm16 s
  | .subZi ra rb imm16 => Sys2Proof.Machine.execSubZi ra rb imm16 s
  | .subu ra rb rc => Sys2Proof.Machine.execSubu ra rb rc s
  | .subuSi ra rb imm16 => Sys2Proof.Machine.execSubuSi ra rb imm16 s
  | .subuZi ra rb imm16 => Sys2Proof.Machine.execSubuZi ra rb imm16 s
  | .mul ra rb rc => Sys2Proof.Machine.execMul ra rb rc s
  | .mulSi ra rb imm16 => Sys2Proof.Machine.execMulSi ra rb imm16 s
  | .mulZi ra rb imm16 => Sys2Proof.Machine.execMulZi ra rb imm16 s
  | .mulu ra rb rc => Sys2Proof.Machine.execMulu ra rb rc s
  | .muluSi ra rb imm16 => Sys2Proof.Machine.execMuluSi ra rb imm16 s
  | .muluZi ra rb imm16 => Sys2Proof.Machine.execMuluZi ra rb imm16 s
  | .div ra rb rc => Sys2Proof.Machine.execDiv ra rb rc s
  | .divSi ra rb imm16 => Sys2Proof.Machine.execDivSi ra rb imm16 s
  | .divZi ra rb imm16 => Sys2Proof.Machine.execDivZi ra rb imm16 s
  | .divu ra rb rc => Sys2Proof.Machine.execDivu ra rb rc s
  | .divuSi ra rb imm16 => Sys2Proof.Machine.execDivuSi ra rb imm16 s
  | .divuZi ra rb imm16 => Sys2Proof.Machine.execDivuZi ra rb imm16 s
  | .mod ra rb rc => Sys2Proof.Machine.execMod ra rb rc s
  | .modSi ra rb imm16 => Sys2Proof.Machine.execModSi ra rb imm16 s
  | .modZi ra rb imm16 => Sys2Proof.Machine.execModZi ra rb imm16 s
  | .modu ra rb rc => Sys2Proof.Machine.execModu ra rb rc s
  | .moduSi ra rb imm16 => Sys2Proof.Machine.execModuSi ra rb imm16 s
  | .moduZi ra rb imm16 => Sys2Proof.Machine.execModuZi ra rb imm16 s
  | .sll ra rb rc => Sys2Proof.Machine.execSll ra rb rc s
  | .srl ra rb rc => Sys2Proof.Machine.execSrl ra rb rc s
  | .sra ra rb rc => Sys2Proof.Machine.execSra ra rb rc s
  | .slli ra rb imm16 => Sys2Proof.Machine.execSlli ra rb imm16 s
  | .srli ra rb imm16 => Sys2Proof.Machine.execSrli ra rb imm16 s
  | .srai ra rb imm16 => Sys2Proof.Machine.execSrai ra rb imm16 s
  | .and ra rb rc => Sys2Proof.Machine.execAnd ra rb rc s
  | .or ra rb rc => Sys2Proof.Machine.execOr ra rb rc s
  | .xor ra rb rc => Sys2Proof.Machine.execXor ra rb rc s
  | .not ra rb => Sys2Proof.Machine.execNot ra rb s
  | .eq ra rb rc => Sys2Proof.Machine.execEq ra rb rc s
  | .ne ra rb rc => Sys2Proof.Machine.execNe ra rb rc s
  | .lt ra rb rc => Sys2Proof.Machine.execLt ra rb rc s
  | .ltu ra rb rc => Sys2Proof.Machine.execLtu ra rb rc s
  | .gt ra rb rc => Sys2Proof.Machine.execGt ra rb rc s
  | .gtu ra rb rc => Sys2Proof.Machine.execGtu ra rb rc s
  | .le ra rb rc => Sys2Proof.Machine.execLe ra rb rc s
  | .leu ra rb rc => Sys2Proof.Machine.execLeu ra rb rc s
  | .ge ra rb rc => Sys2Proof.Machine.execGe ra rb rc s
  | .geu ra rb rc => Sys2Proof.Machine.execGeu ra rb rc s
  | .b imm16 => Sys2Proof.Machine.execB imm16 s
  | .beq ra rb imm16 => Sys2Proof.Machine.execBeq ra rb imm16 s
  | .bne ra rb imm16 => Sys2Proof.Machine.execBne ra rb imm16 s
  | .blt ra rb imm16 => Sys2Proof.Machine.execBlt ra rb imm16 s
  | .bgt ra rb imm16 => Sys2Proof.Machine.execBgt ra rb imm16 s
  | .j imm24 => Sys2Proof.Machine.execJ imm24 s
  | .jr ra => Sys2Proof.Machine.execJr ra s
  | .call ra => Sys2Proof.Machine.execCall ra s
  | .ret => Sys2Proof.Machine.execRet s
  | .lw ra rb imm16 => Sys2Proof.Machine.execLw ra rb imm16 s
  | .lh ra rb imm16 => Sys2Proof.Machine.execLh ra rb imm16 s
  | .lb ra rb imm16 => Sys2Proof.Machine.execLb ra rb imm16 s
  | .lf ra rb imm16 => Sys2Proof.Machine.execLf ra rb imm16 s
  | .sw ra rb imm16 => Sys2Proof.Machine.execSw ra rb imm16 s
  | .sh ra rb imm16 => Sys2Proof.Machine.execSh ra rb imm16 s
  | .sb ra rb imm16 => Sys2Proof.Machine.execSb ra rb imm16 s
  | .sf ra rb imm16 => Sys2Proof.Machine.execSf ra rb imm16 s
  | .li ra imm16 => Sys2Proof.Machine.execLi ra imm16 s
  | .liu ra imm16 => Sys2Proof.Machine.execLiu ra imm16 s
  | .lui ra imm16 => Sys2Proof.Machine.execLui ra imm16 s
  | .pushW ra => Sys2Proof.Machine.execPushW ra s
  | .pushH ra => Sys2Proof.Machine.execPushH ra s
  | .pushB ra => Sys2Proof.Machine.execPushB ra s
  | .pushF ra => Sys2Proof.Machine.execPushF ra s
  | .popW ra => Sys2Proof.Machine.execPopW ra s
  | .popH ra => Sys2Proof.Machine.execPopH ra s
  | .popB ra => Sys2Proof.Machine.execPopB ra s
  | .popF ra => Sys2Proof.Machine.execPopF ra s
  | .itof ra rb => Sys2Proof.Machine.execItof ra rb s
  | .utof ra rb => Sys2Proof.Machine.execUtof ra rb s
  | .ftoi ra rb => Sys2Proof.Machine.execFtoi ra rb s
  | .fadd ra rb rc => Sys2Proof.Machine.execFadd ra rb rc s
  | .fsub ra rb rc => Sys2Proof.Machine.execFsub ra rb rc s
  | .fmul ra rb rc => Sys2Proof.Machine.execFmul ra rb rc s
  | .fdiv ra rb rc => Sys2Proof.Machine.execFdiv ra rb rc s
  | .fmod ra rb rc => Sys2Proof.Machine.execFmod ra rb rc s
  | .ffloor ra rb => Sys2Proof.Machine.execFfloor ra rb s
  | .fceil ra rb => Sys2Proof.Machine.execFceil ra rb s
  | .feq ra rb rc => Sys2Proof.Machine.execFeq ra rb rc s
  | .fne ra rb rc => Sys2Proof.Machine.execFne ra rb rc s
  | .flt ra rb rc => Sys2Proof.Machine.execFlt ra rb rc s
  | .fgt ra rb rc => Sys2Proof.Machine.execFgt ra rb rc s
  | .fle ra rb rc => Sys2Proof.Machine.execFle ra rb rc s
  | .fge ra rb rc => Sys2Proof.Machine.execFge ra rb rc s

end Sys2Proof.Machine
end

