-- ==== Sys2Proof/Machine/Step.lean ====
section
/-! DEFINITION. The step of the machine (30_encoding.md R100 to R104, 60_exceptions.md R343), under
the reference opcode map. -/

namespace Sys2Proof.Machine

/-- One step of the reference machine (R100 to R104). -/
def step (s : State) : Host.Outcome State Fault Refusal := stepOf opcodeMap exec s

/-- The state with this word (the bits above `nbits` zero) in memory at pc, where the next step
fetches it, and running, which a fetch needs (R100; log 13). -/
def State.withFetchWord (s : State) (nbits w : Nat) : State :=
  { s.store32 s.pc (tableWord nbits w) with run := .running }

end Sys2Proof.Machine
end

