-- ==== Sys2Proof/Machine/Asm.lean ====
section
/-! DEFINITION. The assembler notation of 30_encoding.md R110 to R113 as data: a line is a mnemonic
and its operands, and each immediate operand is a number that R112 places in its field or refuses.
The notation is the spec's own and no part of the hardware (00_scope.md R5(e), D2; log 17); there
are no pseudo-instructions (R113). -/

namespace Sys2Proof.Machine

/-- An operand of a line (R110, R111). -/
inductive AsmOperand where
  | x (r : XReg)
  | f (r : FReg)
  | imm (n : Int)
  | mem (offset : Int) (base : XReg)
  deriving DecidableEq, Repr

/-- A line: one machine instruction (R110, R113). -/
structure AsmLine where
  mnemonic : Mnemonic
  operands : List AsmOperand
  deriving DecidableEq, Repr

/-- A sign-extended immediate: -32768 to 32767 (R112). -/
def immSigned (n : Int) : Option Half :=
  if -32768 ≤ n ∧ n ≤ 32767 then some (BitVec.ofInt 16 n) else none

/-- A zero-extended or upper immediate: 0 to 65535 (R112). -/
def immUnsigned (n : Int) : Option Half :=
  if 0 ≤ n ∧ n ≤ 65535 then some (BitVec.ofInt 16 n) else none

/-- A shift amount: 0 to 31 (R112). -/
def immShift (n : Int) : Option Half :=
  if 0 ≤ n ∧ n ≤ 31 then some (BitVec.ofInt 16 n) else none

/-- A branch displacement in bytes, a multiple of the scale (R112). -/
def immBranch (scale d : Int) : Option Half :=
  if d % scale = 0 then immSigned (d / scale) else none

/-- A jump target: a word-aligned address in the jump's own segment (R112, R90). -/
def immJump (pc : Word) (t : Int) : Option (BitVec 24) :=
  if 0 ≤ t ∧ t < 2 ^ 32 ∧ t % 4 = 0 ∧ (wrap32 t).extractLsb' 26 6 = pc.extractLsb' 26 6 then
    some ((wrap32 t).extractLsb' 2 24)
  else none

/-- The instruction a line stands for, at address `pc`; none when the operands are not of the
mnemonic's form or an immediate is out of its range (R110 to R112). -/
def assemble (scale : Int) (pc : Word) (line : AsmLine) : Option Instr :=
  match line.mnemonic, line.operands with
  | .nop, [] => some .nop
  | .halt, [] => some .halt
  | .putc, [.x ra] => some (.putc ra)
  | .add, [.x ra, .x rb, .x rc] => some (.add ra rb rc)
  | .addSi, [.x ra, .x rb, .imm n] => (immSigned n).map (.addSi ra rb)
  | .addZi, [.x ra, .x rb, .imm n] => (immUnsigned n).map (.addZi ra rb)
  | .addu, [.x ra, .x rb, .x rc] => some (.addu ra rb rc)
  | .adduSi, [.x ra, .x rb, .imm n] => (immSigned n).map (.adduSi ra rb)
  | .adduZi, [.x ra, .x rb, .imm n] => (immUnsigned n).map (.adduZi ra rb)
  | .sub, [.x ra, .x rb, .x rc] => some (.sub ra rb rc)
  | .subSi, [.x ra, .x rb, .imm n] => (immSigned n).map (.subSi ra rb)
  | .subZi, [.x ra, .x rb, .imm n] => (immUnsigned n).map (.subZi ra rb)
  | .subu, [.x ra, .x rb, .x rc] => some (.subu ra rb rc)
  | .subuSi, [.x ra, .x rb, .imm n] => (immSigned n).map (.subuSi ra rb)
  | .subuZi, [.x ra, .x rb, .imm n] => (immUnsigned n).map (.subuZi ra rb)
  | .mul, [.x ra, .x rb, .x rc] => some (.mul ra rb rc)
  | .mulSi, [.x ra, .x rb, .imm n] => (immSigned n).map (.mulSi ra rb)
  | .mulZi, [.x ra, .x rb, .imm n] => (immUnsigned n).map (.mulZi ra rb)
  | .mulu, [.x ra, .x rb, .x rc] => some (.mulu ra rb rc)
  | .muluSi, [.x ra, .x rb, .imm n] => (immSigned n).map (.muluSi ra rb)
  | .muluZi, [.x ra, .x rb, .imm n] => (immUnsigned n).map (.muluZi ra rb)
  | .div, [.x ra, .x rb, .x rc] => some (.div ra rb rc)
  | .divSi, [.x ra, .x rb, .imm n] => (immSigned n).map (.divSi ra rb)
  | .divZi, [.x ra, .x rb, .imm n] => (immUnsigned n).map (.divZi ra rb)
  | .divu, [.x ra, .x rb, .x rc] => some (.divu ra rb rc)
  | .divuSi, [.x ra, .x rb, .imm n] => (immSigned n).map (.divuSi ra rb)
  | .divuZi, [.x ra, .x rb, .imm n] => (immUnsigned n).map (.divuZi ra rb)
  | .mod, [.x ra, .x rb, .x rc] => some (.mod ra rb rc)
  | .modSi, [.x ra, .x rb, .imm n] => (immSigned n).map (.modSi ra rb)
  | .modZi, [.x ra, .x rb, .imm n] => (immUnsigned n).map (.modZi ra rb)
  | .modu, [.x ra, .x rb, .x rc] => some (.modu ra rb rc)
  | .moduSi, [.x ra, .x rb, .imm n] => (immSigned n).map (.moduSi ra rb)
  | .moduZi, [.x ra, .x rb, .imm n] => (immUnsigned n).map (.moduZi ra rb)
  | .sll, [.x ra, .x rb, .x rc] => some (.sll ra rb rc)
  | .srl, [.x ra, .x rb, .x rc] => some (.srl ra rb rc)
  | .sra, [.x ra, .x rb, .x rc] => some (.sra ra rb rc)
  | .slli, [.x ra, .x rb, .imm n] => (immShift n).map (.slli ra rb)
  | .srli, [.x ra, .x rb, .imm n] => (immShift n).map (.srli ra rb)
  | .srai, [.x ra, .x rb, .imm n] => (immShift n).map (.srai ra rb)
  | .and, [.x ra, .x rb, .x rc] => some (.and ra rb rc)
  | .or, [.x ra, .x rb, .x rc] => some (.or ra rb rc)
  | .xor, [.x ra, .x rb, .x rc] => some (.xor ra rb rc)
  | .not, [.x ra, .x rb] => some (.not ra rb)
  | .eq, [.x ra, .x rb, .x rc] => some (.eq ra rb rc)
  | .ne, [.x ra, .x rb, .x rc] => some (.ne ra rb rc)
  | .lt, [.x ra, .x rb, .x rc] => some (.lt ra rb rc)
  | .ltu, [.x ra, .x rb, .x rc] => some (.ltu ra rb rc)
  | .gt, [.x ra, .x rb, .x rc] => some (.gt ra rb rc)
  | .gtu, [.x ra, .x rb, .x rc] => some (.gtu ra rb rc)
  | .le, [.x ra, .x rb, .x rc] => some (.le ra rb rc)
  | .leu, [.x ra, .x rb, .x rc] => some (.leu ra rb rc)
  | .ge, [.x ra, .x rb, .x rc] => some (.ge ra rb rc)
  | .geu, [.x ra, .x rb, .x rc] => some (.geu ra rb rc)
  | .b, [.imm n] => (immBranch scale n).map (.b)
  | .beq, [.x ra, .x rb, .imm n] => (immBranch scale n).map (.beq ra rb)
  | .bne, [.x ra, .x rb, .imm n] => (immBranch scale n).map (.bne ra rb)
  | .blt, [.x ra, .x rb, .imm n] => (immBranch scale n).map (.blt ra rb)
  | .bgt, [.x ra, .x rb, .imm n] => (immBranch scale n).map (.bgt ra rb)
  | .j, [.imm n] => (immJump pc n).map (.j)
  | .jr, [.x ra] => some (.jr ra)
  | .call, [.x ra] => some (.call ra)
  | .ret, [] => some .ret
  | .lw, [.x ra, .mem n rb] => (immSigned n).map (.lw ra rb)
  | .lh, [.x ra, .mem n rb] => (immSigned n).map (.lh ra rb)
  | .lb, [.x ra, .mem n rb] => (immSigned n).map (.lb ra rb)
  | .lf, [.f ra, .mem n rb] => (immSigned n).map (.lf ra rb)
  | .sw, [.x ra, .mem n rb] => (immSigned n).map (.sw ra rb)
  | .sh, [.x ra, .mem n rb] => (immSigned n).map (.sh ra rb)
  | .sb, [.x ra, .mem n rb] => (immSigned n).map (.sb ra rb)
  | .sf, [.f ra, .mem n rb] => (immSigned n).map (.sf ra rb)
  | .li, [.x ra, .imm n] => (immSigned n).map (.li ra)
  | .liu, [.x ra, .imm n] => (immUnsigned n).map (.liu ra)
  | .lui, [.x ra, .imm n] => (immUnsigned n).map (.lui ra)
  | .pushW, [.x ra] => some (.pushW ra)
  | .pushH, [.x ra] => some (.pushH ra)
  | .pushB, [.x ra] => some (.pushB ra)
  | .pushF, [.f ra] => some (.pushF ra)
  | .popW, [.x ra] => some (.popW ra)
  | .popH, [.x ra] => some (.popH ra)
  | .popB, [.x ra] => some (.popB ra)
  | .popF, [.f ra] => some (.popF ra)
  | .itof, [.f ra, .x rb] => some (.itof ra rb)
  | .utof, [.f ra, .x rb] => some (.utof ra rb)
  | .ftoi, [.x ra, .f rb] => some (.ftoi ra rb)
  | .fadd, [.f ra, .f rb, .f rc] => some (.fadd ra rb rc)
  | .fsub, [.f ra, .f rb, .f rc] => some (.fsub ra rb rc)
  | .fmul, [.f ra, .f rb, .f rc] => some (.fmul ra rb rc)
  | .fdiv, [.f ra, .f rb, .f rc] => some (.fdiv ra rb rc)
  | .fmod, [.f ra, .f rb, .f rc] => some (.fmod ra rb rc)
  | .ffloor, [.f ra, .f rb] => some (.ffloor ra rb)
  | .fceil, [.f ra, .f rb] => some (.fceil ra rb)
  | .feq, [.x ra, .f rb, .f rc] => some (.feq ra rb rc)
  | .fne, [.x ra, .f rb, .f rc] => some (.fne ra rb rc)
  | .flt, [.x ra, .f rb, .f rc] => some (.flt ra rb rc)
  | .fgt, [.x ra, .f rb, .f rc] => some (.fgt ra rb rc)
  | .fle, [.x ra, .f rb, .f rc] => some (.fle ra rb rc)
  | .fge, [.x ra, .f rb, .f rc] => some (.fge ra rb rc)
  | _, _ => none

/-- The line of an instruction at address `pc` (R110): a branch shows its displacement in bytes, a
jump its target, a shift its amount. -/
def lineOf (scale : Int) (pc : Word) (i : Instr) : AsmLine :=
  match i with
  | .nop => ⟨.nop, []⟩
  | .halt => ⟨.halt, []⟩
  | .putc ra => ⟨.putc, [.x ra]⟩
  | .add ra rb rc => ⟨.add, [.x ra, .x rb, .x rc]⟩
  | .addSi ra rb imm16 => ⟨.addSi, [.x ra, .x rb, .imm imm16.toInt]⟩
  | .addZi ra rb imm16 => ⟨.addZi, [.x ra, .x rb, .imm imm16.toNat]⟩
  | .addu ra rb rc => ⟨.addu, [.x ra, .x rb, .x rc]⟩
  | .adduSi ra rb imm16 => ⟨.adduSi, [.x ra, .x rb, .imm imm16.toInt]⟩
  | .adduZi ra rb imm16 => ⟨.adduZi, [.x ra, .x rb, .imm imm16.toNat]⟩
  | .sub ra rb rc => ⟨.sub, [.x ra, .x rb, .x rc]⟩
  | .subSi ra rb imm16 => ⟨.subSi, [.x ra, .x rb, .imm imm16.toInt]⟩
  | .subZi ra rb imm16 => ⟨.subZi, [.x ra, .x rb, .imm imm16.toNat]⟩
  | .subu ra rb rc => ⟨.subu, [.x ra, .x rb, .x rc]⟩
  | .subuSi ra rb imm16 => ⟨.subuSi, [.x ra, .x rb, .imm imm16.toInt]⟩
  | .subuZi ra rb imm16 => ⟨.subuZi, [.x ra, .x rb, .imm imm16.toNat]⟩
  | .mul ra rb rc => ⟨.mul, [.x ra, .x rb, .x rc]⟩
  | .mulSi ra rb imm16 => ⟨.mulSi, [.x ra, .x rb, .imm imm16.toInt]⟩
  | .mulZi ra rb imm16 => ⟨.mulZi, [.x ra, .x rb, .imm imm16.toNat]⟩
  | .mulu ra rb rc => ⟨.mulu, [.x ra, .x rb, .x rc]⟩
  | .muluSi ra rb imm16 => ⟨.muluSi, [.x ra, .x rb, .imm imm16.toInt]⟩
  | .muluZi ra rb imm16 => ⟨.muluZi, [.x ra, .x rb, .imm imm16.toNat]⟩
  | .div ra rb rc => ⟨.div, [.x ra, .x rb, .x rc]⟩
  | .divSi ra rb imm16 => ⟨.divSi, [.x ra, .x rb, .imm imm16.toInt]⟩
  | .divZi ra rb imm16 => ⟨.divZi, [.x ra, .x rb, .imm imm16.toNat]⟩
  | .divu ra rb rc => ⟨.divu, [.x ra, .x rb, .x rc]⟩
  | .divuSi ra rb imm16 => ⟨.divuSi, [.x ra, .x rb, .imm imm16.toInt]⟩
  | .divuZi ra rb imm16 => ⟨.divuZi, [.x ra, .x rb, .imm imm16.toNat]⟩
  | .mod ra rb rc => ⟨.mod, [.x ra, .x rb, .x rc]⟩
  | .modSi ra rb imm16 => ⟨.modSi, [.x ra, .x rb, .imm imm16.toInt]⟩
  | .modZi ra rb imm16 => ⟨.modZi, [.x ra, .x rb, .imm imm16.toNat]⟩
  | .modu ra rb rc => ⟨.modu, [.x ra, .x rb, .x rc]⟩
  | .moduSi ra rb imm16 => ⟨.moduSi, [.x ra, .x rb, .imm imm16.toInt]⟩
  | .moduZi ra rb imm16 => ⟨.moduZi, [.x ra, .x rb, .imm imm16.toNat]⟩
  | .sll ra rb rc => ⟨.sll, [.x ra, .x rb, .x rc]⟩
  | .srl ra rb rc => ⟨.srl, [.x ra, .x rb, .x rc]⟩
  | .sra ra rb rc => ⟨.sra, [.x ra, .x rb, .x rc]⟩
  | .slli ra rb imm16 => ⟨.slli, [.x ra, .x rb, .imm (shamt (zext32 imm16))]⟩
  | .srli ra rb imm16 => ⟨.srli, [.x ra, .x rb, .imm (shamt (zext32 imm16))]⟩
  | .srai ra rb imm16 => ⟨.srai, [.x ra, .x rb, .imm (shamt (zext32 imm16))]⟩
  | .and ra rb rc => ⟨.and, [.x ra, .x rb, .x rc]⟩
  | .or ra rb rc => ⟨.or, [.x ra, .x rb, .x rc]⟩
  | .xor ra rb rc => ⟨.xor, [.x ra, .x rb, .x rc]⟩
  | .not ra rb => ⟨.not, [.x ra, .x rb]⟩
  | .eq ra rb rc => ⟨.eq, [.x ra, .x rb, .x rc]⟩
  | .ne ra rb rc => ⟨.ne, [.x ra, .x rb, .x rc]⟩
  | .lt ra rb rc => ⟨.lt, [.x ra, .x rb, .x rc]⟩
  | .ltu ra rb rc => ⟨.ltu, [.x ra, .x rb, .x rc]⟩
  | .gt ra rb rc => ⟨.gt, [.x ra, .x rb, .x rc]⟩
  | .gtu ra rb rc => ⟨.gtu, [.x ra, .x rb, .x rc]⟩
  | .le ra rb rc => ⟨.le, [.x ra, .x rb, .x rc]⟩
  | .leu ra rb rc => ⟨.leu, [.x ra, .x rb, .x rc]⟩
  | .ge ra rb rc => ⟨.ge, [.x ra, .x rb, .x rc]⟩
  | .geu ra rb rc => ⟨.geu, [.x ra, .x rb, .x rc]⟩
  | .b imm16 => ⟨.b, [.imm (imm16.toInt * scale)]⟩
  | .beq ra rb imm16 => ⟨.beq, [.x ra, .x rb, .imm (imm16.toInt * scale)]⟩
  | .bne ra rb imm16 => ⟨.bne, [.x ra, .x rb, .imm (imm16.toInt * scale)]⟩
  | .blt ra rb imm16 => ⟨.blt, [.x ra, .x rb, .imm (imm16.toInt * scale)]⟩
  | .bgt ra rb imm16 => ⟨.bgt, [.x ra, .x rb, .imm (imm16.toInt * scale)]⟩
  | .j imm24 => ⟨.j, [.imm (jumpTarget pc imm24).toNat]⟩
  | .jr ra => ⟨.jr, [.x ra]⟩
  | .call ra => ⟨.call, [.x ra]⟩
  | .ret => ⟨.ret, []⟩
  | .lw ra rb imm16 => ⟨.lw, [.x ra, .mem imm16.toInt rb]⟩
  | .lh ra rb imm16 => ⟨.lh, [.x ra, .mem imm16.toInt rb]⟩
  | .lb ra rb imm16 => ⟨.lb, [.x ra, .mem imm16.toInt rb]⟩
  | .lf ra rb imm16 => ⟨.lf, [.f ra, .mem imm16.toInt rb]⟩
  | .sw ra rb imm16 => ⟨.sw, [.x ra, .mem imm16.toInt rb]⟩
  | .sh ra rb imm16 => ⟨.sh, [.x ra, .mem imm16.toInt rb]⟩
  | .sb ra rb imm16 => ⟨.sb, [.x ra, .mem imm16.toInt rb]⟩
  | .sf ra rb imm16 => ⟨.sf, [.f ra, .mem imm16.toInt rb]⟩
  | .li ra imm16 => ⟨.li, [.x ra, .imm imm16.toInt]⟩
  | .liu ra imm16 => ⟨.liu, [.x ra, .imm imm16.toNat]⟩
  | .lui ra imm16 => ⟨.lui, [.x ra, .imm imm16.toNat]⟩
  | .pushW ra => ⟨.pushW, [.x ra]⟩
  | .pushH ra => ⟨.pushH, [.x ra]⟩
  | .pushB ra => ⟨.pushB, [.x ra]⟩
  | .pushF ra => ⟨.pushF, [.f ra]⟩
  | .popW ra => ⟨.popW, [.x ra]⟩
  | .popH ra => ⟨.popH, [.x ra]⟩
  | .popB ra => ⟨.popB, [.x ra]⟩
  | .popF ra => ⟨.popF, [.f ra]⟩
  | .itof ra rb => ⟨.itof, [.f ra, .x rb]⟩
  | .utof ra rb => ⟨.utof, [.f ra, .x rb]⟩
  | .ftoi ra rb => ⟨.ftoi, [.x ra, .f rb]⟩
  | .fadd ra rb rc => ⟨.fadd, [.f ra, .f rb, .f rc]⟩
  | .fsub ra rb rc => ⟨.fsub, [.f ra, .f rb, .f rc]⟩
  | .fmul ra rb rc => ⟨.fmul, [.f ra, .f rb, .f rc]⟩
  | .fdiv ra rb rc => ⟨.fdiv, [.f ra, .f rb, .f rc]⟩
  | .fmod ra rb rc => ⟨.fmod, [.f ra, .f rb, .f rc]⟩
  | .ffloor ra rb => ⟨.ffloor, [.f ra, .f rb]⟩
  | .fceil ra rb => ⟨.fceil, [.f ra, .f rb]⟩
  | .feq ra rb rc => ⟨.feq, [.x ra, .f rb, .f rc]⟩
  | .fne ra rb rc => ⟨.fne, [.x ra, .f rb, .f rc]⟩
  | .flt ra rb rc => ⟨.flt, [.x ra, .f rb, .f rc]⟩
  | .fgt ra rb rc => ⟨.fgt, [.x ra, .f rb, .f rc]⟩
  | .fle ra rb rc => ⟨.fle, [.x ra, .f rb, .f rc]⟩
  | .fge ra rb rc => ⟨.fge, [.x ra, .f rb, .f rc]⟩

end Sys2Proof.Machine
end

