-- ==== Sys2Proof/Machine/Effects.lean ====
section
/-! DEFINITION. What each instruction may touch, one table for each kind of effect, read off the
rules of the instruction files: the words the frame statements are made of. The meanings do not
use these tables. -/

namespace Sys2Proof.Machine

/-- The integer registers an instruction writes: its destination (R93) and, for `call`, `ret`, push
and pop, SP (R23, R245). -/
def xDests : Instr → List XReg
  | .nop | .halt | .putc _ | .b _ | .beq _ _ _ | .bne _ _ _ | .blt _ _ _ | .bgt _ _ _ | .j _
  | .jr _ | .lf _ _ _ | .sw _ _ _ | .sh _ _ _ | .sb _ _ _ | .sf _ _ _ | .itof _ _ | .utof _ _
  | .fadd _ _ _ | .fsub _ _ _ | .fmul _ _ _ | .fdiv _ _ _ | .fmod _ _ _ | .ffloor _ _
  | .fceil _ _ => []
  | .add ra _ _ | .addSi ra _ _ | .addZi ra _ _ | .addu ra _ _ | .adduSi ra _ _ | .adduZi ra _ _
  | .sub ra _ _ | .subSi ra _ _ | .subZi ra _ _ | .subu ra _ _ | .subuSi ra _ _ | .subuZi ra _ _
  | .mul ra _ _ | .mulSi ra _ _ | .mulZi ra _ _ | .mulu ra _ _ | .muluSi ra _ _ | .muluZi ra _ _
  | .div ra _ _ | .divSi ra _ _ | .divZi ra _ _ | .divu ra _ _ | .divuSi ra _ _ | .divuZi ra _ _
  | .mod ra _ _ | .modSi ra _ _ | .modZi ra _ _ | .modu ra _ _ | .moduSi ra _ _ | .moduZi ra _ _
  | .sll ra _ _ | .srl ra _ _ | .sra ra _ _ | .slli ra _ _ | .srli ra _ _ | .srai ra _ _
  | .and ra _ _ | .or ra _ _ | .xor ra _ _ | .not ra _ | .eq ra _ _ | .ne ra _ _ | .lt ra _ _
  | .ltu ra _ _ | .gt ra _ _ | .gtu ra _ _ | .le ra _ _ | .leu ra _ _ | .ge ra _ _ | .geu ra _ _
  | .lw ra _ _ | .lh ra _ _ | .lb ra _ _ | .li ra _ | .liu ra _ | .lui ra _ | .ftoi ra _
  | .feq ra _ _ | .fne ra _ _ | .flt ra _ _ | .fgt ra _ _ | .fle ra _ _ | .fge ra _ _ => [ra]
  | .call _ | .ret | .pushW _ | .pushH _ | .pushB _ | .pushF _ | .popF _ => [regSP]
  | .popW ra | .popH ra | .popB ra => [regSP, ra]

/-- The float registers an instruction writes (R93). -/
def fDests : Instr → List FReg
  | .nop | .halt | .putc _ | .add _ _ _ | .addSi _ _ _ | .addZi _ _ _ | .addu _ _ _
  | .adduSi _ _ _ | .adduZi _ _ _ | .sub _ _ _ | .subSi _ _ _ | .subZi _ _ _ | .subu _ _ _
  | .subuSi _ _ _ | .subuZi _ _ _ | .mul _ _ _ | .mulSi _ _ _ | .mulZi _ _ _ | .mulu _ _ _
  | .muluSi _ _ _ | .muluZi _ _ _ | .div _ _ _ | .divSi _ _ _ | .divZi _ _ _ | .divu _ _ _
  | .divuSi _ _ _ | .divuZi _ _ _ | .mod _ _ _ | .modSi _ _ _ | .modZi _ _ _ | .modu _ _ _
  | .moduSi _ _ _ | .moduZi _ _ _ | .sll _ _ _ | .srl _ _ _ | .sra _ _ _ | .slli _ _ _
  | .srli _ _ _ | .srai _ _ _ | .and _ _ _ | .or _ _ _ | .xor _ _ _ | .not _ _ | .eq _ _ _
  | .ne _ _ _ | .lt _ _ _ | .ltu _ _ _ | .gt _ _ _ | .gtu _ _ _ | .le _ _ _ | .leu _ _ _
  | .ge _ _ _ | .geu _ _ _ | .b _ | .beq _ _ _ | .bne _ _ _ | .blt _ _ _ | .bgt _ _ _ | .j _
  | .jr _ | .call _ | .ret | .lw _ _ _ | .lh _ _ _ | .lb _ _ _ | .sw _ _ _ | .sh _ _ _
  | .sb _ _ _ | .sf _ _ _ | .li _ _ | .liu _ _ | .lui _ _ | .pushW _ | .pushH _ | .pushB _
  | .pushF _ | .popW _ | .popH _ | .popB _ | .ftoi _ _ | .feq _ _ _ | .fne _ _ _ | .flt _ _ _
  | .fgt _ _ _ | .fle _ _ _ | .fge _ _ _ => []
  | .lf ra _ _ | .popF ra | .itof ra _ | .utof ra _ | .fadd ra _ _ | .fsub ra _ _ | .fmul ra _ _
  | .fdiv ra _ _ | .fmod ra _ _ | .ffloor ra _ | .fceil ra _ => [ra]

/-- The bytes of memory an instruction writes: the first address and how many (R55, R230, R245). -/
def storeRangeWith (P : Params) (s : State) : Instr → Option (Word × Nat)
  | .nop | .halt | .putc _ | .add _ _ _ | .addSi _ _ _ | .addZi _ _ _ | .addu _ _ _
  | .adduSi _ _ _ | .adduZi _ _ _ | .sub _ _ _ | .subSi _ _ _ | .subZi _ _ _ | .subu _ _ _
  | .subuSi _ _ _ | .subuZi _ _ _ | .mul _ _ _ | .mulSi _ _ _ | .mulZi _ _ _ | .mulu _ _ _
  | .muluSi _ _ _ | .muluZi _ _ _ | .div _ _ _ | .divSi _ _ _ | .divZi _ _ _ | .divu _ _ _
  | .divuSi _ _ _ | .divuZi _ _ _ | .mod _ _ _ | .modSi _ _ _ | .modZi _ _ _ | .modu _ _ _
  | .moduSi _ _ _ | .moduZi _ _ _ | .sll _ _ _ | .srl _ _ _ | .sra _ _ _ | .slli _ _ _
  | .srli _ _ _ | .srai _ _ _ | .and _ _ _ | .or _ _ _ | .xor _ _ _ | .not _ _ | .eq _ _ _
  | .ne _ _ _ | .lt _ _ _ | .ltu _ _ _ | .gt _ _ _ | .gtu _ _ _ | .le _ _ _ | .leu _ _ _
  | .ge _ _ _ | .geu _ _ _ | .b _ | .beq _ _ _ | .bne _ _ _ | .blt _ _ _ | .bgt _ _ _ | .j _
  | .jr _ | .ret | .lw _ _ _ | .lh _ _ _ | .lb _ _ _ | .lf _ _ _ | .li _ _ | .liu _ _ | .lui _ _
  | .popW _ | .popH _ | .popB _ | .popF _ | .itof _ _ | .utof _ _ | .ftoi _ _ | .fadd _ _ _
  | .fsub _ _ _ | .fmul _ _ _ | .fdiv _ _ _ | .fmod _ _ _ | .ffloor _ _ | .fceil _ _ | .feq _ _ _
  | .fne _ _ _ | .flt _ _ _ | .fgt _ _ _ | .fle _ _ _ | .fge _ _ _ => none
  | .call _ => some (s.pushAddr (P.stackStep .call), 4)
  | .sw _ rb imm16 => some (effAddr (s.readX rb) imm16, 4)
  | .sh _ rb imm16 => some (effAddr (s.readX rb) imm16, 2)
  | .sb _ rb imm16 => some (effAddr (s.readX rb) imm16, 1)
  | .sf _ rb imm16 => some (effAddr (s.readX rb) imm16, 8)
  | .pushW _ => some (s.pushAddr (P.stackStep .pushW), 4)
  | .pushH _ => some (s.pushAddr (P.stackStep .pushH), 2)
  | .pushB _ => some (s.pushAddr (P.stackStep .pushB), 1)
  | .pushF _ => some (s.pushAddr (P.stackStep .pushF), 8)

/-- The bytes an instruction writes with the reference parameters. -/
def storeRange (s : State) (i : Instr) : Option (Word × Nat) := storeRangeWith params s i

/-- The divisor of the twelve divide and remainder instructions (R125, R323); none for the others.
-/
def divisorOf (s : State) : Instr → Option Word
  | .nop | .halt | .putc _ | .add _ _ _ | .addSi _ _ _ | .addZi _ _ _ | .addu _ _ _
  | .adduSi _ _ _ | .adduZi _ _ _ | .sub _ _ _ | .subSi _ _ _ | .subZi _ _ _ | .subu _ _ _
  | .subuSi _ _ _ | .subuZi _ _ _ | .mul _ _ _ | .mulSi _ _ _ | .mulZi _ _ _ | .mulu _ _ _
  | .muluSi _ _ _ | .muluZi _ _ _ | .sll _ _ _ | .srl _ _ _ | .sra _ _ _ | .slli _ _ _
  | .srli _ _ _ | .srai _ _ _ | .and _ _ _ | .or _ _ _ | .xor _ _ _ | .not _ _ | .eq _ _ _
  | .ne _ _ _ | .lt _ _ _ | .ltu _ _ _ | .gt _ _ _ | .gtu _ _ _ | .le _ _ _ | .leu _ _ _
  | .ge _ _ _ | .geu _ _ _ | .b _ | .beq _ _ _ | .bne _ _ _ | .blt _ _ _ | .bgt _ _ _ | .j _
  | .jr _ | .call _ | .ret | .lw _ _ _ | .lh _ _ _ | .lb _ _ _ | .lf _ _ _ | .sw _ _ _
  | .sh _ _ _ | .sb _ _ _ | .sf _ _ _ | .li _ _ | .liu _ _ | .lui _ _ | .pushW _ | .pushH _
  | .pushB _ | .pushF _ | .popW _ | .popH _ | .popB _ | .popF _ | .itof _ _ | .utof _ _
  | .ftoi _ _ | .fadd _ _ _ | .fsub _ _ _ | .fmul _ _ _ | .fdiv _ _ _ | .fmod _ _ _ | .ffloor _ _
  | .fceil _ _ | .feq _ _ _ | .fne _ _ _ | .flt _ _ _ | .fgt _ _ _ | .fle _ _ _ | .fge _ _ _ => none
  | .div _ _ rc | .divu _ _ rc | .mod _ _ rc | .modu _ _ rc => some (s.readX rc)
  | .divSi _ _ imm16 | .divuSi _ _ imm16 | .modSi _ _ imm16 | .moduSi _ _ imm16 =>
    some (sext32 imm16)
  | .divZi _ _ imm16 | .divuZi _ _ imm16 | .modZi _ _ imm16 | .moduZi _ _ imm16 =>
    some (zext32 imm16)

/-- The instructions that read or write memory beside their own fetch (R55). -/
def accessesMemory : Instr → Bool
  | .nop | .halt | .putc _ | .add _ _ _ | .addSi _ _ _ | .addZi _ _ _ | .addu _ _ _
  | .adduSi _ _ _ | .adduZi _ _ _ | .sub _ _ _ | .subSi _ _ _ | .subZi _ _ _ | .subu _ _ _
  | .subuSi _ _ _ | .subuZi _ _ _ | .mul _ _ _ | .mulSi _ _ _ | .mulZi _ _ _ | .mulu _ _ _
  | .muluSi _ _ _ | .muluZi _ _ _ | .div _ _ _ | .divSi _ _ _ | .divZi _ _ _ | .divu _ _ _
  | .divuSi _ _ _ | .divuZi _ _ _ | .mod _ _ _ | .modSi _ _ _ | .modZi _ _ _ | .modu _ _ _
  | .moduSi _ _ _ | .moduZi _ _ _ | .sll _ _ _ | .srl _ _ _ | .sra _ _ _ | .slli _ _ _
  | .srli _ _ _ | .srai _ _ _ | .and _ _ _ | .or _ _ _ | .xor _ _ _ | .not _ _ | .eq _ _ _
  | .ne _ _ _ | .lt _ _ _ | .ltu _ _ _ | .gt _ _ _ | .gtu _ _ _ | .le _ _ _ | .leu _ _ _
  | .ge _ _ _ | .geu _ _ _ | .b _ | .beq _ _ _ | .bne _ _ _ | .blt _ _ _ | .bgt _ _ _ | .j _
  | .jr _ | .li _ _ | .liu _ _ | .lui _ _ | .itof _ _ | .utof _ _ | .ftoi _ _ | .fadd _ _ _
  | .fsub _ _ _ | .fmul _ _ _ | .fdiv _ _ _ | .fmod _ _ _ | .ffloor _ _ | .fceil _ _ | .feq _ _ _
  | .fne _ _ _ | .flt _ _ _ | .fgt _ _ _ | .fle _ _ _ | .fge _ _ _ => false
  | .call _ | .ret | .lw _ _ _ | .lh _ _ _ | .lb _ _ _ | .lf _ _ _ | .sw _ _ _ | .sh _ _ _
  | .sb _ _ _ | .sf _ _ _ | .pushW _ | .pushH _ | .pushB _ | .pushF _ | .popW _ | .popH _
  | .popB _ | .popF _ => true

/-- The instructions whose effect depends on a parameter of R6 other than the map. -/
def takesParam : Instr → Bool
  | .nop | .halt | .putc _ | .add _ _ _ | .addSi _ _ _ | .addZi _ _ _ | .addu _ _ _
  | .adduSi _ _ _ | .adduZi _ _ _ | .sub _ _ _ | .subSi _ _ _ | .subZi _ _ _ | .subu _ _ _
  | .subuSi _ _ _ | .subuZi _ _ _ | .mul _ _ _ | .mulSi _ _ _ | .mulZi _ _ _ | .mulu _ _ _
  | .muluSi _ _ _ | .muluZi _ _ _ | .div _ _ _ | .divSi _ _ _ | .divZi _ _ _ | .divu _ _ _
  | .divuSi _ _ _ | .divuZi _ _ _ | .mod _ _ _ | .modSi _ _ _ | .modZi _ _ _ | .modu _ _ _
  | .moduSi _ _ _ | .moduZi _ _ _ | .sll _ _ _ | .srl _ _ _ | .sra _ _ _ | .slli _ _ _
  | .srli _ _ _ | .srai _ _ _ | .and _ _ _ | .or _ _ _ | .xor _ _ _ | .not _ _ | .eq _ _ _
  | .ne _ _ _ | .lt _ _ _ | .ltu _ _ _ | .gt _ _ _ | .gtu _ _ _ | .le _ _ _ | .leu _ _ _
  | .ge _ _ _ | .geu _ _ _ | .j _ | .jr _ | .lw _ _ _ | .lf _ _ _ | .sw _ _ _ | .sh _ _ _
  | .sb _ _ _ | .sf _ _ _ | .li _ _ | .liu _ _ | .lui _ _ | .itof _ _ | .utof _ _ | .feq _ _ _
  | .fne _ _ _ | .flt _ _ _ | .fgt _ _ _ | .fle _ _ _ | .fge _ _ _ => false
  | .b _ | .beq _ _ _ | .bne _ _ _ | .blt _ _ _ | .bgt _ _ _ | .call _ | .ret | .lh _ _ _
  | .lb _ _ _ | .pushW _ | .pushH _ | .pushB _ | .pushF _ | .popW _ | .popH _ | .popB _
  | .popF _ | .ftoi _ _ | .fadd _ _ _ | .fsub _ _ _ | .fmul _ _ _ | .fdiv _ _ _ | .fmod _ _ _
  | .ffloor _ _ | .fceil _ _ => true

end Sys2Proof.Machine
end

