-- ==== Sys2Proof/Machine/HostOps.lean ====
section
/-! DEFINITION. The host boundary (60_exceptions.md R340 to R348, 70_reset_and_hazards.md R350,
R351, R354): the operations a loader, debugger or harness applies between steps. They are the
CORE's only interface (R4, D29). -/

namespace Sys2Proof.Machine

/-- The numeric cause codes (R321, D32; the spec's own). -/
def FaultKind.code : FaultKind → Nat
  | .decodeFault => 1
  | .arithmeticFault => 2
  | .indexFault => 3
  | .memoryFault => 4

/-- What a host operation answers: its value and the state after it; an IndexFault, with the state
that holds its record (R347); or a refusal, with the state unchanged (R340, R343). -/
inductive HostResult (α : Type) where
  | done (a : α) (s : State)
  | indexFault (s : State)
  | refused (s : State)
  deriving DecidableEq, Repr

/-- The state after a host operation. -/
def HostResult.state {α : Type} : HostResult α → State
  | .done _ s => s
  | .indexFault s => s
  | .refused s => s

/-- A register index the host may name (R347). -/
def indexOk (i : Int) : Bool := decide (0 ≤ i) && decide (i ≤ 15)

/-- The first index outside [0, 15], in the order given (R347). -/
def firstBadIndex : List Int → Option Int
  | [] => none
  | i :: rest => if indexOk i then firstBadIndex rest else some i

/-- A legal host index as a register index. -/
def regIndex (i : Int) : BitVec 4 := BitVec.ofInt 4 i

/-- An out-of-range register access: nothing is written and the run ends with the record
`faulted(IndexFault, pc, wrap32(i))` (R347). A run that has ended already keeps its record, which
only a reset clears (R32, R327; log 9). -/
def State.hostIndexFault (s : State) (i : Int) : State :=
  match s.run with
  | .running => s.raiseFault .indexFault (wrap32 i)
  | _ => s

/-- The range of a host integer value (R340, D35). -/
def valueOk (signed : Bool) (v : Int) : Bool :=
  if signed then decide (-(2 ^ 31) ≤ v) && decide (v ≤ 2 ^ 31 - 1)
  else decide (0 ≤ v) && decide (v ≤ 2 ^ 32 - 1)

/-- The writes of a setInt, in order (R340; log 15). -/
def State.writeInts (s : State) : List (Int × Int) → State
  | [] => s
  | (i, v) :: rest => (s.writeX (regIndex i) (wrap32 v)).writeInts rest

/-- `setInt` on a subset of the integer registers (R340): all writes or none. A bad index is
reported before a bad value (log 10). -/
def State.setInts (s : State) (writes : List (Int × Int)) (signed : Bool) : HostResult Unit :=
  match firstBadIndex (writes.map Prod.fst) with
  | some i => .indexFault (s.hostIndexFault i)
  | none =>
    if writes.all (fun p => valueOk signed p.2) then .done () (s.writeInts writes) else .refused s

/-- `setInt(i, v, signed)` (R340). -/
def State.setInt (s : State) (i v : Int) (signed : Bool) : HostResult Unit :=
  s.setInts [(i, v)] signed

/-- One register as the host reads it (R340). -/
def State.intOf (s : State) (signed : Bool) (i : Int) : Int :=
  if signed then sval (s.readX (regIndex i)) else uval (s.readX (regIndex i))

/-- `getInt` on a subset of the integer registers (R340). -/
def State.getInts (s : State) (is : List Int) (signed : Bool) : HostResult (List Int) :=
  match firstBadIndex is with
  | some i => .indexFault (s.hostIndexFault i)
  | none => .done (is.map (s.intOf signed)) s

/-- `getInt(i, signed)` (R340). -/
def State.getInt (s : State) (i : Int) (signed : Bool) : HostResult Int :=
  if indexOk i then .done (s.intOf signed i) s else .indexFault (s.hostIndexFault i)

/-- A float the host supplies: a 64-bit pattern, or a value (R341). -/
inductive HostFloat where
  | pattern (b : Pattern)
  | value (d : FVal)
  deriving DecidableEq, Repr

/-- What is stored for it: a pattern unchanged, a value as `B(d)`, a NaN value as NAN_PAYLOAD
(R341; log 11). -/
def HostFloat.bits (nan : Pattern) : HostFloat → Pattern
  | .pattern b => b
  | .value d => ofFVal nan d

/-- `setFloat(i, d)` (R341), NAN_PAYLOAD given. -/
def State.setFloatWith (s : State) (nan : Pattern) (i : Int) (d : HostFloat) : HostResult Unit :=
  if indexOk i then .done () (s.writeF (regIndex i) (d.bits nan))
  else .indexFault (s.hostIndexFault i)

/-- `setFloat(i, d)` (R341) with the reference parameters. -/
def State.setFloat (s : State) (i : Int) (d : HostFloat) : HostResult Unit :=
  s.setFloatWith params.nanPayload i d

/-- `getFloat(i)` (R341). -/
def State.getFloat (s : State) (i : Int) : HostResult Pattern :=
  if indexOk i then .done (s.readF (regIndex i)) s else .indexFault (s.hostIndexFault i)

/-- The bytes of a load, written in order at base, base+1, ... modulo 2^32 (R342). -/
def loadBytes : Memory → Word → List Byte → Memory
  | m, _, [] => m
  | m, a, v :: rest => loadBytes (m.write a.toNat v) (a + 1) rest

/-- `load(bytes, base)`: only memory changes (R342). -/
def State.load (s : State) (bytes : List Byte) (base : Word := 0) : State :=
  { s with mem := loadBytes s.mem base bytes }

/-- The bytes of a program's words, each little-endian (R342, R53). -/
def programBytes (words : List Word) : List Byte := words.flatMap bytesOfWord

/-- `getPC()` (R344). -/
def State.getPC (s : State) : Word := s.pc

/-- `setPC(a)`: any 32-bit value (R344). -/
def State.setPC (s : State) (a : Word) : State := s.jump a

/-- `snapshot()`: the whole state (R345). -/
def State.snapshot (s : State) : State := s

/-- `stepWord(w)`: the step of the reference machine on a word the host supplies (R343, D31). -/
def stepWord (w : Word) (s : State) : StepResult := stepWordOf opcodeMap exec w s

/-- The host's reset: every element at its reset value, whatever the state was (R350). -/
def hostReset (_ : State) : State := State.reset

/-- The boot order (R351): reset, then load; registers and pc may be set afterwards. -/
def boot (bytes : List Byte) (base : Word := 0) : State := State.reset.load bytes base

/-- The run loop of the reference machine (R348, R354). -/
def runLoop (fuel : Nat) (s : State) : State := runLoopOf step fuel s

end Sys2Proof.Machine
end

