-- ==== Sys2Proof/Machine/Implementation.lean ====
section
/-! DEFINITION. The machine under any implementation of the ISA (00_scope.md R6, 30_encoding.md
R95): every parameter is an argument. `execWith` sends each instruction to the meaning `exec`
(Machine/Dispatch.lean) sends it to, with the given parameters where the meaning depends on one. -/

namespace Sys2Proof.Machine

/-- The execution of an instruction under these parameters (R6, R102). -/
def execWith (P : Params) (i : Instr) (s : State) : StepResult :=
  match i with
  | .nop => execNop s
  | .halt => execHalt s
  | .putc ra => execPutc ra s
  | .add ra rb rc => execAdd ra rb rc s
  | .addSi ra rb imm16 => execAddSi ra rb imm16 s
  | .addZi ra rb imm16 => execAddZi ra rb imm16 s
  | .addu ra rb rc => execAddu ra rb rc s
  | .adduSi ra rb imm16 => execAdduSi ra rb imm16 s
  | .adduZi ra rb imm16 => execAdduZi ra rb imm16 s
  | .sub ra rb rc => execSub ra rb rc s
  | .subSi ra rb imm16 => execSubSi ra rb imm16 s
  | .subZi ra rb imm16 => execSubZi ra rb imm16 s
  | .subu ra rb rc => execSubu ra rb rc s
  | .subuSi ra rb imm16 => execSubuSi ra rb imm16 s
  | .subuZi ra rb imm16 => execSubuZi ra rb imm16 s
  | .mul ra rb rc => execMul ra rb rc s
  | .mulSi ra rb imm16 => execMulSi ra rb imm16 s
  | .mulZi ra rb imm16 => execMulZi ra rb imm16 s
  | .mulu ra rb rc => execMulu ra rb rc s
  | .muluSi ra rb imm16 => execMuluSi ra rb imm16 s
  | .muluZi ra rb imm16 => execMuluZi ra rb imm16 s
  | .div ra rb rc => execDiv ra rb rc s
  | .divSi ra rb imm16 => execDivSi ra rb imm16 s
  | .divZi ra rb imm16 => execDivZi ra rb imm16 s
  | .divu ra rb rc => execDivu ra rb rc s
  | .divuSi ra rb imm16 => execDivuSi ra rb imm16 s
  | .divuZi ra rb imm16 => execDivuZi ra rb imm16 s
  | .mod ra rb rc => execMod ra rb rc s
  | .modSi ra rb imm16 => execModSi ra rb imm16 s
  | .modZi ra rb imm16 => execModZi ra rb imm16 s
  | .modu ra rb rc => execModu ra rb rc s
  | .moduSi ra rb imm16 => execModuSi ra rb imm16 s
  | .moduZi ra rb imm16 => execModuZi ra rb imm16 s
  | .sll ra rb rc => execSll ra rb rc s
  | .srl ra rb rc => execSrl ra rb rc s
  | .sra ra rb rc => execSra ra rb rc s
  | .slli ra rb imm16 => execSlli ra rb imm16 s
  | .srli ra rb imm16 => execSrli ra rb imm16 s
  | .srai ra rb imm16 => execSrai ra rb imm16 s
  | .and ra rb rc => execAnd ra rb rc s
  | .or ra rb rc => execOr ra rb rc s
  | .xor ra rb rc => execXor ra rb rc s
  | .not ra rb => execNot ra rb s
  | .eq ra rb rc => execEq ra rb rc s
  | .ne ra rb rc => execNe ra rb rc s
  | .lt ra rb rc => execLt ra rb rc s
  | .ltu ra rb rc => execLtu ra rb rc s
  | .gt ra rb rc => execGt ra rb rc s
  | .gtu ra rb rc => execGtu ra rb rc s
  | .le ra rb rc => execLe ra rb rc s
  | .leu ra rb rc => execLeu ra rb rc s
  | .ge ra rb rc => execGe ra rb rc s
  | .geu ra rb rc => execGeu ra rb rc s
  | .b imm16 => execBWith P imm16 s
  | .beq ra rb imm16 => execBeqWith P ra rb imm16 s
  | .bne ra rb imm16 => execBneWith P ra rb imm16 s
  | .blt ra rb imm16 => execBltWith P ra rb imm16 s
  | .bgt ra rb imm16 => execBgtWith P ra rb imm16 s
  | .j imm24 => execJ imm24 s
  | .jr ra => execJr ra s
  | .call ra => execCallWith P ra s
  | .ret => execRetWith P s
  | .lw ra rb imm16 => execLw ra rb imm16 s
  | .lh ra rb imm16 => execLhWith P ra rb imm16 s
  | .lb ra rb imm16 => execLbWith P ra rb imm16 s
  | .lf ra rb imm16 => execLf ra rb imm16 s
  | .sw ra rb imm16 => execSw ra rb imm16 s
  | .sh ra rb imm16 => execSh ra rb imm16 s
  | .sb ra rb imm16 => execSb ra rb imm16 s
  | .sf ra rb imm16 => execSf ra rb imm16 s
  | .li ra imm16 => execLi ra imm16 s
  | .liu ra imm16 => execLiu ra imm16 s
  | .lui ra imm16 => execLui ra imm16 s
  | .pushW ra => execPushWWith P ra s
  | .pushH ra => execPushHWith P ra s
  | .pushB ra => execPushBWith P ra s
  | .pushF ra => execPushFWith P ra s
  | .popW ra => execPopWWith P ra s
  | .popH ra => execPopHWith P ra s
  | .popB ra => execPopBWith P ra s
  | .popF ra => execPopFWith P ra s
  | .itof ra rb => execItof ra rb s
  | .utof ra rb => execUtof ra rb s
  | .ftoi ra rb => execFtoiWith P ra rb s
  | .fadd ra rb rc => execFaddWith P ra rb rc s
  | .fsub ra rb rc => execFsubWith P ra rb rc s
  | .fmul ra rb rc => execFmulWith P ra rb rc s
  | .fdiv ra rb rc => execFdivWith P ra rb rc s
  | .fmod ra rb rc => execFmodWith P ra rb rc s
  | .ffloor ra rb => execFfloorWith P ra rb s
  | .fceil ra rb => execFceilWith P ra rb s
  | .feq ra rb rc => execFeq ra rb rc s
  | .fne ra rb rc => execFne ra rb rc s
  | .flt ra rb rc => execFlt ra rb rc s
  | .fgt ra rb rc => execFgt ra rb rc s
  | .fle ra rb rc => execFle ra rb rc s
  | .fge ra rb rc => execFge ra rb rc s

/-- The step under an implementation (R6, R95, R100 to R104). -/
def stepWith (I : Implementation) (s : State) : StepResult := stepOf I.map (execWith I.params) s

/-- The step on a supplied word under an implementation (R95, R343). -/
def stepWordWith (I : Implementation) (w : Word) (s : State) : StepResult :=
  stepWordOf I.map (execWith I.params) w s

/-- The run loop under an implementation (R348, R354). -/
def runLoopWith (I : Implementation) (fuel : Nat) (s : State) : State :=
  runLoopOf (stepWith I) fuel s

/-- The machine of an implementation (R6). -/
def coreWith (I : Implementation) : Host.Core where
  State := State
  Fault := Fault
  Refusal := Refusal
  step := stepWith I
  reset := State.reset

end Sys2Proof.Machine
end

