-- ==== Sys2Proof/WellFormed.lean ====
section
/-! DEFINITION. What the types do not already ensure. A register index, an immediate and a jump
field are typed at their widths (R82 to R84, R324), so the fields of an instruction are always
legal; what can be ill-formed is an opcode map (R95), an instruction whose mnemonic the map leaves
out (R95), and a choice of parameters (R89, R271). -/

namespace Sys2Proof

/-- No two pairs share a mnemonic: the list is a map (R95). -/
def OpcodeMap.functional : OpcodeMap → Bool
  | [] => true
  | (m, _) :: rest => rest.all (fun p => decide (p.1 ≠ m)) && OpcodeMap.functional rest

/-- No two pairs share an opcode: the map is injective (R95). -/
def OpcodeMap.injective : OpcodeMap → Bool
  | [] => true
  | (_, o) :: rest => rest.all (fun p => decide (p.2 ≠ o)) && OpcodeMap.injective rest

/-- 0x7E is never assigned (R94, R95). -/
def OpcodeMap.leaves7E (map : OpcodeMap) : Bool := map.all (fun p => decide (p.2 ≠ 0x7E))

/-- A legal value of OPCODE_MAP (R95). -/
def OpcodeMap.wellFormed (map : OpcodeMap) : Bool :=
  map.functional && map.injective && map.leaves7E

/-- An instruction is well-formed under a map that assigns its mnemonic (R95). -/
def Instr.wellFormed (map : OpcodeMap) (i : Instr) : Bool := (map.opcodeOf i.mnemonic).isSome

/-- A NaN pattern: exponent field all ones, fraction not zero (R13). -/
def isNaNPattern (b : Pattern) : Bool :=
  decide (b.extractLsb' 52 11 = 0x7FF#11) && decide (b.extractLsb' 0 52 ≠ 0#52)

/-- Legal parameters: BRANCH_SCALE is 1 or 4 (R89) and NAN_PAYLOAD is a NaN (R271). The other
parameters admit every value of their types. That a STACK_STEP with a push step other than the
step of its pop is legal is the model's choice (DESIGN CHOICE, log 18): D14 gives each opcode a step
of its own, while R245's sentence that a push and then a pop restores SP holds only where the two
are equal. -/
def Params.wellFormed (P : Params) : Bool :=
  (decide (P.branchScale = 1) || decide (P.branchScale = 4)) && isNaNPattern P.nanPayload

/-- A legal implementation (R6): a legal map and legal parameters. -/
def Implementation.wellFormed (I : Implementation) : Bool :=
  I.map.wellFormed && I.params.wellFormed

end Sys2Proof
end

