-- ==== Sys2Proof/Safety.lean ====
section
/-! DEFINITION. What statements about the machine are made of: the frame of an instruction (what it
leaves alone), what is stored where, the invariants of the state, and the runs and host operations
a state can be reached by. -/

namespace Sys2Proof.Machine

/-- Address `b` is none of the `n` bytes from `a` on, counted modulo 2^32 (R57). -/
def OutsideBytes (a : Word) (n : Nat) (b : Word) : Prop :=
  ∀ k, k < n → b ≠ a + BitVec.ofNat 32 k

/-- Everything but the pc, the integer registers `xs`, the float registers `fs` and, where `st` is
`some (a, n)`, the `n` bytes of memory from `a` on, is in `t` as it was in `s`. -/
structure Frame (xs : List XReg) (fs : List FReg) (st : Option (Word × Nat)) (s t : State) :
    Prop where
  x : ∀ r, r ∉ xs → t.readX r = s.readX r
  f : ∀ r, r ∉ fs → t.readF r = s.readF r
  mem : ∀ b, (∀ a n, st = some (a, n) → OutsideBytes a n b) → t.readByte b = s.readByte b
  run : t.run = s.run
  out : t.out = s.out

/-- The `n` bytes from `a` on hold the value `v`, the least significant byte first (R52). -/
def BytesAt (t : State) (a : Word) (n v : Nat) : Prop :=
  ∀ k, k < n → t.readByte (a + BitVec.ofNat 32 k) = BitVec.ofNat 8 (v / 2 ^ (8 * k))

/-- An integer-register instruction completed: `v` in x[d], the pc advanced, nothing else changed.
-/
def CompletesX (o : StepResult) (s : State) (d : XReg) (v : Word) : Prop :=
  ∃ t, o = .next t ∧ t.readX d = v ∧ t.pc = s.pc + 4 ∧ Frame [d] [] none s t

/-- A float-register instruction completed: `v` in f[d], the pc advanced, nothing else changed. -/
def CompletesF (o : StepResult) (s : State) (d : FReg) (v : Pattern) : Prop :=
  ∃ t, o = .next t ∧ t.readF d = v ∧ t.pc = s.pc + 4 ∧ Frame [] [d] none s t

/-- A control transfer completed: only the pc changed. -/
def CompletesJump (o : StepResult) (s : State) (target : Word) : Prop :=
  ∃ t, o = .next t ∧ t.pc = target ∧ Frame [] [] none s t

/-- A store completed: the `n` bytes at `a` hold `v`, the pc advanced, nothing else changed. -/
def CompletesStore (o : StepResult) (s : State) (a : Word) (n v : Nat) : Prop :=
  ∃ t, o = .next t ∧ BytesAt t a n v ∧ t.pc = s.pc + 4 ∧ Frame [] [] (some (a, n)) s t

/-- A push completed: `n` bytes of `v` at the new SP, which is the old SP less `k`, the pc advanced,
nothing else changed. -/
def CompletesPush (o : StepResult) (s : State) (k n v : Nat) : Prop :=
  ∃ t, o = .next t ∧ BytesAt t (s.pushAddr k) n v ∧ t.readX regSP = s.pushAddr k ∧
    t.pc = s.pc + 4 ∧ Frame [regSP] [] (some (s.pushAddr k, n)) s t

/-- A pop into an integer register completed: `v` in x[d]; SP moved up by `k` unless it is the
destination; the pc advanced; nothing else changed. -/
def CompletesPopX (o : StepResult) (s : State) (d : XReg) (k : Nat) (v : Word) : Prop :=
  ∃ t, o = .next t ∧ t.readX d = v ∧
    (d ≠ regSP → t.readX regSP = s.readX regSP + BitVec.ofNat 32 k) ∧ t.pc = s.pc + 4 ∧
    Frame [regSP, d] [] none s t

/-- A pop into a float register completed: `v` in f[d], SP moved up by `k`, the pc advanced, nothing
else changed. -/
def CompletesPopF (o : StepResult) (s : State) (d : FReg) (k : Nat) (v : Pattern) : Prop :=
  ∃ t, o = .next t ∧ t.readF d = v ∧ t.readX regSP = s.readX regSP + BitVec.ofNat 32 k ∧
    t.pc = s.pc + 4 ∧ Frame [regSP] [d] none s t

/-- Every word with this opcode decodes to the instruction `f` makes of its fields, whatever its
other bits. -/
def DecodesTo (op : Byte) (f : Word → Instr) : Prop :=
  ∀ w : Word, fieldOp w = op → decodeWord w = .ok (f w)

/-- No pair of the map has this opcode: it is not in the image (R95, R101). -/
def Unassigned (map : OpcodeMap) (op : Byte) : Prop := ∀ p ∈ map, p.2 ≠ op

/-- The reference assignment leaves this opcode out: the ranges R96 lists. -/
def refUnassigned (op : Byte) : Bool :=
  [(0x00, 0x00), (0x04, 0x0F), (0x2E, 0x2F), (0x36, 0x37), (0x3C, 0x3F), (0x4A, 0x4F),
   (0x55, 0x57), (0x5C, 0x5F), (0x6B, 0x6F), (0x78, 0x7F), (0x83, 0x8F), (0x97, 0x97),
   (0x9E, 0xFF)].any fun p => decide (p.1 ≤ op.toNat) && decide (op.toNat ≤ p.2)

/-- A fault was taken: the run state is the record, and nothing else changed (R326, R327). -/
def FaultsWith (o : StepResult) (s : State) (kind : FaultKind) (w : Word) : Prop :=
  o = .next { s with run := .faulted kind s.pc w }

/-- The memory is in canonical form (R50, R51). -/
def MemoryCanonical (s : State) : Prop := s.mem.wf = true

/-- The run state holds no MemoryFault record (R32, R325). -/
def NoMemoryFault (s : State) : Prop := ∀ p w, s.run ≠ .faulted .memoryFault p w

/-- The invariant of the machine. -/
def Inv (s : State) : Prop := MemoryCanonical s ∧ NoMemoryFault s

/-- The run has ended (R104). -/
def Terminal (s : State) : Prop := s.run ≠ .running

/-! ## Float values -/

/-- A pattern of a finite number (R13). -/
def isFinitePattern (b : Pattern) : Prop := expField b ≠ 0x7FF

/-- A pattern of an infinity (R13). -/
def isInfPattern (b : Pattern) : Prop := expField b = 0x7FF ∧ fracField b = 0

/-- The magnitude of a finite pattern, in units of 2^-1074. -/
def unitsOfPattern (b : Pattern) : Nat := unitsOf (expField b) (fracField b)

/-- The value of a finite pattern, in units of 2^-1074 (R13). -/
def valueOf (b : Pattern) : Int := signedUnits (signField b) (unitsOfPattern b)

/-- The units of a magnitude pattern (bits 62:0). The one of an infinity counts as the power of two
next above the largest finite number, which is where IEEE 754 puts it for rounding (R270). -/
def magUnits (m : Nat) : Nat := unitsOf (m / 2 ^ 52) (m % 2 ^ 52)

/-- How far a magnitude pattern is from `n / d` units, times `d`. -/
def roundError (n d m : Nat) : Nat := ((magUnits m * d : Int) - (n : Int)).natAbs

/-- `m` is the magnitude pattern nearest to `n / d` units, the even one of two that are equally
near; past the midpoint above the largest finite number that is the infinity (R270). -/
def NearestEven (n d m : Nat) : Prop :=
  m ≤ infMag ∧ ∀ m', m' ≤ infMag →
    roundError n d m ≤ roundError n d m' ∧
      (roundError n d m' = roundError n d m → m' ≠ m → m % 2 = 0)

/-! ## The host -/

/-- What the host can do to a machine between steps, and the step itself (R340 to R345, R350), under
any implementation (R6). -/
inductive HostStep (I : Implementation) : State → State → Prop where
  | step (s t : State) (h : stepWith I s = .next t) : HostStep I s t
  | stepWord (s t : State) (w : Word) (h : stepWordWith I w s = .next t) : HostStep I s t
  | setInts (s : State) (ws : List (Int × Int)) (signed : Bool) :
      HostStep I s (s.setInts ws signed).state
  | getInts (s : State) (is : List Int) (signed : Bool) : HostStep I s (s.getInts is signed).state
  | setFloat (s : State) (i : Int) (d : HostFloat) :
      HostStep I s (s.setFloatWith I.params.nanPayload i d).state
  | getFloat (s : State) (i : Int) : HostStep I s (s.getFloat i).state
  | load (s : State) (bytes : List Byte) (base : Word) : HostStep I s (s.load bytes base)
  | setPC (s : State) (a : Word) : HostStep I s (s.setPC a)
  | reset (s : State) : HostStep I s (hostReset s)

/-- What the host can make of a machine by any number of operations. -/
inductive HostReaches (I : Implementation) : State → State → Prop where
  | refl (s : State) : HostReaches I s s
  | tail (s t r : State) (h : HostReaches I s t) (h' : HostStep I t r) : HostReaches I s r

/-- Running the word `w` in `s` stores to no byte at `b`. -/
def StoresNotTo (I : Implementation) (s : State) (w b : Word) : Prop :=
  ∀ i a n, decodeWith I.map w = .ok i → storeRangeWith I.params s i = some (a, n) →
    OutsideBytes a n b

/-- The machine was reset and has come to this state by host operations and steps, none of which
wrote the byte at `b`: no store and no load of bytes covered it (R51). -/
inductive NeverWritten (I : Implementation) (b : Word) : State → Prop where
  | reset : NeverWritten I b State.reset
  | step (s t : State) (h : NeverWritten I b s) (h' : stepWith I s = .next t)
      (hb : StoresNotTo I s s.fetchWord b) : NeverWritten I b t
  | stepWord (s t : State) (w : Word) (h : NeverWritten I b s) (h' : stepWordWith I w s = .next t)
      (hb : StoresNotTo I s w b) : NeverWritten I b t
  | setInts (s : State) (ws : List (Int × Int)) (signed : Bool) (h : NeverWritten I b s) :
      NeverWritten I b (s.setInts ws signed).state
  | getInts (s : State) (is : List Int) (signed : Bool) (h : NeverWritten I b s) :
      NeverWritten I b (s.getInts is signed).state
  | setFloat (s : State) (i : Int) (d : HostFloat) (h : NeverWritten I b s) :
      NeverWritten I b (s.setFloatWith I.params.nanPayload i d).state
  | getFloat (s : State) (i : Int) (h : NeverWritten I b s) : NeverWritten I b (s.getFloat i).state
  | load (s : State) (bytes : List Byte) (base : Word) (h : NeverWritten I b s)
      (hb : OutsideBytes base bytes.length b) : NeverWritten I b (s.load bytes base)
  | setPC (s : State) (a : Word) (h : NeverWritten I b s) : NeverWritten I b (s.setPC a)

end Sys2Proof.Machine
end

