-- ==== Sys2Proof/Certificates/Slice0/Obligations.lean ====
section
/-! DEFINITION. The statements for the provers. Each docstring names the rule of spec/ a statement
formalises; where it rests on a choice the spec marks as its own decision (D<n>) or on a log entry,
it says so. -/

open Sys2Proof Sys2Proof.Machine

/-! ## Encoding and decoding -/

/-- Under every legal opcode map (R95, D1), encoding an instruction the map assigns and decoding the
word gives the instruction back, every operand at every value. The field positions are D4's. -/
def Obligations.DecodeEncodeAgreeUnderEveryLegalMap : Prop :=
  ∀ (map : OpcodeMap) (i : Instr), map.wellFormed = true → i.wellFormed map = true →
    ∃ w, encodeWith map i = some w ∧ decodeWith map w = .ok i

/-- The reference map (R96, D1, log 1) is legal, assigns every instruction, and leaves out exactly
the opcodes R96 lists. -/
def Obligations.ReferenceMapIsLegalAndComplete : Prop :=
  opcodeMap.wellFormed = true ∧ (∀ i : Instr, i.wellFormed opcodeMap = true) ∧
    ∀ op : Byte, opcodeMap.mnemonicOf op = none ↔ refUnassigned op = true

/-- Unused bits are ignored (R86, D6): a word that decodes does what the word of the same
instruction with every unused bit zero does, whichever legal map is used. -/
def Obligations.UnusedBitsAreIgnored : Prop :=
  ∀ (map : OpcodeMap) (w : Word) (i : Instr), map.wellFormed = true →
    decodeWith map w = .ok i →
    fieldOp w ++ i.fields = (encodeWith map i).getD 0 ∧
      decodeWith map (fieldOp w ++ i.fields) = .ok i

/-- R85: the opcode alone selects the mnemonic, and with it the format and the extension policy; and
decoding reads no register and no memory: one instruction, or the one rejection, serves every
running state. -/
def Obligations.OpcodeAloneSelectsTheFormat : Prop :=
  (∀ (map : OpcodeMap) (w w' : Word), fieldOp w = fieldOp w' →
    (∃ e, decodeWith map w = .error e ∧ decodeWith map w' = .error e) ∨
      ∃ i i', decodeWith map w = .ok i ∧ decodeWith map w' = .ok i' ∧
        i.mnemonic = i'.mnemonic ∧ i.mnemonic.format = i'.mnemonic.format ∧
        i.mnemonic.immExt = i'.mnemonic.immExt) ∧
  ∀ w : Word,
    (∃ i, ∀ s : State, s.run = .running → stepWord w s = recordWord w (exec i s)) ∨
      ∀ s : State, s.run = .running → FaultsWith (stepWord w s) s .decodeFault w

/-- The worked encodings of R114, and one word of each other family (from R82 to R84 with the
reference opcodes of R96, D1). -/
def Obligations.SampleWordsDecode : Prop :=
  decodeWord 0x10123000 = .ok (.add 1 2 3) ∧
  decodeWord 0x1112FFFF = .ok (.addSi 1 2 0xFFFF) ∧
  decodeWord 0x51560008 = .ok (.beq 5 6 8) ∧
  decodeWord 0x58000040 = .ok (.j 0x40) ∧
  decodeWord 0x02000000 = .ok .halt ∧
  decodeWord 0x7E000000 = .error (.unassignedOpcode 0x7E) ∧
  decodeWord 0x33120004 = .ok (.slli 1 2 4) ∧
  decodeWord 0x60120004 = .ok (.lw 1 2 4) ∧
  decodeWord 0x90123000 = .ok (.fadd 1 2 3)

/-- The word at pc is read little-endian (R53, R81, which the spec derives from R52): the opcode is
the byte at pc + 3, the register fields the byte at pc + 2, the immediate the two bytes at pc; and
the decoder of bytes reads the same word. -/
def Obligations.InstructionBytesAreLittleEndian : Prop :=
  (∀ s : State,
    fieldOp s.fetchWord = s.readByte (s.pc + 3) ∧
    fieldRa s.fetchWord ++ fieldRb s.fetchWord = s.readByte (s.pc + 2) ∧
    fieldImm16 s.fetchWord = s.readByte (s.pc + 1) ++ s.readByte s.pc ∧
    ∀ rest, decodeBytes (s.readByte s.pc :: s.readByte (s.pc + 1) :: s.readByte (s.pc + 2) ::
        s.readByte (s.pc + 3) :: rest) =
      (decodeWord s.fetchWord).map fun i => (i, rest)) ∧
  ∀ bs : List Byte, bs.length < 4 → decodeBytes bs = .error .truncated

/-! ## The step and the faults -/

/-- When the four bytes at pc decode to an instruction, the step of a running machine is that
instruction's execution, and nothing is added around it (R100 to R102). -/
def Obligations.StepRunsTheDecodedInstruction : Prop :=
  ∀ (s : State) (i : Instr), s.run = .running →
    decodeBytes [s.readByte s.pc, s.readByte (s.pc + 1), s.readByte (s.pc + 2),
      s.readByte (s.pc + 3)] = .ok (i, []) →
    Machine.step s = exec i s

/-- An opcode outside the image of the map, fetched or supplied, raises DecodeFault, and nothing
but the run state changes (R322); the map is the reference one (R96, D1, log 1), whose image leaves
out exactly R96's list, 0x00 and 0x7E among them; no field below the opcode is looked at; and a
word whose opcode is in the image never raises it. -/
def Obligations.UnassignedOpcodeRaisesDecodeFault : Prop :=
  (∀ s : State, s.run = .running → Unassigned opcodeMap (fieldOp s.fetchWord) →
    FaultsWith (Machine.step s) s .decodeFault s.fetchWord) ∧
  (∀ (s : State) (w : Word), s.run = .running → Unassigned opcodeMap (fieldOp w) →
    FaultsWith (stepWord w s) s .decodeFault w) ∧
  (∀ op : Byte, Unassigned opcodeMap op ↔ refUnassigned op = true) ∧
  (∀ (s : State) (low : BitVec 24), s.run = .running →
    FaultsWith (stepWord (0x7E#8 ++ low) s) s .decodeFault (0x7E#8 ++ low)) ∧
  ∀ (s t : State) (p w : Word), ¬Unassigned opcodeMap (fieldOp s.fetchWord) →
    Machine.step s = .next t → t.run ≠ .faulted .decodeFault p w

/-- R104: no step is taken when the machine is halted or faulted, and only a host reset makes it run
again, whatever the implementation (R6); the run loop leaves such a state as it is. -/
def Obligations.HaltedAndFaultedAreTerminal : Prop :=
  (∀ s t : State, Terminal s → Machine.step s ≠ .next t) ∧
  (∀ (s t : State) (w : Word), Terminal s → stepWord w s ≠ .next t) ∧
  (∀ (s : State) (n : Nat), Terminal s → runLoop n s = s) ∧
  ∀ (I : Implementation) (s t : State), Terminal s →
    stepWith I s ≠ .next t ∧ (∀ w, stepWordWith I w s ≠ .next t) ∧
      (HostStep I s t → Terminal t ∨ t = State.reset)

/-- A running machine always takes its step (R100 to R103), and the step leaves it halted exactly
when the word at pc is a `halt` (R32, R312, D23). -/
def Obligations.RunningMachineStepsAndOnlyHaltHalts : Prop :=
  ∀ s : State, s.run = .running →
    ∃ t, Machine.step s = .next t ∧ (t.run = .halted ↔ decodeWord s.fetchWord = .ok .halt)

/-- A step that faults commits nothing: registers, memory, output and pc are as they were, and the
record names the kind, the pc and the word of the failing instruction (R326, R327, D23; that a
fault is a next state is log 7). -/
def Obligations.FaultingStepCommitsNothing : Prop :=
  (∀ (s t : State) (k : FaultKind) (p w : Word), Machine.step s = .next t →
    t.run = .faulted k p w → FaultsWith (Machine.step s) s k s.fetchWord) ∧
  ∀ (s t : State) (k : FaultKind) (p w w' : Word), stepWord w s = .next t →
    t.run = .faulted k p w' → FaultsWith (stepWord w s) s k w

/-- The twelve divide and remainder instructions raise ArithmeticFault when their second operand is
0, with nothing written (R323); no other instruction, and none of these with another divisor, ends
in a fault; a float division by a zero gives an infinity or a NaN. That the word of the record is
the word at pc is log 8; for a fetched word that is the instruction's own. -/
def Obligations.ArithmeticFaultExactlyOnZeroDivisor : Prop :=
  (∀ (i : Instr) (s : State), divisorOf s i = some 0 →
    FaultsWith (exec i s) s .arithmeticFault s.fetchWord) ∧
  (∀ (i : Instr) (s : State), divisorOf s i ≠ some 0 →
    ∃ t, exec i s = .next t ∧ (t.run = s.run ∨ t.run = .halted)) ∧
  ∀ (ra rb rc : FReg) (s : State), toFVal (s.readF rc) = .fin false 0 ∨
      toFVal (s.readF rc) = .fin true 0 →
    ∃ t, exec (.fdiv ra rb rc) s = .next t ∧ t.run = s.run ∧ expField (t.readF ra) = 0x7FF

/-- R325: MemoryFault is never raised: no load, store, push, pop, call or ret faults, at any
address; no step, fetched or supplied, leaves a MemoryFault; and the kind keeps its code 4. -/
def Obligations.MemoryFaultIsNeverRaised : Prop :=
  (∀ (i : Instr) (s : State), accessesMemory i = true →
    ∃ t, exec i s = .next t ∧ t.run = s.run) ∧
  (∀ s t : State, Machine.step s = .next t → NoMemoryFault t) ∧
  (∀ (w : Word) (s t : State), stepWord w s = .next t → NoMemoryFault t) ∧
  FaultKind.code .memoryFault = 4

/-- Every step keeps the invariant: the memory stays canonical (log 14 for the second part), and no
MemoryFault record appears (R50, R51, R325). -/
def Obligations.StepKeepsTheInvariant : Prop :=
  ∀ s t : State, Inv s → Machine.step s = .next t → Inv t

/-- The state after reset meets the invariant. -/
def Obligations.ResetMeetsTheInvariant : Prop := Inv State.reset

/-- Whatever the host does to a machine of any implementation, any number of times (R6, R340 to
R345, R350), the invariant stays. -/
def Obligations.HostOperationsKeepTheInvariant : Prop :=
  ∀ (I : Implementation) (s t : State), Inv s → HostReaches I s t → Inv t

/-! ## Memory and registers -/

/-- R52: for n in {1, 2, 4, 8} a read is the sum of its bytes, the byte at the lowest address least
significant, each address modulo 2^32; and a write puts byte k of the value at addr + k and changes
no other byte. -/
def Obligations.MultiByteAccessIsLittleEndian : Prop :=
  ∀ (m : Memory) (a : Word) (n v : Nat), n ∈ [1, 2, 4, 8] →
    readLE m a n =
      ((List.range n).map fun k => (m.read (a + BitVec.ofNat 32 k).toNat).toNat * 2 ^ (8 * k)).sum ∧
    (∀ k, k < n →
      (writeLE m a n v).read (a + BitVec.ofNat 32 k).toNat = BitVec.ofNat 8 (v / 2 ^ (8 * k))) ∧
    ∀ b : Word, OutsideBytes a n b → (writeLE m a n v).read b.toNat = m.read b.toNat

/-- A mixed-width access sees the little-endian decomposition of what was written (R54, which the
spec derives from R52), at any address, aligned or not, wrapping or not: an equal or a narrower
read sees the written value or its part; a wider read composes the written bytes with the
neighbouring ones, which are zero where nothing was written. -/
def Obligations.MixedWidthAccessSeesTheBytes : Prop :=
  ∀ (s : State) (a v : Word) (b : Byte) (h : Half) (d : Pattern),
    (s.store32 a v).load32 a = v ∧
    (s.store32 a v).load16 a = v.extractLsb' 0 16 ∧
    (s.store32 a v).load16 (a + 2) = v.extractLsb' 16 16 ∧
    (∀ k, k < 4 → (s.store32 a v).load8 (a + BitVec.ofNat 32 k) = v.extractLsb' (8 * k) 8) ∧
    (s.store64 a d).load64 a = d ∧
    (s.store64 a d).load32 a = d.extractLsb' 0 32 ∧
    (s.store64 a d).load32 (a + 4) = d.extractLsb' 32 32 ∧
    (s.store8 a b).load8 a = b ∧
    (s.store8 a b).load16 a = s.readByte (a + 1) ++ b ∧
    (s.store8 a b).load32 a = s.readByte (a + 3) ++ s.readByte (a + 2) ++ s.readByte (a + 1) ++ b ∧
    (s.store16 a h).load16 a = h ∧
    (s.store16 a h).load8 a = h.extractLsb' 0 8 ∧
    (s.store16 a h).load8 (a + 1) = h.extractLsb' 8 8 ∧
    (s.store16 a h).load32 a = s.readByte (a + 3) ++ s.readByte (a + 2) ++ h ∧
    (s.store16 (a + 2) h).load32 a = h ++ s.readByte (a + 1) ++ s.readByte a ∧
    (s.store32 a v).load64 a =
      s.readByte (a + 7) ++ s.readByte (a + 6) ++ s.readByte (a + 5) ++ s.readByte (a + 4) ++ v ∧
    (State.reset.store8 a b).load32 a = 0#24 ++ b ∧
    (State.reset.store16 a h).load32 a = 0#16 ++ h ∧
    (State.reset.store32 a v).load64 a = 0#32 ++ v

/-- R51: a byte no store and no loader has written reads as 0x00, after any sequence of steps and
host operations from reset, whatever the implementation: after reset every byte reads 0x00; a step,
fetched or supplied, changes only the bytes its store covers, a load of bytes only those it places,
and no other host operation any. -/
def Obligations.UnwrittenBytesReadAsZero : Prop :=
  (∀ a, State.reset.readByte a = 0) ∧
  (∀ (s t : State) (b : Word), Machine.step s = .next t →
    (∀ i a n, decodeWord s.fetchWord = .ok i → storeRange s i = some (a, n) →
      OutsideBytes a n b) →
    t.readByte b = s.readByte b) ∧
  (∀ (s t : State) (w : Word) (b : Word), stepWord w s = .next t →
    (∀ i a n, decodeWord w = .ok i → storeRange s i = some (a, n) → OutsideBytes a n b) →
    t.readByte b = s.readByte b) ∧
  (∀ (s : State) (bytes : List Byte) (base b : Word), OutsideBytes base bytes.length b →
    (s.load bytes base).readByte b = s.readByte b) ∧
  (∀ (s : State) (ws : List (Int × Int)) (is : List Int) (signed : Bool) (i : Int) (d : HostFloat)
      (a b : Word),
    (s.setInts ws signed).state.readByte b = s.readByte b ∧
    (s.getInts is signed).state.readByte b = s.readByte b ∧
    (s.setFloat i d).state.readByte b = s.readByte b ∧
    (s.getFloat i).state.readByte b = s.readByte b ∧ (s.setPC a).readByte b = s.readByte b) ∧
  ∀ (I : Implementation) (s : State) (b : Word), NeverWritten I b s → s.readByte b = 0

/-- Two canonical memories that read alike at every address are the same list: a written 0x00 and an
unwritten byte cannot be told apart (R345, D34). -/
def Obligations.MemoriesThatReadAlikeAreEqual : Prop :=
  ∀ m m' : Memory, m.wf = true → m'.wf = true →
    (∀ a : Word, m.read a.toNat = m'.read a.toNat) → m = m'

/-- R24: no register is hard-wired: every register, r0 among them, reads back what was last written
to it, and a write to one register changes no other; an instruction that names r0 as its
destination writes it. -/
def Obligations.NoRegisterIsHardwired : Prop :=
  (∀ (s : State) (r q : XReg) (v : Word),
    (s.writeX r v).readX q = if q = r then v else s.readX q) ∧
  ∀ (s : State) (imm16 : Half),
    ∃ t, exec (.li 0 imm16) s = .next t ∧ t.readX 0 = imm16.signExtend 32

/-! ## Integer arithmetic -/

/-- The eighteen additions, subtractions and multiplications write the result modulo 2^32 to x[ra],
advance and change nothing else (R120, R121, R126 to R143; operand roles D3, D5). Signed and
unsigned forms write the same word. -/
def Obligations.AddSubtractMultiplyResults : Prop :=
  ∀ (ra rb rc : XReg) (imm16 : Half) (s : State),
    CompletesX (exec (.add ra rb rc) s) s ra (s.readX rb + s.readX rc) ∧
    CompletesX (exec (.addSi ra rb imm16) s) s ra (s.readX rb + imm16.signExtend 32) ∧
    CompletesX (exec (.addZi ra rb imm16) s) s ra (s.readX rb + imm16.zeroExtend 32) ∧
    CompletesX (exec (.addu ra rb rc) s) s ra (s.readX rb + s.readX rc) ∧
    CompletesX (exec (.adduSi ra rb imm16) s) s ra (s.readX rb + imm16.signExtend 32) ∧
    CompletesX (exec (.adduZi ra rb imm16) s) s ra (s.readX rb + imm16.zeroExtend 32) ∧
    CompletesX (exec (.sub ra rb rc) s) s ra (s.readX rb - s.readX rc) ∧
    CompletesX (exec (.subSi ra rb imm16) s) s ra (s.readX rb - imm16.signExtend 32) ∧
    CompletesX (exec (.subZi ra rb imm16) s) s ra (s.readX rb - imm16.zeroExtend 32) ∧
    CompletesX (exec (.subu ra rb rc) s) s ra (s.readX rb - s.readX rc) ∧
    CompletesX (exec (.subuSi ra rb imm16) s) s ra (s.readX rb - imm16.signExtend 32) ∧
    CompletesX (exec (.subuZi ra rb imm16) s) s ra (s.readX rb - imm16.zeroExtend 32) ∧
    CompletesX (exec (.mul ra rb rc) s) s ra (s.readX rb * s.readX rc) ∧
    CompletesX (exec (.mulSi ra rb imm16) s) s ra (s.readX rb * imm16.signExtend 32) ∧
    CompletesX (exec (.mulZi ra rb imm16) s) s ra (s.readX rb * imm16.zeroExtend 32) ∧
    CompletesX (exec (.mulu ra rb rc) s) s ra (s.readX rb * s.readX rc) ∧
    CompletesX (exec (.muluSi ra rb imm16) s) s ra (s.readX rb * imm16.signExtend 32) ∧
    CompletesX (exec (.muluZi ra rb imm16) s) s ra (s.readX rb * imm16.zeroExtend 32)

/-- The twelve divide and remainder instructions with a divisor that is not 0 write their result to
x[ra], advance and change nothing else (R122, R123, R144 to R155; D3, D5, D12). -/
def Obligations.DivideRemainderResults : Prop :=
  ∀ (ra rb rc : XReg) (imm16 : Half) (s : State),
    (s.readX rc ≠ 0 →
      CompletesX (exec (.div ra rb rc) s) s ra ((s.readX rb).sdiv (s.readX rc)) ∧
      CompletesX (exec (.divu ra rb rc) s) s ra (s.readX rb / s.readX rc) ∧
      CompletesX (exec (.mod ra rb rc) s) s ra ((s.readX rb).srem (s.readX rc)) ∧
      CompletesX (exec (.modu ra rb rc) s) s ra (s.readX rb % s.readX rc)) ∧
    (imm16 ≠ 0 →
      CompletesX (exec (.divSi ra rb imm16) s) s ra ((s.readX rb).sdiv (imm16.signExtend 32)) ∧
      CompletesX (exec (.divZi ra rb imm16) s) s ra ((s.readX rb).sdiv (imm16.zeroExtend 32)) ∧
      CompletesX (exec (.divuSi ra rb imm16) s) s ra (s.readX rb / imm16.signExtend 32) ∧
      CompletesX (exec (.divuZi ra rb imm16) s) s ra (s.readX rb / imm16.zeroExtend 32) ∧
      CompletesX (exec (.modSi ra rb imm16) s) s ra ((s.readX rb).srem (imm16.signExtend 32)) ∧
      CompletesX (exec (.modZi ra rb imm16) s) s ra ((s.readX rb).srem (imm16.zeroExtend 32)) ∧
      CompletesX (exec (.moduSi ra rb imm16) s) s ra (s.readX rb % imm16.signExtend 32) ∧
      CompletesX (exec (.moduZi ra rb imm16) s) s ra (s.readX rb % imm16.zeroExtend 32))

/-- R123: for a divisor that is not 0, `divu` writes the floor of the quotient and `modu` the
remainder of the unsigned readings: with them a = q * b + r and r < b, and neither overflows. The
spec's two examples follow the law. -/
def Obligations.UnsignedDivisionLaw : Prop :=
  (∀ (ra rb rc : XReg) (s : State), s.readX rc ≠ 0 →
    ∃ q r : Word, CompletesX (exec (.divu ra rb rc) s) s ra q ∧
      CompletesX (exec (.modu ra rb rc) s) s ra r ∧
      (s.readX rb).toNat = q.toNat * (s.readX rc).toNat + r.toNat ∧
      r.toNat < (s.readX rc).toNat) ∧
  divU 0xFFFFFFFF 2 = 0x7FFFFFFF ∧ modU 0xFFFFFFFF 2 = 1 ∧
  divU 7 0xFFFFFFFE = 0 ∧ modU 7 0xFFFFFFFE = 7

/-- The signed division law (R122, D12): for a divisor that is not 0, s(a) = q * s(b) + r with
|r| < |s(b)| and r zero or of the dividend's sign; `div` writes q and `mod` writes r modulo 2^32.
For -2^31 by -1 that is q = 2^31, written 0x80000000, and r = 0. -/
def Obligations.SignedDivisionLaw : Prop :=
  (∀ (ra rb rc : XReg) (s : State), s.readX rc ≠ 0 →
    ∃ q r : Int, CompletesX (exec (.div ra rb rc) s) s ra (wrap32 q) ∧
      CompletesX (exec (.mod ra rb rc) s) s ra (wrap32 r) ∧
      sval (s.readX rb) = q * sval (s.readX rc) + r ∧
      r.natAbs < (sval (s.readX rc)).natAbs ∧
      (r = 0 ∨ (0 < r ↔ 0 < sval (s.readX rb)))) ∧
  divS 0x80000000 0xFFFFFFFF = 0x80000000 ∧ modS 0x80000000 0xFFFFFFFF = 0

/-! ## Shifts, bitwise and relational operations -/

/-- The six shifts (R160 to R166; D5, D11): the amount is the low 5 bits of x[rc] or of the
immediate; `sra` copies bit 31. -/
def Obligations.ShiftResults : Prop :=
  ∀ (ra rb rc : XReg) (imm16 : Half) (s : State),
    CompletesX (exec (.sll ra rb rc) s) s ra (s.readX rb <<< ((s.readX rc).toNat % 32)) ∧
    CompletesX (exec (.srl ra rb rc) s) s ra (s.readX rb >>> ((s.readX rc).toNat % 32)) ∧
    CompletesX (exec (.sra ra rb rc) s) s ra
      ((s.readX rb).sshiftRight ((s.readX rc).toNat % 32)) ∧
    CompletesX (exec (.slli ra rb imm16) s) s ra (s.readX rb <<< (imm16.toNat % 32)) ∧
    CompletesX (exec (.srli ra rb imm16) s) s ra (s.readX rb >>> (imm16.toNat % 32)) ∧
    CompletesX (exec (.srai ra rb imm16) s) s ra ((s.readX rb).sshiftRight (imm16.toNat % 32))

/-- The four bitwise operations (R167 to R170; D5): bit k of the result from bit k of the
operands. -/
def Obligations.BitwiseResults : Prop :=
  ∀ (ra rb rc : XReg) (s : State),
    (∃ v : Word, CompletesX (exec (.and ra rb rc) s) s ra v ∧
      ∀ k, v.getLsbD k = ((s.readX rb).getLsbD k && (s.readX rc).getLsbD k)) ∧
    (∃ v : Word, CompletesX (exec (.or ra rb rc) s) s ra v ∧
      ∀ k, v.getLsbD k = ((s.readX rb).getLsbD k || (s.readX rc).getLsbD k)) ∧
    (∃ v : Word, CompletesX (exec (.xor ra rb rc) s) s ra v ∧
      ∀ k, v.getLsbD k = ((s.readX rb).getLsbD k ^^ (s.readX rc).getLsbD k)) ∧
    ∃ v : Word, CompletesX (exec (.not ra rb) s) s ra v ∧
      ∀ k, k < 32 → v.getLsbD k = !((s.readX rb).getLsbD k)

/-- Each relational operation (R172 to R181), at its reference opcode (D1, log 1) in R-format,
writes exactly 1 when its relation holds and 0 when it does not, advances and changes nothing else
(operand roles D5). -/
def Obligations.RelationalResults : Prop :=
  DecodesTo 0x40 (fun w => .eq (fieldRa w) (fieldRb w) (fieldRc w)) ∧
  DecodesTo 0x41 (fun w => .ne (fieldRa w) (fieldRb w) (fieldRc w)) ∧
  DecodesTo 0x42 (fun w => .lt (fieldRa w) (fieldRb w) (fieldRc w)) ∧
  DecodesTo 0x43 (fun w => .ltu (fieldRa w) (fieldRb w) (fieldRc w)) ∧
  DecodesTo 0x44 (fun w => .gt (fieldRa w) (fieldRb w) (fieldRc w)) ∧
  DecodesTo 0x45 (fun w => .gtu (fieldRa w) (fieldRb w) (fieldRc w)) ∧
  DecodesTo 0x46 (fun w => .le (fieldRa w) (fieldRb w) (fieldRc w)) ∧
  DecodesTo 0x47 (fun w => .leu (fieldRa w) (fieldRb w) (fieldRc w)) ∧
  DecodesTo 0x48 (fun w => .ge (fieldRa w) (fieldRb w) (fieldRc w)) ∧
  DecodesTo 0x49 (fun w => .geu (fieldRa w) (fieldRb w) (fieldRc w)) ∧
  ∀ (ra rb rc : XReg) (s : State),
    CompletesX (exec (.eq ra rb rc) s) s ra (if s.readX rb = s.readX rc then 1 else 0) ∧
    CompletesX (exec (.ne ra rb rc) s) s ra (if s.readX rb = s.readX rc then 0 else 1) ∧
    CompletesX (exec (.lt ra rb rc) s) s ra
      (if sval (s.readX rb) < sval (s.readX rc) then 1 else 0) ∧
    CompletesX (exec (.ltu ra rb rc) s) s ra
      (if (s.readX rb).toNat < (s.readX rc).toNat then 1 else 0) ∧
    CompletesX (exec (.gt ra rb rc) s) s ra
      (if sval (s.readX rb) > sval (s.readX rc) then 1 else 0) ∧
    CompletesX (exec (.gtu ra rb rc) s) s ra
      (if (s.readX rb).toNat > (s.readX rc).toNat then 1 else 0) ∧
    CompletesX (exec (.le ra rb rc) s) s ra
      (if sval (s.readX rb) ≤ sval (s.readX rc) then 1 else 0) ∧
    CompletesX (exec (.leu ra rb rc) s) s ra
      (if (s.readX rb).toNat ≤ (s.readX rc).toNat then 1 else 0) ∧
    CompletesX (exec (.ge ra rb rc) s) s ra
      (if sval (s.readX rb) ≥ sval (s.readX rc) then 1 else 0) ∧
    CompletesX (exec (.geu ra rb rc) s) s ra
      (if (s.readX rb).toNat ≥ (s.readX rc).toNat then 1 else 0)

/-! ## Control transfer -/

/-- The five branches (R200 to R205; BRANCH_SCALE is the reference 1, D8, log 2): the branch's own
address plus the sign-extended displacement when the relation holds, pc + 4 when it does not;
nothing else changes. -/
def Obligations.BranchTargets : Prop :=
  ∀ (ra rb : XReg) (imm16 : Half) (s : State),
    CompletesJump (exec (.b imm16) s) s (s.pc + imm16.signExtend 32) ∧
    CompletesJump (exec (.beq ra rb imm16) s) s
      (if s.readX ra = s.readX rb then s.pc + imm16.signExtend 32 else s.pc + 4) ∧
    CompletesJump (exec (.bne ra rb imm16) s) s
      (if s.readX ra = s.readX rb then s.pc + 4 else s.pc + imm16.signExtend 32) ∧
    CompletesJump (exec (.blt ra rb imm16) s) s
      (if sval (s.readX ra) < sval (s.readX rb) then s.pc + imm16.signExtend 32 else s.pc + 4) ∧
    CompletesJump (exec (.bgt ra rb imm16) s) s
      (if sval (s.readX ra) > sval (s.readX rb) then s.pc + imm16.signExtend 32 else s.pc + 4)

/-- `j` keeps the top 6 bits of its own address, takes the immediate as the next 24 and ends in two
zeros (R206, R90, D10); `jr` goes to any value of its register (R207, R210, D5, D25). -/
def Obligations.JumpTargets : Prop :=
  (∀ (imm24 : BitVec 24) (s : State), ∃ a : Word, CompletesJump (exec (.j imm24) s) s a ∧
    a.extractLsb' 26 6 = s.pc.extractLsb' 26 6 ∧ a.extractLsb' 2 24 = imm24 ∧
    a.extractLsb' 0 2 = 0) ∧
  ∀ (ra : XReg) (s : State), CompletesJump (exec (.jr ra) s) s (s.readX ra)

/-- `call` stores pc + 4 in the four bytes at SP - 4, makes that the SP, and goes to x[ra] as it was
before (R208; D14 and log 4 for the step, D15 for the order). -/
def Obligations.CallPushesTheReturnAddress : Prop :=
  ∀ (ra : XReg) (s : State),
    ∃ t, exec (.call ra) s = .next t ∧ t.pc = s.readX ra ∧
      t.readX regSP = s.readX regSP - 4 ∧
      BytesAt t (s.readX regSP - 4) 4 (s.pc + 4).toNat ∧
      Frame [regSP] [] (some (s.readX regSP - 4, 4)) s t

/-- `ret` goes to the word at SP, little-endian, and moves SP up by 4; nothing else changes (R209;
D14, log 4). -/
def Obligations.ReturnPopsTheAddress : Prop :=
  ∀ s : State,
    ∃ t, exec .ret s = .next t ∧
      t.pc = s.readByte (s.readX regSP + 3) ++ s.readByte (s.readX regSP + 2) ++
        s.readByte (s.readX regSP + 1) ++ s.readByte (s.readX regSP) ∧
      t.readX regSP = s.readX regSP + 4 ∧ Frame [regSP] [] none s t

/-- A `ret` at the target of a `call` comes back to the instruction after the call, with every
register as it was and memory changed in the pushed word alone (R208, R209, their worked round
trip; D14, log 4). -/
def Obligations.CallThenReturnComesBack : Prop :=
  ∀ (ra : XReg) (s : State),
    ∃ t u, exec (.call ra) s = .next t ∧ exec .ret t = .next u ∧ u.pc = s.pc + 4 ∧
      Frame [] [] (some (s.readX regSP - 4, 4)) s u

/-! ## Loads, stores and the stack -/

/-- `lw`, `lh`, `lb` and `sw` (R230 to R234, R236; D5, D13, D21): base plus sign-extended offset,
any alignment; the narrow loads widen with zeros, the reference value of NARROW_LOAD_EXT (log 3).
-/
def Obligations.IntegerLoadsAndWordStore : Prop :=
  ∀ (ra rb : XReg) (imm16 : Half) (s : State) (ea : Word),
    ea = s.readX rb + imm16.signExtend 32 →
    CompletesX (exec (.lw ra rb imm16) s) s ra
      (s.readByte (ea + 3) ++ s.readByte (ea + 2) ++ s.readByte (ea + 1) ++ s.readByte ea) ∧
    CompletesX (exec (.lh ra rb imm16) s) s ra
      (0#16 ++ s.readByte (ea + 1) ++ s.readByte ea) ∧
    CompletesX (exec (.lb ra rb imm16) s) s ra (0#24 ++ s.readByte ea) ∧
    CompletesStore (exec (.sw ra rb imm16) s) s ea 4 (s.readX ra).toNat

/-- `lf` copies the eight bytes at the effective address as a pattern, `sh` and `sb` store the low
16 and 8 bits of x[ra], `sf` stores f[ra]'s pattern (R235, R237 to R239); each at its reference
opcode (D1, log 1) in I-format, each changing nothing else; the effective address is modulo 2^32
(D5, D21). -/
def Obligations.FloatLoadAndNarrowStores : Prop :=
  DecodesTo 0x63 (fun w => .lf (fieldRa w) (fieldRb w) (fieldImm16 w)) ∧
  DecodesTo 0x65 (fun w => .sh (fieldRa w) (fieldRb w) (fieldImm16 w)) ∧
  DecodesTo 0x66 (fun w => .sb (fieldRa w) (fieldRb w) (fieldImm16 w)) ∧
  DecodesTo 0x67 (fun w => .sf (fieldRa w) (fieldRb w) (fieldImm16 w)) ∧
  ∀ (ra rb : XReg) (fa : FReg) (imm16 : Half) (s : State) (ea : Word),
    ea = s.readX rb + imm16.signExtend 32 →
    CompletesF (exec (.lf fa rb imm16) s) s fa
      (s.readByte (ea + 7) ++ s.readByte (ea + 6) ++ s.readByte (ea + 5) ++ s.readByte (ea + 4) ++
        s.readByte (ea + 3) ++ s.readByte (ea + 2) ++ s.readByte (ea + 1) ++ s.readByte ea) ∧
    CompletesStore (exec (.sh ra rb imm16) s) s ea 2 ((s.readX ra).toNat % 2 ^ 16) ∧
    CompletesStore (exec (.sb ra rb imm16) s) s ea 1 ((s.readX ra).toNat % 2 ^ 8) ∧
    CompletesStore (exec (.sf fa rb imm16) s) s ea 8 (s.readF fa).toNat

/-- `li` writes the sign-extended and `liu` the zero-extended immediate (R240, R241), each at its
reference opcode (D1, log 1) in I-format with rb ignored; 0x8000 gives 0xFFFF8000 with `li`, and
what `liu` writes is always 0 to 65535. -/
def Obligations.LoadImmediates : Prop :=
  DecodesTo 0x68 (fun w => .li (fieldRa w) (fieldImm16 w)) ∧
  DecodesTo 0x69 (fun w => .liu (fieldRa w) (fieldImm16 w)) ∧
  (∀ (ra : XReg) (imm16 : Half) (s : State),
    CompletesX (exec (.li ra imm16) s) s ra (wrap32 imm16.toInt) ∧
    CompletesX (exec (.liu ra imm16) s) s ra (BitVec.ofNat 32 imm16.toNat) ∧
    (BitVec.ofNat 32 imm16.toNat).toNat ≤ 65535) ∧
  wrap32 (0x8000 : Half).toInt = 0xFFFF8000

/-- `lui` puts the immediate in the upper half and zeros in the lower (R242, D16). -/
def Obligations.LoadUpperImmediate : Prop :=
  ∀ (ra : XReg) (imm16 : Half) (s : State),
    ∃ v : Word, CompletesX (exec (.lui ra imm16) s) s ra v ∧ v.extractLsb' 16 16 = imm16 ∧
      v.extractLsb' 0 16 = 0

/-- The four pushes (R245, R250 to R253; the step is the width, D14, log 4; the data is read before
SP moves, D15, so `push_w r12` stores the old SP). -/
def Obligations.PushesStoreBelowTheStackPointer : Prop :=
  ∀ (ra : XReg) (fa : FReg) (s : State),
    CompletesPush (exec (.pushW ra) s) s 4 4 (s.readX ra).toNat ∧
    CompletesPush (exec (.pushH ra) s) s 2 2 ((s.readX ra).toNat % 2 ^ 16) ∧
    CompletesPush (exec (.pushB ra) s) s 1 1 ((s.readX ra).toNat % 2 ^ 8) ∧
    CompletesPush (exec (.pushF fa) s) s 8 8 (s.readF fa).toNat

/-- The four pops (R245, R254 to R257; D14, log 4; narrow pops widen with zeros, D13, log 3; the
destination is written last, D15, so `pop_w r12` leaves the loaded word in SP). -/
def Obligations.PopsLoadAtTheStackPointer : Prop :=
  ∀ (ra : XReg) (fa : FReg) (s : State) (sp : Word), sp = s.readX regSP →
    CompletesPopX (exec (.popW ra) s) s ra 4
      (s.readByte (sp + 3) ++ s.readByte (sp + 2) ++ s.readByte (sp + 1) ++ s.readByte sp) ∧
    CompletesPopX (exec (.popH ra) s) s ra 2
      (0#16 ++ s.readByte (sp + 1) ++ s.readByte sp) ∧
    CompletesPopX (exec (.popB ra) s) s ra 1 (0#24 ++ s.readByte sp) ∧
    CompletesPopF (exec (.popF fa) s) s fa 8
      (s.readByte (sp + 7) ++ s.readByte (sp + 6) ++ s.readByte (sp + 5) ++ s.readByte (sp + 4) ++
        s.readByte (sp + 3) ++ s.readByte (sp + 2) ++ s.readByte (sp + 1) ++ s.readByte sp)

/-- A push followed by a pop of the same width gives the pushed value back and restores SP, unless
the pop's destination is SP itself (R245; D14, D15, log 3, log 4). -/
def Obligations.PopUndoesPush : Prop :=
  ∀ (ra rd : XReg) (fa fd : FReg) (s : State), rd ≠ regSP →
    (∃ t u, exec (.pushW ra) s = .next t ∧ exec (.popW rd) t = .next u ∧
      u.readX rd = s.readX ra ∧ u.readX regSP = s.readX regSP) ∧
    (∃ t u, exec (.pushH ra) s = .next t ∧ exec (.popH rd) t = .next u ∧
      u.readX rd = (s.readX ra) &&& 0xFFFF ∧ u.readX regSP = s.readX regSP) ∧
    (∃ t u, exec (.pushB ra) s = .next t ∧ exec (.popB rd) t = .next u ∧
      u.readX rd = (s.readX ra) &&& 0xFF ∧ u.readX regSP = s.readX regSP) ∧
    ∃ t u, exec (.pushF fa) s = .next t ∧ exec (.popF fd) t = .next u ∧
      u.readF fd = s.readF fa ∧ u.readX regSP = s.readX regSP

/-! ## The float unit -/

/-- `itof` and `utof` are exact: f[ra] holds the integer itself, 0 as +0.0 (R273, R274; D5; the
result is given in units of 2^-1074). -/
def Obligations.IntegerToFloatIsExact : Prop :=
  ∀ (ra : FReg) (rb : XReg) (s : State),
    (∃ p, CompletesF (exec (.itof ra rb) s) s ra p ∧
      toFVal p = .fin (decide (sval (s.readX rb) < 0))
        ((sval (s.readX rb)).natAbs * 2 ^ 1074)) ∧
    ∃ p, CompletesF (exec (.utof ra rb) s) s ra p ∧
      toFVal p = .fin false ((s.readX rb).toNat * 2 ^ 1074)

/-- `ftoi` rounds toward minus infinity (R272, R275; D17): for a finite value whose floor n is an
int32, x[ra] is n; for another finite value n modulo 2^32, and for a NaN or an infinity 0, the
reference value of FTOI_OOR (log 5). -/
def Obligations.FloatToIntegerIsFloor : Prop :=
  ∀ (ra : XReg) (rb : FReg) (s : State),
    (isFinitePattern (s.readF rb) →
      ∃ n : Int, n * 2 ^ 1074 ≤ valueOf (s.readF rb) ∧
        valueOf (s.readF rb) < (n + 1) * 2 ^ 1074 ∧
        CompletesX (exec (.ftoi ra rb) s) s ra (wrap32 n) ∧
        (-(2 ^ 31) ≤ n ∧ n ≤ 2 ^ 31 - 1 → sval (wrap32 n) = n)) ∧
    (¬isFinitePattern (s.readF rb) → CompletesX (exec (.ftoi ra rb) s) s ra 0)

/-- The seven float arithmetic instructions never fault: each writes its operation's pattern to
f[ra], advances and changes nothing else (R277 to R283; D5). What the operations give is said by
the statements after this one. -/
def Obligations.FloatArithmeticCompletes : Prop :=
  ∀ (ra rb rc : FReg) (s : State),
    CompletesF (exec (.fadd ra rb rc) s) s ra
      (fadd64 params.nanPayload (s.readF rb) (s.readF rc)) ∧
    CompletesF (exec (.fsub ra rb rc) s) s ra
      (fsub64 params.nanPayload (s.readF rb) (s.readF rc)) ∧
    CompletesF (exec (.fmul ra rb rc) s) s ra
      (fmul64 params.nanPayload (s.readF rb) (s.readF rc)) ∧
    CompletesF (exec (.fdiv ra rb rc) s) s ra
      (fdiv64 params.nanPayload (s.readF rb) (s.readF rc)) ∧
    CompletesF (exec (.fmod ra rb rc) s) s ra
      (fmod64 params.nanPayload (s.readF rb) (s.readF rc)) ∧
    CompletesF (exec (.ffloor ra rb) s) s ra (ffloor64 params.nanPayload (s.readF rb)) ∧
    CompletesF (exec (.fceil ra rb) s) s ra (fceil64 params.nanPayload (s.readF rb))

/-- On finite operands (and a divisor that is not a zero) the sum, difference, product and quotient
are the exact result rounded to the nearest pattern, ties to even, an infinity past the largest
finite number (R270, R277 to R280; D18). The exact result is given as a quotient of units of
2^-1074; the sign of a zero, of a sum or difference as of a product or quotient, is log 12's. -/
def Obligations.FloatResultsAreCorrectlyRounded : Prop :=
  ∀ (ra rb rc : FReg) (s : State) (a b : Pattern), a = s.readF rb → b = s.readF rc →
    isFinitePattern a → isFinitePattern b →
    (∃ neg m, CompletesF (exec (.fadd ra rb rc) s) s ra (packFloat neg m) ∧
      NearestEven (valueOf a + valueOf b).natAbs 1 m ∧
      (valueOf a + valueOf b ≠ 0 → neg = decide (valueOf a + valueOf b < 0))) ∧
    (∃ neg m, CompletesF (exec (.fsub ra rb rc) s) s ra (packFloat neg m) ∧
      NearestEven (valueOf a - valueOf b).natAbs 1 m ∧
      (valueOf a - valueOf b ≠ 0 → neg = decide (valueOf a - valueOf b < 0))) ∧
    (∃ m, CompletesF (exec (.fmul ra rb rc) s) s ra
        (packFloat (signField a ^^ signField b) m) ∧
      NearestEven (unitsOfPattern a * unitsOfPattern b) (2 ^ 1074) m) ∧
    (unitsOfPattern b ≠ 0 →
      ∃ m, CompletesF (exec (.fdiv ra rb rc) s) s ra
          (packFloat (signField a ^^ signField b) m) ∧
        NearestEven (unitsOfPattern a * 2 ^ 1074) (unitsOfPattern b) m)

/-- The special cases R270, R271 and R277 to R281 quote (from the IEEE 754 standard, log 12; the NaN
written is NAN_PAYLOAD, D18, log 6). -/
def Obligations.FloatSpecialCases : Prop :=
  ∀ (ra rb rc : FReg) (s : State) (a b : Pattern), a = s.readF rb → b = s.readF rc →
    (isNaNPattern a = true ∨ isNaNPattern b = true →
      CompletesF (exec (.fadd ra rb rc) s) s ra params.nanPayload ∧
      CompletesF (exec (.fsub ra rb rc) s) s ra params.nanPayload ∧
      CompletesF (exec (.fmul ra rb rc) s) s ra params.nanPayload ∧
      CompletesF (exec (.fdiv ra rb rc) s) s ra params.nanPayload ∧
      CompletesF (exec (.fmod ra rb rc) s) s ra params.nanPayload) ∧
    (isNaNPattern a = true →
      CompletesF (exec (.ffloor ra rb) s) s ra params.nanPayload ∧
      CompletesF (exec (.fceil ra rb) s) s ra params.nanPayload) ∧
    (isInfPattern a → isInfPattern b →
      CompletesF (exec (.fadd ra rb rc) s) s ra
        (if signField a = signField b then a else params.nanPayload) ∧
      CompletesF (exec (.fsub ra rb rc) s) s ra
        (if signField a = signField b then params.nanPayload else a) ∧
      CompletesF (exec (.fmul ra rb rc) s) s ra
        (packFloat (signField a ^^ signField b) infMag) ∧
      CompletesF (exec (.fdiv ra rb rc) s) s ra params.nanPayload) ∧
    (isInfPattern a → isFinitePattern b →
      CompletesF (exec (.fadd ra rb rc) s) s ra a ∧
      CompletesF (exec (.fsub ra rb rc) s) s ra a ∧
      CompletesF (exec (.fmul ra rb rc) s) s ra
        (if unitsOfPattern b = 0 then params.nanPayload
         else packFloat (signField a ^^ signField b) infMag) ∧
      CompletesF (exec (.fdiv ra rb rc) s) s ra
        (packFloat (signField a ^^ signField b) infMag)) ∧
    (isInfPattern a → CompletesF (exec (.fmod ra rb rc) s) s ra params.nanPayload) ∧
    (isFinitePattern a → isInfPattern b →
      CompletesF (exec (.fadd ra rb rc) s) s ra b ∧
      CompletesF (exec (.fsub ra rb rc) s) s ra (packFloat (!(signField b)) infMag) ∧
      CompletesF (exec (.fmul ra rb rc) s) s ra
        (if unitsOfPattern a = 0 then params.nanPayload
         else packFloat (signField a ^^ signField b) infMag) ∧
      CompletesF (exec (.fdiv ra rb rc) s) s ra (packFloat (signField a ^^ signField b) 0) ∧
      CompletesF (exec (.fmod ra rb rc) s) s ra a) ∧
    (isFinitePattern a → isFinitePattern b → unitsOfPattern b = 0 →
      CompletesF (exec (.fdiv ra rb rc) s) s ra
        (if unitsOfPattern a = 0 then params.nanPayload
         else packFloat (signField a ^^ signField b) infMag) ∧
      CompletesF (exec (.fmod ra rb rc) s) s ra params.nanPayload) ∧
    (isFinitePattern a → isFinitePattern b →
      (valueOf a + valueOf b = 0 →
        CompletesF (exec (.fadd ra rb rc) s) s ra (packFloat (signField a && signField b) 0)) ∧
      (valueOf a - valueOf b = 0 →
        CompletesF (exec (.fsub ra rb rc) s) s ra
          (packFloat (signField a && !(signField b)) 0))) ∧
    (isFinitePattern a → CompletesF (exec (.fsub ra rb rb) s) s ra 0)

/-- `fmod` of finite operands is exact: the dividend less the truncated quotient times the divisor,
below the divisor, with the dividend's sign (R281, D19; the sign of a zero result is log 12's). -/
def Obligations.FloatRemainderIsExact : Prop :=
  ∀ (ra rb rc : FReg) (s : State) (a b : Pattern), a = s.readF rb → b = s.readF rc →
    isFinitePattern a → isFinitePattern b → unitsOfPattern b ≠ 0 →
    ∃ p, CompletesF (exec (.fmod ra rb rc) s) s ra p ∧ isFinitePattern p ∧
      signField p = signField a ∧ unitsOfPattern p < unitsOfPattern b ∧
      valueOf p = valueOf a - Int.tdiv (valueOf a) (valueOf b) * valueOf b

/-- `ffloor` and `fceil` of a finite operand: the largest integer not above it and the smallest not
below it, exact (R282, R283; D5). That the result has the operand's sign where it is a zero (the
floor of -0.0, the ceiling of -0.5), and that an infinity is returned unchanged, is IEEE 754's
(R270, log 12). -/
def Obligations.FloorAndCeilingAreExact : Prop :=
  ∀ (ra rb : FReg) (s : State) (a : Pattern), a = s.readF rb →
    (isFinitePattern a →
      (∃ (p : Pattern) (n : Int), CompletesF (exec (.ffloor ra rb) s) s ra p ∧
        isFinitePattern p ∧ signField p = signField a ∧ valueOf p = n * 2 ^ 1074 ∧
        valueOf p ≤ valueOf a ∧ valueOf a < valueOf p + 2 ^ 1074) ∧
      ∃ (p : Pattern) (n : Int), CompletesF (exec (.fceil ra rb) s) s ra p ∧
        isFinitePattern p ∧ signField p = signField a ∧ valueOf p = n * 2 ^ 1074 ∧
        valueOf a ≤ valueOf p ∧ valueOf p < valueOf a + 2 ^ 1074) ∧
    (isInfPattern a →
      CompletesF (exec (.ffloor ra rb) s) s ra a ∧ CompletesF (exec (.fceil ra rb) s) s ra a)

/-- The six float comparisons write exactly 1 or 0 to x[ra] (R284 to R290, D20): on finite operands
by value, so the two zeros are equal; with a NaN operand 0, and 1 for `fne`; -Inf below and +Inf
above every finite value. -/
def Obligations.FloatComparisons : Prop :=
  ∀ (ra : XReg) (rb rc : FReg) (s : State) (a b : Pattern), a = s.readF rb → b = s.readF rc →
    (∃ eq lt gt : Bool,
      CompletesX (exec (.feq ra rb rc) s) s ra (bool32 eq) ∧
      CompletesX (exec (.fne ra rb rc) s) s ra (bool32 (!eq)) ∧
      CompletesX (exec (.flt ra rb rc) s) s ra (bool32 lt) ∧
      CompletesX (exec (.fgt ra rb rc) s) s ra (bool32 gt) ∧
      CompletesX (exec (.fle ra rb rc) s) s ra (bool32 (lt || eq)) ∧
      CompletesX (exec (.fge ra rb rc) s) s ra (bool32 (gt || eq)) ∧
      (isNaNPattern a = true ∨ isNaNPattern b = true →
        eq = false ∧ lt = false ∧ gt = false) ∧
      (isFinitePattern a → isFinitePattern b →
        eq = decide (valueOf a = valueOf b) ∧ lt = decide (valueOf a < valueOf b) ∧
        gt = decide (valueOf a > valueOf b)) ∧
      (isInfPattern a → isFinitePattern b →
        eq = false ∧ lt = signField a ∧ gt = !(signField a)) ∧
      (isFinitePattern a → isInfPattern b →
        eq = false ∧ lt = !(signField b) ∧ gt = signField b) ∧
      (isInfPattern a → isInfPattern b →
        eq = decide (a = b) ∧ lt = (signField a && !(signField b)) ∧
        gt = (!(signField a) && signField b)))

/-! ## System instructions and whole-machine rules -/

/-- `nop` only advances; `halt` advances and halts; `putc` appends the low byte of x[ra] to the
output and advances (R310 to R312; D5, D7, D24, D28). -/
def Obligations.SystemInstructions : Prop :=
  ∀ (ra : XReg) (s : State),
    exec .nop s = .next { s with pc := s.pc + 4 } ∧
    exec .halt s = .next { s with pc := s.pc + 4, run := .halted } ∧
    exec (.putc ra) s =
      .next { s with pc := s.pc + 4, out := s.out ++ [(s.readX ra).extractLsb' 0 8] }

/-- The frame of every instruction: no integer register but its destinations (and SP for the stack
instructions), no float register but its destination, no byte but those its store covers, and no
output but `putc`'s one byte (R93, R102, R245, R310; D5, D14, D15, D28, log 4). -/
def Obligations.EveryInstructionKeepsItsFrame : Prop :=
  ∀ (i : Instr) (s t : State), exec i s = .next t →
    (∀ r, r ∉ xDests i → t.readX r = s.readX r) ∧
    (∀ r, r ∉ fDests i → t.readF r = s.readF r) ∧
    (∀ b, (∀ a n, storeRange s i = some (a, n) → OutsideBytes a n b) →
      t.readByte b = s.readByte b) ∧
    ((∀ r, i ≠ .putc r) → t.out = s.out) ∧
    ∀ r, i = .putc r → t.out = s.out ++ [(s.readX r).extractLsb' 0 8]

/-- The control-transfer policy belongs to the mnemonic (R97, R103, D22): an instruction of the
advance policy that does not fault ends at pc + 4, modulo 2^32; one that faults leaves pc. -/
def Obligations.AdvancePolicyMovesPcByFour : Prop :=
  ∀ (i : Instr) (s t : State), i.mnemonic.pcPolicy = .advance → exec i s = .next t →
    t.pc = if divisorOf s i = some 0 then s.pc else s.pc + 4

/-! ## The host boundary -/

/-- Host accesses to the registers and the pc (R340, R341, R344, R347; D18, D33, D35, D36).
Integers, one or any subset: values in range are written and read back, and no other register
changes; a value out of range is refused with nothing changed. Floats: a pattern is stored bit for
bit, a value as its pattern, a NaN value as NAN_PAYLOAD (log 11). An index outside [0,15] performs
no write and ends a running machine with the record (IndexFault, pc, first such index), also where
a value is out of range (log 10); a machine that has ended keeps its state (log 9). pc reads back
as written, nothing else changed. -/
def Obligations.HostRegisterAccesses : Prop :=
  (∀ (s : State) (i v : Int) (signed : Bool), indexOk i = true → valueOk signed v = true →
    ∃ t, s.setInt i v signed = .done () t ∧ t.getInt i signed = .done v t ∧
      t = s.writeX (regIndex i) (wrap32 v)) ∧
  (∀ (s : State) (ws : List (Int × Int)) (signed : Bool),
    (∀ p ∈ ws, indexOk p.1 = true ∧ valueOk signed p.2 = true) → (ws.map Prod.fst).Nodup →
    ∃ t, s.setInts ws signed = .done () t ∧
      t.getInts (ws.map Prod.fst) signed = .done (ws.map Prod.snd) t ∧
      (∀ p ∈ ws, t.readX (regIndex p.1) = wrap32 p.2) ∧
      (∀ r, (∀ p ∈ ws, regIndex p.1 ≠ r) → t.readX r = s.readX r) ∧
      t.f = s.f ∧ t.pc = s.pc ∧ t.mem = s.mem ∧ t.run = s.run ∧ t.out = s.out) ∧
  (∀ (s : State) (is : List Int) (signed : Bool), (∀ i ∈ is, indexOk i = true) →
    s.getInts is signed = .done (is.map fun i =>
      if signed then (s.readX (regIndex i)).toInt else ((s.readX (regIndex i)).toNat : Int)) s) ∧
  (∀ (s : State) (ws : List (Int × Int)) (signed : Bool), (∀ p ∈ ws, indexOk p.1 = true) →
    (∃ p ∈ ws, valueOk signed p.2 = false) → s.setInts ws signed = .refused s) ∧
  (∀ (s : State) (i : Int) (p : Pattern), indexOk i = true →
    (∃ t, s.setFloat i (.pattern p) = .done () t ∧ t.getFloat i = .done p t ∧
      t = s.writeF (regIndex i) p) ∧
    (isNaNPattern p = false →
      s.setFloat i (.value (toFVal p)) = .done () (s.writeF (regIndex i) p)) ∧
    s.setFloat i (.value .nan) = .done () (s.writeF (regIndex i) params.nanPayload)) ∧
  (∀ (s t : State) (i v : Int) (pre post : List (Int × Int)) (signed : Bool) (d : HostFloat),
    indexOk i = false → (∀ p ∈ pre, indexOk p.1 = true) →
    t = (if s.run = .running then { s with run := .faulted .indexFault s.pc (wrap32 i) } else s) →
    s.setInts (pre ++ (i, v) :: post) signed = .indexFault t ∧
    s.getInts ((pre ++ (i, v) :: post).map Prod.fst) signed = .indexFault t ∧
    s.setInt i v signed = .indexFault t ∧ s.getInt i signed = .indexFault t ∧
    s.setFloat i d = .indexFault t ∧ s.getFloat i = .indexFault t) ∧
  ∀ (s : State) (a : Word), s.getPC = s.pc ∧ (s.setPC a).getPC = a ∧ s.setPC a = { s with pc := a }

/-- The loader puts byte k of the sequence at base + k modulo 2^32 and changes nothing else (R342,
D21), for a sequence that does not wrap onto itself. -/
def Obligations.LoaderPlacesTheBytes : Prop :=
  ∀ (s : State) (bytes : List Byte) (base : Word),
    (s.load bytes base).x = s.x ∧ (s.load bytes base).f = s.f ∧ (s.load bytes base).pc = s.pc ∧
    (s.load bytes base).run = s.run ∧ (s.load bytes base).out = s.out ∧
    (∀ b, OutsideBytes base bytes.length b → (s.load bytes base).readByte b = s.readByte b) ∧
    (bytes.length ≤ 2 ^ 32 → ∀ (k : Nat) (hk : k < bytes.length),
      (s.load bytes base).readByte (base + BitVec.ofNat 32 k) = bytes[k])

/-- Stepping on the word that stands at pc is the fetched step; and a word the host supplies does
what its own instruction does, whatever stands at pc, a fault record naming the supplied word
(R343, D31, log 8). -/
def Obligations.SuppliedWordStepsLikeAFetchedOne : Prop :=
  (∀ s : State, stepWord s.fetchWord s = Machine.step s) ∧
  ∀ (w : Word) (i : Instr) (s : State), s.run = .running → decodeWord w = .ok i →
    (divisorOf s i ≠ some 0 → stepWord w s = exec i s) ∧
    (divisorOf s i = some 0 → FaultsWith (stepWord w s) s .arithmeticFault w)

/-- A run ends in exactly one of three ways (R348, R354): halted, faulted, or still running because
the harness asked for no further step; and a run of m + n steps is a run of m continued by n. -/
def Obligations.RunLoopEndings : Prop :=
  (∀ (n : Nat) (s : State), s.run = .running →
    (runLoop n s).run = .halted ∨ (∃ k p w, (runLoop n s).run = .faulted k p w) ∨
      ((runLoop n s).run = .running ∧ Host.Core.run core n s = .next (runLoop n s))) ∧
  ∀ (m n : Nat) (s : State), runLoop (m + n) s = runLoop n (runLoop m s)

/-- Every element of the state after reset (R35, R350; D27 for the float patterns, D28 for the
output), whatever the state before. -/
def Obligations.ResetState : Prop :=
  ∀ s : State, hostReset s = State.reset ∧ (∀ r, State.reset.readX r = 0) ∧
    (∀ r, State.reset.readF r = 0) ∧ State.reset.pc = 0 ∧ (∀ a, State.reset.readByte a = 0) ∧
    State.reset.run = .running ∧ State.reset.out = []

/-- A word placed where the next step fetches is the instruction that step runs (R60, R100; log
13). -/
def Obligations.PlacedWordRunsNext : Prop :=
  ∀ (s : State) (w : Word) (i : Instr), decodeWord w = .ok i →
    (s.withFetchWord 32 w.toNat).fetchWord = w ∧
    Machine.step (s.withFetchWord 32 w.toNat) = exec i (s.withFetchWord 32 w.toNat)

/-- The reference values of the parameters (R6: D1, D8, D13, D14, D17, D18; log 1 to 6), which are
legal ones; and the machine under them is the one `step` and the host operations run. -/
def Obligations.ReferenceParameters : Prop :=
  params.wellFormed = true ∧ params.branchScale = 1 ∧ params.narrowLoadExt = .zero ∧
  params.nanPayload = 0x7FF8000000000000 ∧
  params.stackStep .pushW = 4 ∧ params.stackStep .popW = 4 ∧
  params.stackStep .pushH = 2 ∧ params.stackStep .popH = 2 ∧
  params.stackStep .pushB = 1 ∧ params.stackStep .popB = 1 ∧
  params.stackStep .pushF = 8 ∧ params.stackStep .popF = 8 ∧
  params.stackStep .call = 4 ∧ params.stackStep .ret = 4 ∧
  params.ftoiOor .nan = 0 ∧ (∀ n, params.ftoiOor (.inf n) = 0) ∧
  (∀ n k, params.ftoiOor (.fin n k) = wrap32 (floorInt n k)) ∧
  reference.wellFormed = true ∧ reference.map = opcodeMap ∧ reference.params = params ∧
  (∀ s, stepWith reference s = Machine.step s) ∧
  (∀ w s, stepWordWith reference w s = stepWord w s) ∧
  (∀ n s, runLoopWith reference n s = runLoop n s) ∧
  ∀ (s : State) (i : Int) (d : HostFloat),
    s.setFloat i d = s.setFloatWith reference.params.nanPayload i d

/-! ## Every implementation -/

/-- The step under any implementation (R6, R95; D1, D3): a word whose opcode the map gives to a
mnemonic runs that instruction under the implementation's parameters, fetched or supplied; every
other opcode raises DecodeFault, 0x7E among them when the map is legal; no word decodes to a
mnemonic the map leaves out; and the invariant stays (the word of a fault record: log 8). -/
def Obligations.StepUnderEveryImplementation : Prop :=
  ∀ I : Implementation,
    (∀ (s : State) (i : Instr), s.run = .running → decodeWith I.map s.fetchWord = .ok i →
      stepWith I s = execWith I.params i s) ∧
    (∀ (s : State) (w : Word) (i : Instr), s.run = .running → decodeWith I.map w = .ok i →
      (divisorOf s i ≠ some 0 → stepWordWith I w s = execWith I.params i s) ∧
      (divisorOf s i = some 0 → FaultsWith (stepWordWith I w s) s .arithmeticFault w)) ∧
    (∀ (s : State) (w : Word), s.run = .running → Unassigned I.map (fieldOp w) →
      (w = s.fetchWord → FaultsWith (stepWith I s) s .decodeFault w) ∧
      FaultsWith (stepWordWith I w s) s .decodeFault w) ∧
    (I.map.wellFormed = true → Unassigned I.map 0x7E) ∧
    (∀ w : Word, Unassigned I.map (fieldOp w) ↔
      decodeWith I.map w = .error (.unassignedOpcode (fieldOp w))) ∧
    (∀ (i : Instr) (w : Word), I.map.opcodeOf i.mnemonic = none → decodeWith I.map w ≠ .ok i) ∧
    ∀ s t : State, Inv s → stepWith I s = .next t → Inv t

/-- The parameters of R6 reach the instructions (R89, R231, R246, R271, R272; D8, D13, D14, D17,
D18): under any of their values a branch counts in units of BRANCH_SCALE, a narrow load or pop
widens by NARROW_LOAD_EXT, SP moves by STACK_STEP while the bytes moved are the width, `ftoi` out
of range gives FTOI_OOR, and a float operation gives NAN_PAYLOAD on a NaN in either operand and on
the invalid operations (Inf - Inf, 0 * Inf, Inf / Inf, 0 / 0, `fmod` of Inf or by 0; IEEE 754, log
12), which is also what the host's NaN value is stored as (R341, log 11); an instruction that
depends on none does what `exec` says. -/
def Obligations.ParametersReachTheInstructions : Prop :=
  ∀ P : Params,
    (∀ (i : Instr) (s : State), takesParam i = false → execWith P i s = exec i s) ∧
    (∀ (ra rb : XReg) (imm16 : Half) (s : State) (target : Word),
      target = s.pc + wrap32 (imm16.toInt * P.branchScale) →
      CompletesJump (execWith P (.b imm16) s) s target ∧
      CompletesJump (execWith P (.beq ra rb imm16) s) s
        (if s.readX ra = s.readX rb then target else s.pc + 4) ∧
      CompletesJump (execWith P (.bne ra rb imm16) s) s
        (if s.readX ra = s.readX rb then s.pc + 4 else target) ∧
      CompletesJump (execWith P (.blt ra rb imm16) s) s
        (if sval (s.readX ra) < sval (s.readX rb) then target else s.pc + 4) ∧
      CompletesJump (execWith P (.bgt ra rb imm16) s) s
        (if sval (s.readX ra) > sval (s.readX rb) then target else s.pc + 4)) ∧
    (∀ (ra rb : XReg) (imm16 : Half) (s : State) (ea sp : Word),
      ea = s.readX rb + imm16.signExtend 32 → sp = s.readX regSP →
      (P.narrowLoadExt = .zero →
        CompletesX (execWith P (.lh ra rb imm16) s) s ra
          ((s.readByte (ea + 1) ++ s.readByte ea).zeroExtend 32) ∧
        CompletesX (execWith P (.lb ra rb imm16) s) s ra ((s.readByte ea).zeroExtend 32) ∧
        CompletesPopX (execWith P (.popH ra) s) s ra (P.stackStep .popH)
          ((s.readByte (sp + 1) ++ s.readByte sp).zeroExtend 32) ∧
        CompletesPopX (execWith P (.popB ra) s) s ra (P.stackStep .popB)
          ((s.readByte sp).zeroExtend 32)) ∧
      (P.narrowLoadExt = .sign →
        CompletesX (execWith P (.lh ra rb imm16) s) s ra
          ((s.readByte (ea + 1) ++ s.readByte ea).signExtend 32) ∧
        CompletesX (execWith P (.lb ra rb imm16) s) s ra ((s.readByte ea).signExtend 32) ∧
        CompletesPopX (execWith P (.popH ra) s) s ra (P.stackStep .popH)
          ((s.readByte (sp + 1) ++ s.readByte sp).signExtend 32) ∧
        CompletesPopX (execWith P (.popB ra) s) s ra (P.stackStep .popB)
          ((s.readByte sp).signExtend 32))) ∧
    (∀ (ra : XReg) (fa : FReg) (s : State),
      CompletesPush (execWith P (.pushW ra) s) s (P.stackStep .pushW) 4 (s.readX ra).toNat ∧
      CompletesPush (execWith P (.pushH ra) s) s (P.stackStep .pushH) 2
        ((s.readX ra).toNat % 2 ^ 16) ∧
      CompletesPush (execWith P (.pushB ra) s) s (P.stackStep .pushB) 1
        ((s.readX ra).toNat % 2 ^ 8) ∧
      CompletesPush (execWith P (.pushF fa) s) s (P.stackStep .pushF) 8 (s.readF fa).toNat ∧
      CompletesPopX (execWith P (.popW ra) s) s ra (P.stackStep .popW)
        (s.load32 (s.readX regSP)) ∧
      CompletesPopF (execWith P (.popF fa) s) s fa (P.stackStep .popF)
        (s.load64 (s.readX regSP)) ∧
      (∃ t, execWith P (.call ra) s = .next t ∧ t.pc = s.readX ra ∧
        t.readX regSP = s.pushAddr (P.stackStep .call) ∧
        BytesAt t (s.pushAddr (P.stackStep .call)) 4 (s.pc + 4).toNat ∧
        Frame [regSP] [] (some (s.pushAddr (P.stackStep .call), 4)) s t) ∧
      ∃ t, execWith P .ret s = .next t ∧ t.pc = s.load32 (s.readX regSP) ∧
        t.readX regSP = s.readX regSP + BitVec.ofNat 32 (P.stackStep .ret) ∧
        Frame [regSP] [] none s t) ∧
    (∀ (ra : XReg) (rb : FReg) (s : State),
      (isFinitePattern (s.readF rb) →
        ∃ n : Int, n * 2 ^ 1074 ≤ valueOf (s.readF rb) ∧
          valueOf (s.readF rb) < (n + 1) * 2 ^ 1074 ∧
          CompletesX (execWith P (.ftoi ra rb) s) s ra
            (if -(2 ^ 31) ≤ n ∧ n ≤ 2 ^ 31 - 1 then wrap32 n
             else P.ftoiOor (toFVal (s.readF rb)))) ∧
      (¬isFinitePattern (s.readF rb) →
        CompletesX (execWith P (.ftoi ra rb) s) s ra (P.ftoiOor (toFVal (s.readF rb))))) ∧
    (∀ (ra rb rc : FReg) (s : State) (a b : Pattern), a = s.readF rb → b = s.readF rc →
      CompletesF (execWith P (.fadd ra rb rc) s) s ra (fadd64 P.nanPayload a b) ∧
      CompletesF (execWith P (.fsub ra rb rc) s) s ra (fsub64 P.nanPayload a b) ∧
      CompletesF (execWith P (.fmul ra rb rc) s) s ra (fmul64 P.nanPayload a b) ∧
      CompletesF (execWith P (.fdiv ra rb rc) s) s ra (fdiv64 P.nanPayload a b) ∧
      CompletesF (execWith P (.fmod ra rb rc) s) s ra (fmod64 P.nanPayload a b) ∧
      CompletesF (execWith P (.ffloor ra rb) s) s ra (ffloor64 P.nanPayload a) ∧
      CompletesF (execWith P (.fceil ra rb) s) s ra (fceil64 P.nanPayload a) ∧
      (isNaNPattern a = true ∨ isNaNPattern b = true →
        CompletesF (execWith P (.fadd ra rb rc) s) s ra P.nanPayload ∧
        CompletesF (execWith P (.fsub ra rb rc) s) s ra P.nanPayload ∧
        CompletesF (execWith P (.fmul ra rb rc) s) s ra P.nanPayload ∧
        CompletesF (execWith P (.fdiv ra rb rc) s) s ra P.nanPayload ∧
        CompletesF (execWith P (.fmod ra rb rc) s) s ra P.nanPayload) ∧
      (isNaNPattern a = true →
        CompletesF (execWith P (.ffloor ra rb) s) s ra P.nanPayload ∧
        CompletesF (execWith P (.fceil ra rb) s) s ra P.nanPayload) ∧
      (isInfPattern a → isInfPattern b →
        (signField a ≠ signField b →
          CompletesF (execWith P (.fadd ra rb rc) s) s ra P.nanPayload) ∧
        (signField a = signField b →
          CompletesF (execWith P (.fsub ra rb rc) s) s ra P.nanPayload) ∧
        CompletesF (execWith P (.fdiv ra rb rc) s) s ra P.nanPayload) ∧
      (isInfPattern a ∧ isFinitePattern b ∧ unitsOfPattern b = 0 ∨
          isFinitePattern a ∧ unitsOfPattern a = 0 ∧ isInfPattern b →
        CompletesF (execWith P (.fmul ra rb rc) s) s ra P.nanPayload) ∧
      (isFinitePattern a → unitsOfPattern a = 0 → isFinitePattern b → unitsOfPattern b = 0 →
        CompletesF (execWith P (.fdiv ra rb rc) s) s ra P.nanPayload) ∧
      (isInfPattern a ∨ isFinitePattern b ∧ unitsOfPattern b = 0 →
        CompletesF (execWith P (.fmod ra rb rc) s) s ra P.nanPayload)) ∧
    ∀ (s : State) (i : Int) (p : Pattern), indexOk i = true →
      s.setFloatWith P.nanPayload i (.value .nan) =
        .done () (s.writeF (regIndex i) P.nanPayload) ∧
      s.setFloatWith P.nanPayload i (.pattern p) = .done () (s.writeF (regIndex i) p)
end

