-- ==== Sys2Proof/Laws/Decode.lean ====
section
/-! SUPPORT. The laws of the opcode map and of the instruction fields (30_encoding.md R82 to R86,
R95). -/

namespace Sys2Proof

/-! ## The opcode map -/

/-- What a lookup by opcode finds is a pair of the map. -/
theorem mem_of_mnemonicOf {map : OpcodeMap} {op : Byte} {m : Mnemonic}
    (h : map.mnemonicOf op = some m) : (m, op) ∈ map := by
  induction map with
  | nil => cases h
  | cons p rest ih =>
    obtain ⟨m', o⟩ := p
    unfold OpcodeMap.mnemonicOf at h
    split at h
    · next e => cases h; subst e; exact List.mem_cons_self
    · exact List.mem_cons_of_mem _ (ih h)

/-- What a lookup by mnemonic finds is a pair of the map. -/
theorem mem_of_opcodeOf {map : OpcodeMap} {op : Byte} {m : Mnemonic}
    (h : map.opcodeOf m = some op) : (m, op) ∈ map := by
  induction map with
  | nil => cases h
  | cons p rest ih =>
    obtain ⟨m', o⟩ := p
    unfold OpcodeMap.opcodeOf at h
    split at h
    · next e => cases h; subst e; exact List.mem_cons_self
    · exact List.mem_cons_of_mem _ (ih h)

/-- In an injective map a pair is what its opcode is looked up to. -/
theorem mnemonicOf_of_mem {map : OpcodeMap} (hi : map.injective = true) {op : Byte} {m : Mnemonic}
    (h : (m, op) ∈ map) : map.mnemonicOf op = some m := by
  induction map with
  | nil => cases h
  | cons p rest ih =>
    obtain ⟨m', o⟩ := p
    simp only [OpcodeMap.injective, Bool.and_eq_true, List.all_eq_true, decide_eq_true_eq] at hi
    rcases List.mem_cons.mp h with e | hr
    · cases e; simp [OpcodeMap.mnemonicOf]
    · have hne : o ≠ op := fun e => hi.1 _ hr e.symm
      simp [OpcodeMap.mnemonicOf, hne, ih hi.2 hr]

/-- In a functional map a pair is what its mnemonic is looked up to. -/
theorem opcodeOf_of_mem {map : OpcodeMap} (hf : map.functional = true) {op : Byte} {m : Mnemonic}
    (h : (m, op) ∈ map) : map.opcodeOf m = some op := by
  induction map with
  | nil => cases h
  | cons p rest ih =>
    obtain ⟨m', o⟩ := p
    simp only [OpcodeMap.functional, Bool.and_eq_true, List.all_eq_true, decide_eq_true_eq] at hf
    rcases List.mem_cons.mp h with e | hr
    · cases e; simp [OpcodeMap.opcodeOf]
    · have hne : m' ≠ m := fun e => hf.1 _ hr e.symm
      simp [OpcodeMap.opcodeOf, hne, ih hf.2 hr]

/-- An opcode outside the image is looked up to nothing, and conversely (R95, R101). -/
theorem mnemonicOf_eq_none {map : OpcodeMap} {op : Byte} :
    map.mnemonicOf op = none ↔ ∀ p ∈ map, p.2 ≠ op := by
  induction map with
  | nil => simp [OpcodeMap.mnemonicOf]
  | cons p rest ih =>
    obtain ⟨m', o⟩ := p
    by_cases h : o = op <;> simp [OpcodeMap.mnemonicOf, h, ih]

/-! ## Fields -/

/-- The opcode of a word put together from its parts (R82 to R84). -/
@[simp] theorem fieldOp_append (op : Byte) (f : BitVec 24) : fieldOp (op ++ f) = op := by
  ext k hk
  simp [fieldOp]
  grind

/-- The register fields of an R-format word (R82). -/
@[simp] theorem fieldRa_packR (op : Byte) (ra rb rc : BitVec 4) :
    fieldRa (op ++ packR ra rb rc) = ra := by
  ext k hk; simp [fieldRa, packR]; grind

@[simp] theorem fieldRb_packR (op : Byte) (ra rb rc : BitVec 4) :
    fieldRb (op ++ packR ra rb rc) = rb := by
  ext k hk; simp [fieldRb, packR]; grind

@[simp] theorem fieldRc_packR (op : Byte) (ra rb rc : BitVec 4) :
    fieldRc (op ++ packR ra rb rc) = rc := by
  ext k hk; simp [fieldRc, packR]; grind

/-- The fields of an I-format word (R83). -/
@[simp] theorem fieldRa_packI (op : Byte) (ra rb : BitVec 4) (imm16 : Half) :
    fieldRa (op ++ packI ra rb imm16) = ra := by
  ext k hk; simp [fieldRa, packI]; grind

@[simp] theorem fieldRb_packI (op : Byte) (ra rb : BitVec 4) (imm16 : Half) :
    fieldRb (op ++ packI ra rb imm16) = rb := by
  ext k hk; simp [fieldRb, packI]; grind

@[simp] theorem fieldImm16_packI (op : Byte) (ra rb : BitVec 4) (imm16 : Half) :
    fieldImm16 (op ++ packI ra rb imm16) = imm16 := by
  ext k hk; simp [fieldImm16, packI]; grind

/-- The field of a J-format word (R84). -/
@[simp] theorem fieldImm24_append (op : Byte) (imm24 : BitVec 24) :
    fieldImm24 (op ++ imm24) = imm24 := by
  ext k hk; simp [fieldImm24]; grind

end Sys2Proof
end

