-- ==== Sys2Proof/Laws/Float.lean ====
section
/-! SUPPORT. The laws of the float unit's rounding and of the float patterns (44_float.md R270): the
magnitude patterns stand in the order of their values, `roundMag` gives the nearest one, and a value
that has a pattern is not rounded. -/

namespace Sys2Proof.Machine

/-! ## The order of the magnitude patterns -/

/-- The grid of the patterns: `k` steps of `2^e` units. -/
theorem magUnits_grid (e k : Nat) (hk : k ≤ 2 ^ 53) (he : e = 0 ∨ 2 ^ 52 ≤ k) :
    magUnits (k + e * 2 ^ 52) = k * 2 ^ e := by
  unfold magUnits unitsOf
  rcases Nat.lt_or_ge k (2 ^ 52) with h1 | h1
  · have h0 : e = 0 := by omega
    subst h0
    rw [if_pos (by omega)]
    omega
  · rcases Nat.lt_or_ge k (2 ^ 53) with h2 | h2
    · have hd : (k + e * 2 ^ 52) / 2 ^ 52 = e + 1 := by omega
      have hm : (k + e * 2 ^ 52) % 2 ^ 52 = k - 2 ^ 52 := by omega
      rw [hd, hm, if_neg (by omega), Nat.add_sub_cancel,
        show 2 ^ 52 + (k - 2 ^ 52) = k by omega]
    · have hk2 : k = 2 ^ 53 := by omega
      have hd : (k + e * 2 ^ 52) / 2 ^ 52 = e + 2 := by omega
      have hm : (k + e * 2 ^ 52) % 2 ^ 52 = 0 := by omega
      have hp : 2 ^ (e + 2 - 1) = 2 * 2 ^ e := by
        rw [show e + 2 - 1 = e + 1 by omega, Nat.pow_succ, Nat.mul_comm]
      rw [hd, hm, if_neg (by omega), hp, ← Nat.mul_assoc]
      congr 1
      omega

/-- Every magnitude pattern is a point of its grid, and so is the next one. -/
theorem magUnits_step (m : Nat) :
    ∃ e k, magUnits m = k * 2 ^ e ∧ magUnits (m + 1) = (k + 1) * 2 ^ e := by
  rcases Nat.lt_or_ge m (2 ^ 52) with h | h
  · refine ⟨0, m, ?_, ?_⟩
    · simpa using magUnits_grid 0 m (by omega) (.inl rfl)
    · simpa using magUnits_grid 0 (m + 1) (by omega) (.inl rfl)
  · refine ⟨m / 2 ^ 52 - 1, 2 ^ 52 + m % 2 ^ 52, ?_, ?_⟩
    · rw [← magUnits_grid _ _ (by omega) (.inr (by omega))]
      congr 1; omega
    · rw [← magUnits_grid _ _ (by omega) (.inr (by omega))]
      congr 1; omega

theorem magUnits_strictMono : StrictMono magUnits := by
  refine strictMono_nat_of_lt_succ fun m => ?_
  obtain ⟨e, k, h0, h1⟩ := magUnits_step m
  rw [h0, h1]
  exact Nat.mul_lt_mul_of_pos_right (Nat.lt_succ_self k) (Nat.two_pow_pos e)

theorem magUnits_le {a b : Nat} (h : a ≤ b) : magUnits a ≤ magUnits b :=
  magUnits_strictMono.monotone h

/-! ## Rounding -/

/-- The two candidates of `roundHalfEven`, and when each is taken. -/
theorem roundHalfEven_cases (n d : Nat) :
    (roundHalfEven n d = n / d ∧ 2 * (n % d) ≤ d ∧ (2 * (n % d) = d → n / d % 2 = 0)) ∨
      (roundHalfEven n d = n / d + 1 ∧ d ≤ 2 * (n % d) ∧ (2 * (n % d) = d → n / d % 2 = 1)) := by
  unfold roundHalfEven
  split
  · left; omega
  · split
    · right; omega
    · rcases Nat.mod_two_eq_zero_or_one (n / d) with h | h <;> rw [h]
      · left; omega
      · right; omega

/-- The grid that `roundMag` rounds on: the quotient's 53 leading bits. -/
theorem roundMag_grid (n d : Nat) :
    let e := Nat.log2 (n / d) - 52
    n / (d * 2 ^ e) < 2 ^ 53 ∧ (e = 0 ∨ 2 ^ 52 ≤ n / (d * 2 ^ e)) := by
  intro e
  rw [← Nat.div_div_eq_div_mul]
  by_cases h0 : n / d = 0
  · have he : e = 0 := by simp [e, h0]
    exact ⟨by simp [h0], .inl he⟩
  · have hlt : n / d < 2 ^ (Nat.log2 (n / d) + 1) := Nat.lt_log2_self
    have hle : 2 ^ Nat.log2 (n / d) ≤ n / d := Nat.log2_self_le h0
    constructor
    · rw [Nat.div_lt_iff_lt_mul (Nat.two_pow_pos e), ← Nat.pow_add]
      refine lt_of_lt_of_le hlt (Nat.pow_le_pow_right (by omega) ?_)
      omega
    · rcases Nat.lt_or_ge (Nat.log2 (n / d)) 53 with h | h
      · left; omega
      · right
        rw [Nat.le_div_iff_mul_le (Nat.two_pow_pos e), ← Nat.pow_add]
        refine le_trans (Nat.pow_le_pow_right (by omega) ?_) hle
        omega

theorem roundError_below {n d m : Nat} (h : magUnits m * d ≤ n) :
    roundError n d m = n - magUnits m * d := by
  unfold roundError
  zify [h]
  rw [abs_of_nonpos (by have : (magUnits m * d : Int) ≤ n := by exact_mod_cast h
                        omega)]
  ring

theorem roundError_above {n d m : Nat} (h : n ≤ magUnits m * d) :
    roundError n d m = magUnits m * d - n := by
  unfold roundError
  zify [h]
  rw [abs_of_nonneg (by have : (n : Int) ≤ magUnits m * d := by exact_mod_cast h
                        omega)]

/-- `roundMag` gives the nearest magnitude pattern, ties to even (R270). -/
theorem roundMag_nearest (n d : Nat) (hd : 0 < d) : NearestEven n d (roundMag n d) := by
  obtain ⟨hq, hg⟩ := roundMag_grid n d
  have hM : roundMag n d = min infMag (roundHalfEven n (d * 2 ^ (Nat.log2 (n / d) - 52)) +
    (Nat.log2 (n / d) - 52) * 2 ^ 52) := rfl
  generalize Nat.log2 (n / d) - 52 = e at *
  have hD : 0 < d * 2 ^ e := Nat.mul_pos hd (Nat.two_pow_pos e)
  have hdiv := Nat.div_add_mod n (d * 2 ^ e)
  have hr := Nat.mod_lt n hD
  have hcase := roundHalfEven_cases n (d * 2 ^ e)
  generalize hk : roundHalfEven n (d * 2 ^ e) = k at *
  generalize hqe : n / (d * 2 ^ e) = q at *
  generalize n % (d * 2 ^ e) = r at *
  have u0 : magUnits (q + e * 2 ^ 52) * d = d * 2 ^ e * q := by
    rw [magUnits_grid e q (by omega) hg]; ring
  have u1 : magUnits (q + e * 2 ^ 52 + 1) * d = d * 2 ^ e * q + d * 2 ^ e := by
    rw [show q + e * 2 ^ 52 + 1 = (q + 1) + e * 2 ^ 52 by omega,
      magUnits_grid e (q + 1) (by omega) (by omega)]
    ring
  generalize d * 2 ^ e = D at *
  generalize D * q = A at *
  have hmono : ∀ a b, a ≤ b → magUnits a * d ≤ magUnits b * d :=
    fun a b h => Nat.mul_le_mul_right d (magUnits_le h)
  have hstrict : ∀ a b, a < b → magUnits a * d < magUnits b * d :=
    fun a b h => Nat.mul_lt_mul_of_pos_right (magUnits_strictMono h) hd
  have heven : infMag % 2 = 0 := by decide
  rw [hM]
  refine ⟨Nat.min_le_left _ _, fun m' hm' => ?_⟩
  rcases Nat.lt_or_ge (q + e * 2 ^ 52) infMag with hlt | hge
  · rcases hcase with ⟨hkq, h2, h3⟩ | ⟨hkq, h2, h3⟩
    · rw [hkq, Nat.min_eq_right (by omega), roundError_below (by omega)]
      rcases Nat.lt_or_ge m' (q + e * 2 ^ 52 + 1) with hb | hb
      · have h4 := hmono m' (q + e * 2 ^ 52) (by omega)
        rw [roundError_below (by omega)]
        refine ⟨by omega, fun ht hne => ?_⟩
        have h5 := hstrict m' (q + e * 2 ^ 52) (by omega)
        omega
      · have h4 := hmono _ m' hb
        rw [roundError_above (by omega)]
        refine ⟨by omega, fun ht hne => ?_⟩
        rcases Nat.eq_or_lt_of_le hb with he | hl
        · subst he; have := h3 (by omega); omega
        · have h5 := hstrict _ m' hl; omega
    · rw [hkq, Nat.min_eq_right (by omega),
        show q + 1 + e * 2 ^ 52 = q + e * 2 ^ 52 + 1 by omega, roundError_above (by omega)]
      rcases Nat.lt_or_ge m' (q + e * 2 ^ 52 + 1) with hb | hb
      · have h4 := hmono m' (q + e * 2 ^ 52) (by omega)
        rw [roundError_below (by omega)]
        refine ⟨by omega, fun ht hne => ?_⟩
        rcases Nat.eq_or_lt_of_le (Nat.lt_succ_iff.mp hb) with he | hl
        · subst he; have := h3 (by omega); omega
        · have h5 := hstrict m' _ hl; omega
      · have h4 := hmono _ m' hb
        rw [roundError_above (by omega)]
        refine ⟨by omega, fun ht hne => ?_⟩
        have h5 := hstrict (q + e * 2 ^ 52 + 1) m' (by omega)
        omega
  · have h5 := hmono _ _ hge
    have h6 := hmono _ _ hm'
    rw [Nat.min_eq_left (by rcases hcase with ⟨h, _⟩ | ⟨h, _⟩ <;> omega),
      roundError_below (by omega), roundError_below (by omega)]
    exact ⟨by omega, fun _ _ => heven⟩

/-- A value that has a pattern is rounded to it. -/
theorem roundMag_exact {n d m : Nat} (hd : 0 < d) (hm : m ≤ infMag) (h : magUnits m * d = n) :
    roundMag n d = m := by
  have hne := ((roundMag_nearest n d hd).2 m hm).1
  have h0 : roundError n d m = 0 := by unfold roundError; rw [← h]; push_cast; simp
  have h1 : roundError n d (roundMag n d) = 0 := by omega
  unfold roundError at h1
  have h2 : (magUnits (roundMag n d) * d : Int) = n := by omega
  have h3 : magUnits (roundMag n d) * d = n := by exact_mod_cast h2
  exact magUnits_strictMono.injective (Nat.eq_of_mul_eq_mul_right hd (by rw [h3, h]))

/-- Every value of up to 53 significant bits below 2^2098 units has a pattern. -/
theorem exists_mag {c e k : Nat} (hc : c ≤ 2 ^ 53) (hk : k = c * 2 ^ e) (hb : k < magUnits infMag) :
    ∃ m, m < infMag ∧ magUnits m = k := by
  suffices h : ∃ m, magUnits m = k by
    obtain ⟨m, hm⟩ := h
    refine ⟨m, ?_, hm⟩
    rw [← hm] at hb
    exact magUnits_strictMono.lt_iff_lt.mp hb
  subst hk
  clear hb
  induction e generalizing c with
  | zero => exact ⟨c, by simpa using magUnits_grid 0 c hc (.inl rfl)⟩
  | succ e ih =>
    rcases Nat.lt_or_ge c (2 ^ 52) with h | h
    · obtain ⟨m, hm⟩ := ih (c := 2 * c) (by omega)
      exact ⟨m, by rw [hm, Nat.pow_succ]; ring⟩
    · exact ⟨c + (e + 1) * 2 ^ 52, magUnits_grid (e + 1) c hc (.inr h)⟩

/-- Every magnitude pattern's value has up to 53 significant bits. -/
theorem magUnits_form (m : Nat) : ∃ c e, c ≤ 2 ^ 53 ∧ magUnits m = c * 2 ^ e := by
  rcases Nat.lt_or_ge m (2 ^ 52) with h | h
  · exact ⟨m, 0, by omega, by simpa using magUnits_grid 0 m (by omega) (.inl rfl)⟩
  · refine ⟨2 ^ 52 + m % 2 ^ 52, m / 2 ^ 52 - 1, by omega, ?_⟩
    rw [← magUnits_grid _ _ (by omega) (.inr (by omega))]
    congr 1; omega

/-! ## Patterns -/

theorem expField_eq (b : Pattern) : expField b = b.toNat / 2 ^ 52 % 2 ^ 11 := by
  simp [expField, Nat.shiftRight_eq_div_pow]

theorem fracField_eq (b : Pattern) : fracField b = b.toNat % 2 ^ 52 := by
  simp [fracField]

theorem signField_eq (b : Pattern) : signField b = decide (2 ^ 63 ≤ b.toNat) := by
  have h := b.isLt
  simp only [signField, BitVec.getLsbD, Nat.testBit_eq_decide_div_mod_eq]
  rw [decide_eq_decide]
  omega

theorem packFloat_toNat (neg : Bool) (m : Nat) (hm : m ≤ infMag) :
    (packFloat neg m).toNat = (if neg then 2 ^ 63 else 0) + m := by
  have : infMag < 2 ^ 63 := by decide
  unfold packFloat
  rw [BitVec.toNat_ofNat, Nat.mod_eq_of_lt]
  split <;> omega

@[simp] theorem signField_pack (neg : Bool) {m : Nat} (hm : m ≤ infMag) :
    signField (packFloat neg m) = neg := by
  have : infMag < 2 ^ 63 := by decide
  rw [signField_eq, packFloat_toNat neg m hm]
  cases neg <;> (simp; try omega)

theorem expField_pack (neg : Bool) {m : Nat} (hm : m ≤ infMag) :
    expField (packFloat neg m) = m / 2 ^ 52 := by
  have : infMag = 2047 * 2 ^ 52 := by decide
  rw [expField_eq, packFloat_toNat neg m hm]
  cases neg <;> simp only [if_true, if_false, Bool.false_eq_true] <;> omega

theorem fracField_pack (neg : Bool) {m : Nat} (hm : m ≤ infMag) :
    fracField (packFloat neg m) = m % 2 ^ 52 := by
  rw [fracField_eq, packFloat_toNat neg m hm]
  cases neg <;> simp only [if_true, if_false, Bool.false_eq_true] <;> omega

/-- What a packed magnitude below the infinity stands for. -/
theorem toFVal_pack (neg : Bool) {m : Nat} (hm : m < infMag) :
    toFVal (packFloat neg m) = .fin neg (magUnits m) := by
  have hi : infMag = 2047 * 2 ^ 52 := by decide
  unfold toFVal
  rw [expField_pack neg (by omega), fracField_pack neg (by omega), signField_pack neg (by omega),
    if_neg (by omega)]
  rfl

/-- The packed infinity. -/
theorem toFVal_pack_inf (neg : Bool) : toFVal (packFloat neg infMag) = .inf neg := by
  cases neg <;> decide

/-- What a finite pattern stands for. -/
theorem toFVal_finite {b : Pattern} (h : isFinitePattern b) :
    toFVal b = .fin (signField b) (unitsOfPattern b) := if_neg h

/-- The magnitude bits of a pattern. -/
theorem pack_self (b : Pattern) : packFloat (signField b) (b.toNat % 2 ^ 63) = b := by
  have h := b.isLt
  apply BitVec.eq_of_toNat_eq
  unfold packFloat
  rw [BitVec.toNat_ofNat, signField_eq]
  by_cases hs : 2 ^ 63 ≤ b.toNat
  · simp only [hs, decide_true, if_true]; omega
  · simp only [hs, decide_false, Bool.false_eq_true, if_false]; omega

/-- A finite pattern's units are those of its magnitude bits, which are below the infinity. -/
theorem unitsOfPattern_eq {b : Pattern} (h : isFinitePattern b) :
    b.toNat % 2 ^ 63 < infMag ∧ unitsOfPattern b = magUnits (b.toNat % 2 ^ 63) := by
  have hi : infMag = 2047 * 2 ^ 52 := by decide
  have hb := b.isLt
  unfold isFinitePattern at h
  rw [expField_eq] at h
  constructor
  · omega
  · unfold unitsOfPattern magUnits
    rw [expField_eq, fracField_eq]
    congr 1
    · omega
    · omega

/-- Rounding the value of a finite pattern gives its magnitude bits back. -/
theorem roundMag_finite {b : Pattern} (h : isFinitePattern b) :
    roundMag (unitsOfPattern b) 1 = b.toNat % 2 ^ 63 := by
  obtain ⟨h1, h2⟩ := unitsOfPattern_eq h
  exact roundMag_exact Nat.one_pos (by omega) (by rw [h2, Nat.mul_one])

end Sys2Proof.Machine
end

