-- ==== Sys2Proof/Laws/State.lean ====
section
/-! SUPPORT. The small lemmas of the state: one for each field and each named update, true by `rfl`,
and the register laws (10_state.md R24, R25, R27). Later proofs never unfold a record update. -/

namespace Sys2Proof.Machine

variable (s : State)

/-! ### writeX -/

@[simp] theorem writeX_f (r : XReg) (v : Word) : (s.writeX r v).f = s.f := rfl
@[simp] theorem writeX_pc (r : XReg) (v : Word) : (s.writeX r v).pc = s.pc := rfl
@[simp] theorem writeX_mem (r : XReg) (v : Word) : (s.writeX r v).mem = s.mem := rfl
@[simp] theorem writeX_run (r : XReg) (v : Word) : (s.writeX r v).run = s.run := rfl
@[simp] theorem writeX_out (r : XReg) (v : Word) : (s.writeX r v).out = s.out := rfl
@[simp] theorem writeX_readF (r : XReg) (v : Word) (q : FReg) :
    (s.writeX r v).readF q = s.readF q := rfl
@[simp] theorem writeX_readByte (r : XReg) (v : Word) (ad : Word) :
    (s.writeX r v).readByte ad = s.readByte ad := rfl

/-! ### writeF -/

@[simp] theorem writeF_x (r : FReg) (v : Pattern) : (s.writeF r v).x = s.x := rfl
@[simp] theorem writeF_pc (r : FReg) (v : Pattern) : (s.writeF r v).pc = s.pc := rfl
@[simp] theorem writeF_mem (r : FReg) (v : Pattern) : (s.writeF r v).mem = s.mem := rfl
@[simp] theorem writeF_run (r : FReg) (v : Pattern) : (s.writeF r v).run = s.run := rfl
@[simp] theorem writeF_out (r : FReg) (v : Pattern) : (s.writeF r v).out = s.out := rfl
@[simp] theorem writeF_readX (r : FReg) (v : Pattern) (q : XReg) :
    (s.writeF r v).readX q = s.readX q := rfl
@[simp] theorem writeF_readByte (r : FReg) (v : Pattern) (ad : Word) :
    (s.writeF r v).readByte ad = s.readByte ad := rfl

/-! ### advance -/

@[simp] theorem advance_x : (s.advance).x = s.x := rfl
@[simp] theorem advance_f : (s.advance).f = s.f := rfl
@[simp] theorem advance_pc : (s.advance).pc = s.pc + 4 := rfl
@[simp] theorem advance_mem : (s.advance).mem = s.mem := rfl
@[simp] theorem advance_run : (s.advance).run = s.run := rfl
@[simp] theorem advance_out : (s.advance).out = s.out := rfl
@[simp] theorem advance_readX (q : XReg) : (s.advance).readX q = s.readX q := rfl
@[simp] theorem advance_readF (q : FReg) : (s.advance).readF q = s.readF q := rfl
@[simp] theorem advance_readByte (ad : Word) : (s.advance).readByte ad = s.readByte ad := rfl

/-! ### jump -/

@[simp] theorem jump_x (a : Word) : (s.jump a).x = s.x := rfl
@[simp] theorem jump_f (a : Word) : (s.jump a).f = s.f := rfl
@[simp] theorem jump_pc (a : Word) : (s.jump a).pc = a := rfl
@[simp] theorem jump_mem (a : Word) : (s.jump a).mem = s.mem := rfl
@[simp] theorem jump_run (a : Word) : (s.jump a).run = s.run := rfl
@[simp] theorem jump_out (a : Word) : (s.jump a).out = s.out := rfl
@[simp] theorem jump_readX (a : Word) (q : XReg) : (s.jump a).readX q = s.readX q := rfl
@[simp] theorem jump_readF (a : Word) (q : FReg) : (s.jump a).readF q = s.readF q := rfl
@[simp] theorem jump_readByte (a : Word) (ad : Word) : (s.jump a).readByte ad = s.readByte ad := rfl

/-! ### branch -/

@[simp] theorem branch_x (k : Int) (c : Bool) (i : Half) : (s.branch k c i).x = s.x := rfl
@[simp] theorem branch_f (k : Int) (c : Bool) (i : Half) : (s.branch k c i).f = s.f := rfl
@[simp] theorem branch_pc (k : Int) (c : Bool) (i : Half) :
    (s.branch k c i).pc = if c then branchTarget k s.pc i else s.pc + 4 := rfl
@[simp] theorem branch_mem (k : Int) (c : Bool) (i : Half) : (s.branch k c i).mem = s.mem := rfl
@[simp] theorem branch_run (k : Int) (c : Bool) (i : Half) : (s.branch k c i).run = s.run := rfl
@[simp] theorem branch_out (k : Int) (c : Bool) (i : Half) : (s.branch k c i).out = s.out := rfl
@[simp] theorem branch_readX (k : Int) (c : Bool) (i : Half) (q : XReg) :
    (s.branch k c i).readX q = s.readX q := rfl
@[simp] theorem branch_readF (k : Int) (c : Bool) (i : Half) (q : FReg) :
    (s.branch k c i).readF q = s.readF q := rfl
@[simp] theorem branch_readByte (k : Int) (c : Bool) (i : Half) (ad : Word) :
    (s.branch k c i).readByte ad = s.readByte ad := rfl

/-! ### store8 -/

@[simp] theorem store8_x (a : Word) (v : Byte) : (s.store8 a v).x = s.x := rfl
@[simp] theorem store8_f (a : Word) (v : Byte) : (s.store8 a v).f = s.f := rfl
@[simp] theorem store8_pc (a : Word) (v : Byte) : (s.store8 a v).pc = s.pc := rfl
@[simp] theorem store8_mem (a : Word) (v : Byte) :
    (s.store8 a v).mem = writeLE s.mem a 1 v.toNat := rfl
@[simp] theorem store8_run (a : Word) (v : Byte) : (s.store8 a v).run = s.run := rfl
@[simp] theorem store8_out (a : Word) (v : Byte) : (s.store8 a v).out = s.out := rfl
@[simp] theorem store8_readX (a : Word) (v : Byte) (q : XReg) :
    (s.store8 a v).readX q = s.readX q := rfl
@[simp] theorem store8_readF (a : Word) (v : Byte) (q : FReg) :
    (s.store8 a v).readF q = s.readF q := rfl

/-! ### store16 -/

@[simp] theorem store16_x (a : Word) (v : Half) : (s.store16 a v).x = s.x := rfl
@[simp] theorem store16_f (a : Word) (v : Half) : (s.store16 a v).f = s.f := rfl
@[simp] theorem store16_pc (a : Word) (v : Half) : (s.store16 a v).pc = s.pc := rfl
@[simp] theorem store16_mem (a : Word) (v : Half) :
    (s.store16 a v).mem = writeLE s.mem a 2 v.toNat := rfl
@[simp] theorem store16_run (a : Word) (v : Half) : (s.store16 a v).run = s.run := rfl
@[simp] theorem store16_out (a : Word) (v : Half) : (s.store16 a v).out = s.out := rfl
@[simp] theorem store16_readX (a : Word) (v : Half) (q : XReg) :
    (s.store16 a v).readX q = s.readX q := rfl
@[simp] theorem store16_readF (a : Word) (v : Half) (q : FReg) :
    (s.store16 a v).readF q = s.readF q := rfl

/-! ### store32 -/

@[simp] theorem store32_x (a : Word) (v : Word) : (s.store32 a v).x = s.x := rfl
@[simp] theorem store32_f (a : Word) (v : Word) : (s.store32 a v).f = s.f := rfl
@[simp] theorem store32_pc (a : Word) (v : Word) : (s.store32 a v).pc = s.pc := rfl
@[simp] theorem store32_mem (a : Word) (v : Word) :
    (s.store32 a v).mem = writeLE s.mem a 4 v.toNat := rfl
@[simp] theorem store32_run (a : Word) (v : Word) : (s.store32 a v).run = s.run := rfl
@[simp] theorem store32_out (a : Word) (v : Word) : (s.store32 a v).out = s.out := rfl
@[simp] theorem store32_readX (a : Word) (v : Word) (q : XReg) :
    (s.store32 a v).readX q = s.readX q := rfl
@[simp] theorem store32_readF (a : Word) (v : Word) (q : FReg) :
    (s.store32 a v).readF q = s.readF q := rfl

/-! ### store64 -/

@[simp] theorem store64_x (a : Word) (v : Pattern) : (s.store64 a v).x = s.x := rfl
@[simp] theorem store64_f (a : Word) (v : Pattern) : (s.store64 a v).f = s.f := rfl
@[simp] theorem store64_pc (a : Word) (v : Pattern) : (s.store64 a v).pc = s.pc := rfl
@[simp] theorem store64_mem (a : Word) (v : Pattern) :
    (s.store64 a v).mem = writeLE s.mem a 8 v.toNat := rfl
@[simp] theorem store64_run (a : Word) (v : Pattern) : (s.store64 a v).run = s.run := rfl
@[simp] theorem store64_out (a : Word) (v : Pattern) : (s.store64 a v).out = s.out := rfl
@[simp] theorem store64_readX (a : Word) (v : Pattern) (q : XReg) :
    (s.store64 a v).readX q = s.readX q := rfl
@[simp] theorem store64_readF (a : Word) (v : Pattern) (q : FReg) :
    (s.store64 a v).readF q = s.readF q := rfl

/-! ### raiseFault -/

@[simp] theorem raiseFault_x (k : FaultKind) (w : Word) : (s.raiseFault k w).x = s.x := rfl
@[simp] theorem raiseFault_f (k : FaultKind) (w : Word) : (s.raiseFault k w).f = s.f := rfl
@[simp] theorem raiseFault_pc (k : FaultKind) (w : Word) : (s.raiseFault k w).pc = s.pc := rfl
@[simp] theorem raiseFault_mem (k : FaultKind) (w : Word) : (s.raiseFault k w).mem = s.mem := rfl
@[simp] theorem raiseFault_run (k : FaultKind) (w : Word) :
    (s.raiseFault k w).run = .faulted k s.pc w := rfl
@[simp] theorem raiseFault_out (k : FaultKind) (w : Word) : (s.raiseFault k w).out = s.out := rfl
@[simp] theorem raiseFault_readX (k : FaultKind) (w : Word) (q : XReg) :
    (s.raiseFault k w).readX q = s.readX q := rfl
@[simp] theorem raiseFault_readF (k : FaultKind) (w : Word) (q : FReg) :
    (s.raiseFault k w).readF q = s.readF q := rfl
@[simp] theorem raiseFault_readByte (k : FaultKind) (w : Word) (ad : Word) :
    (s.raiseFault k w).readByte ad = s.readByte ad := rfl

/-! ### takeFault -/

@[simp] theorem takeFault_x (k : FaultKind) : (s.takeFault k).x = s.x := rfl
@[simp] theorem takeFault_f (k : FaultKind) : (s.takeFault k).f = s.f := rfl
@[simp] theorem takeFault_pc (k : FaultKind) : (s.takeFault k).pc = s.pc := rfl
@[simp] theorem takeFault_mem (k : FaultKind) : (s.takeFault k).mem = s.mem := rfl
@[simp] theorem takeFault_run (k : FaultKind) :
    (s.takeFault k).run = .faulted k s.pc s.fetchWord := rfl
@[simp] theorem takeFault_out (k : FaultKind) : (s.takeFault k).out = s.out := rfl
@[simp] theorem takeFault_readX (k : FaultKind) (q : XReg) :
    (s.takeFault k).readX q = s.readX q := rfl
@[simp] theorem takeFault_readF (k : FaultKind) (q : FReg) :
    (s.takeFault k).readF q = s.readF q := rfl
@[simp] theorem takeFault_readByte (k : FaultKind) (ad : Word) :
    (s.takeFault k).readByte ad = s.readByte ad := rfl

/-! ### halt -/

@[simp] theorem halt_x : (s.halt).x = s.x := rfl
@[simp] theorem halt_f : (s.halt).f = s.f := rfl
@[simp] theorem halt_pc : (s.halt).pc = s.pc := rfl
@[simp] theorem halt_mem : (s.halt).mem = s.mem := rfl
@[simp] theorem halt_run : (s.halt).run = .halted := rfl
@[simp] theorem halt_out : (s.halt).out = s.out := rfl
@[simp] theorem halt_readX (q : XReg) : (s.halt).readX q = s.readX q := rfl
@[simp] theorem halt_readF (q : FReg) : (s.halt).readF q = s.readF q := rfl
@[simp] theorem halt_readByte (ad : Word) : (s.halt).readByte ad = s.readByte ad := rfl

/-! ### emit -/

@[simp] theorem emit_x (b : Byte) : (s.emit b).x = s.x := rfl
@[simp] theorem emit_f (b : Byte) : (s.emit b).f = s.f := rfl
@[simp] theorem emit_pc (b : Byte) : (s.emit b).pc = s.pc := rfl
@[simp] theorem emit_mem (b : Byte) : (s.emit b).mem = s.mem := rfl
@[simp] theorem emit_run (b : Byte) : (s.emit b).run = s.run := rfl
@[simp] theorem emit_out (b : Byte) : (s.emit b).out = s.out ++ [b] := rfl
@[simp] theorem emit_readX (b : Byte) (q : XReg) : (s.emit b).readX q = s.readX q := rfl
@[simp] theorem emit_readF (b : Byte) (q : FReg) : (s.emit b).readF q = s.readF q := rfl
@[simp] theorem emit_readByte (b : Byte) (ad : Word) : (s.emit b).readByte ad = s.readByte ad := rfl

/-! ### pushSP -/

@[simp] theorem pushSP_f (k : Nat) : (s.pushSP k).f = s.f := rfl
@[simp] theorem pushSP_pc (k : Nat) : (s.pushSP k).pc = s.pc := rfl
@[simp] theorem pushSP_mem (k : Nat) : (s.pushSP k).mem = s.mem := rfl
@[simp] theorem pushSP_run (k : Nat) : (s.pushSP k).run = s.run := rfl
@[simp] theorem pushSP_out (k : Nat) : (s.pushSP k).out = s.out := rfl
@[simp] theorem pushSP_readF (k : Nat) (q : FReg) : (s.pushSP k).readF q = s.readF q := rfl
@[simp] theorem pushSP_readByte (k : Nat) (ad : Word) :
    (s.pushSP k).readByte ad = s.readByte ad := rfl

/-! ### load -/

@[simp] theorem load_x (bs : List Byte) (a : Word) : (s.load bs a).x = s.x := rfl
@[simp] theorem load_f (bs : List Byte) (a : Word) : (s.load bs a).f = s.f := rfl
@[simp] theorem load_pc (bs : List Byte) (a : Word) : (s.load bs a).pc = s.pc := rfl
@[simp] theorem load_mem (bs : List Byte) (a : Word) :
    (s.load bs a).mem = loadBytes s.mem a bs := rfl
@[simp] theorem load_run (bs : List Byte) (a : Word) : (s.load bs a).run = s.run := rfl
@[simp] theorem load_out (bs : List Byte) (a : Word) : (s.load bs a).out = s.out := rfl
@[simp] theorem load_readX (bs : List Byte) (a : Word) (q : XReg) :
    (s.load bs a).readX q = s.readX q := rfl
@[simp] theorem load_readF (bs : List Byte) (a : Word) (q : FReg) :
    (s.load bs a).readF q = s.readF q := rfl

/-! ### setPC -/

@[simp] theorem setPC_x (a : Word) : (s.setPC a).x = s.x := rfl
@[simp] theorem setPC_f (a : Word) : (s.setPC a).f = s.f := rfl
@[simp] theorem setPC_pc (a : Word) : (s.setPC a).pc = a := rfl
@[simp] theorem setPC_mem (a : Word) : (s.setPC a).mem = s.mem := rfl
@[simp] theorem setPC_run (a : Word) : (s.setPC a).run = s.run := rfl
@[simp] theorem setPC_out (a : Word) : (s.setPC a).out = s.out := rfl
@[simp] theorem setPC_readX (a : Word) (q : XReg) : (s.setPC a).readX q = s.readX q := rfl
@[simp] theorem setPC_readF (a : Word) (q : FReg) : (s.setPC a).readF q = s.readF q := rfl
@[simp] theorem setPC_readByte (a : Word) (ad : Word) :
    (s.setPC a).readByte ad = s.readByte ad := rfl

/-! ### Reading back a register -/

/-- Writing an integer register and reading any: the written one holds the value, r0 like the
others (R24, R25). -/
@[simp] theorem readX_writeX (r q : XReg) (v : Word) :
    (s.writeX r v).readX q = if q = r then v else s.readX q := by
  simp [State.writeX, State.readX, Vector.getElem_set, BitVec.toNat_inj, eq_comm]

/-- Writing a float register and reading any (R27). -/
@[simp] theorem readF_writeF (r q : FReg) (v : Pattern) :
    (s.writeF r v).readF q = if q = r then v else s.readF q := by
  simp [State.writeF, State.readF, Vector.getElem_set, BitVec.toNat_inj, eq_comm]

/-- SP after a push, and every other register. -/
@[simp] theorem readX_pushSP (k : Nat) (q : XReg) :
    (s.pushSP k).readX q = if q = regSP then s.pushAddr k else s.readX q := by
  simp [State.pushSP]

/-- Two register files that read alike are one. -/
theorem readX_ext {s t : State} (h : ∀ r, t.readX r = s.readX r) : t.x = s.x := by
  apply Vector.ext
  intro i hi
  have h' := h (BitVec.ofNat 4 i)
  have e : i % 16 = i := Nat.mod_eq_of_lt hi
  simpa [State.readX, e] using h'

/-- Two float register files that read alike are one. -/
theorem readF_ext {s t : State} (h : ∀ r, t.readF r = s.readF r) : t.f = s.f := by
  apply Vector.ext
  intro i hi
  have h' := h (BitVec.ofNat 4 i)
  have e : i % 16 = i := Nat.mod_eq_of_lt hi
  simpa [State.readF, e] using h'

end Sys2Proof.Machine
end

