-- ==== Sys2Proof/Laws/Memory.lean ====
section
/-! SUPPORT. The laws of memory (20_memory.md R50 to R57): a read after a write, the canonical form
and that every operation keeps it, and what wide accesses do byte by byte. -/

namespace Sys2Proof.Machine

/-! ## One byte -/

/-- An erased address reads as the default; the others are untouched. -/
theorem read_erase (m : Memory) (a b : Nat) :
    (m.erase a).read b = if b = a then Memory.default else m.read b := by
  induction m with
  | nil => simp [Memory.erase, Memory.read]
  | cons p rest ih =>
    obtain ⟨c, v⟩ := p
    by_cases hc : c = a <;> by_cases hb : c = b <;>
      simp_all [Memory.erase, Memory.read]

/-- An inserted cell is read at its address, once the address is not listed any more. -/
theorem read_insert_erase (m : Memory) (a b : Nat) (v : Byte) :
    ((m.erase a).insert a v).read b = if b = a then v else m.read b := by
  induction m with
  | nil => by_cases hb : a = b <;> simp_all [Memory.erase, Memory.insert, Memory.read, eq_comm]
  | cons p rest ih =>
    obtain ⟨c, w⟩ := p
    by_cases hc : c = a
    · subst hc
      rw [show Memory.erase ((c, w) :: rest) c = Memory.erase rest c by simp [Memory.erase], ih]
      by_cases hb : b = c
      · simp [hb]
      · simp [hb, Memory.read, Ne.symm hb]
    · rw [show Memory.erase ((c, w) :: rest) a = (c, w) :: Memory.erase rest a by
        simp [Memory.erase, hc]]
      by_cases hlt : a < c
      · have hr := read_erase rest a b
        by_cases hb : b = a
        · simp [Memory.insert, hlt, Memory.read, hb]
        · simp [Memory.insert, hlt, Memory.read, hb, Ne.symm hb, hr]
      · by_cases hb : c = b
        · subst hb
          simp [Memory.insert, hlt, Memory.read, hc]
        · simp [Memory.insert, hlt, Memory.read, hb, ih]

/-- Reading after writing one byte, in any list of cells (R50, R51). -/
@[simp] theorem read_write (m : Memory) (a b : Nat) (v : Byte) :
    (m.write a v).read b = if b = a then v else m.read b := by
  unfold Memory.write
  split
  · next h => rw [read_erase, h]
  · exact read_insert_erase m a b v

/-! ## The canonical form -/

theorem wfFrom_weaken {lo : Nat} {m : Memory} (h : Memory.wfFrom (some lo) m = true) :
    Memory.wfFrom none m = true := by
  cases m with
  | nil => rfl
  | cons p rest =>
    obtain ⟨a, v⟩ := p
    simp only [Memory.wfFrom, Bool.and_eq_true] at h ⊢
    exact ⟨⟨⟨trivial, h.1.1.2⟩, h.1.2⟩, h.2⟩

theorem wfFrom_mono {lo lo' : Nat} (hl : lo' ≤ lo) {m : Memory}
    (h : Memory.wfFrom (some lo) m = true) : Memory.wfFrom (some lo') m = true := by
  cases m with
  | nil => rfl
  | cons p rest =>
    obtain ⟨a, v⟩ := p
    simp only [Memory.wfFrom, Bool.and_eq_true, decide_eq_true_eq] at h ⊢
    exact ⟨⟨⟨by omega, h.1.1.2⟩, h.1.2⟩, h.2⟩

theorem erase_wfFrom (a : Nat) (m : Memory) (lo : Option Nat) (h : Memory.wfFrom lo m = true) :
    Memory.wfFrom lo (m.erase a) = true := by
  induction m generalizing lo with
  | nil => exact h
  | cons p rest ih =>
    obtain ⟨c, v⟩ := p
    simp only [Memory.wfFrom, Bool.and_eq_true, decide_eq_true_eq] at h
    by_cases hc : c = a
    · rw [show Memory.erase ((c, v) :: rest) a = Memory.erase rest a by simp [Memory.erase, hc]]
      apply ih
      cases lo with
      | none => exact wfFrom_weaken h.2
      | some l =>
        have hlt : l < c := by simpa using h.1.1.1
        exact wfFrom_mono (Nat.le_of_lt hlt) h.2
    · rw [show Memory.erase ((c, v) :: rest) a = (c, v) :: Memory.erase rest a by
        simp [Memory.erase, hc]]
      simp only [Memory.wfFrom, Bool.and_eq_true, decide_eq_true_eq]
      exact ⟨h.1, ih _ h.2⟩

/-- No cell of the list is at this address. -/
def Absent (a : Nat) (m : Memory) : Prop := ∀ p ∈ m, p.1 ≠ a

theorem absent_erase (a : Nat) (m : Memory) : Absent a (m.erase a) := by
  induction m with
  | nil => simp [Absent, Memory.erase]
  | cons p rest ih =>
    obtain ⟨c, v⟩ := p
    by_cases hc : c = a
    · simpa [Memory.erase, hc] using ih
    · intro q hq
      rw [show Memory.erase ((c, v) :: rest) a = (c, v) :: Memory.erase rest a by
        simp [Memory.erase, hc]] at hq
      rcases List.mem_cons.mp hq with rfl | hq
      · exact hc
      · exact ih q hq

theorem insert_wfFrom {a : Nat} {v : Byte} (ha : a < 2 ^ 32) (hv : v ≠ Memory.default) :
    ∀ (m : Memory) (lo : Option Nat), Memory.wfFrom lo m = true → Absent a m →
      (∀ l, lo = some l → l < a) → Memory.wfFrom lo (m.insert a v) = true := by
  intro m
  induction m with
  | nil =>
    intro lo _ _ hlo
    cases lo with
    | none => simp [Memory.insert, Memory.wfFrom, hv]; omega
    | some l => simp [Memory.insert, Memory.wfFrom, hv, hlo l rfl]; omega
  | cons p rest ih =>
    obtain ⟨c, w⟩ := p
    intro lo h hab hlo
    simp only [Memory.wfFrom, Bool.and_eq_true, decide_eq_true_eq] at h
    by_cases hlt : a < c
    · rw [show Memory.insert ((c, w) :: rest) a v = (a, v) :: (c, w) :: rest by
        simp [Memory.insert, hlt]]
      simp only [Memory.wfFrom, Bool.and_eq_true, decide_eq_true_eq]
      refine ⟨⟨⟨?_, ha⟩, hv⟩, ⟨⟨hlt, h.1.1.2⟩, h.1.2⟩, h.2⟩
      cases lo with
      | none => rfl
      | some l => simpa using hlo l rfl
    · have hca : c < a := by
        have := hab (c, w) (by simp)
        simp at this
        omega
      rw [show Memory.insert ((c, w) :: rest) a v = (c, w) :: Memory.insert rest a v by
        simp [Memory.insert, hlt]]
      simp only [Memory.wfFrom, Bool.and_eq_true, decide_eq_true_eq]
      exact ⟨h.1, ih _ h.2 (fun q hq => hab q (List.mem_cons_of_mem _ hq))
        (fun l hl => by cases hl; exact hca)⟩

/-- A write at an address of the address space keeps the canonical form. -/
theorem write_wf {m : Memory} (h : m.wf = true) {a : Nat} (ha : a < 2 ^ 32) (v : Byte) :
    (m.write a v).wf = true := by
  unfold Memory.write
  split
  · exact erase_wfFrom a m none h
  · next hv =>
    exact insert_wfFrom ha hv _ none (erase_wfFrom a m none h) (absent_erase a m)
      (fun l hl => by cases hl)

/-- The memory after reset has the canonical form. -/
theorem reset_mem_wf : State.reset.mem.wf = true := rfl

/-- `MemWrite` keeps the canonical form, at every address and width. -/
theorem writeLE_wf (n : Nat) : ∀ (m : Memory) (a : Word) (v : Nat), m.wf = true →
    (writeLE m a n v).wf = true := by
  induction n with
  | zero => intro m a v h; exact h
  | succ n ih => intro m a v h; exact ih _ _ _ (write_wf h a.isLt _)

/-- The loader keeps the canonical form. -/
theorem loadBytes_wf (bs : List Byte) : ∀ (m : Memory) (a : Word), m.wf = true →
    (loadBytes m a bs).wf = true := by
  induction bs with
  | nil => intro m a h; exact h
  | cons b rest ih => intro m a h; exact ih _ _ (write_wf h a.isLt _)

theorem store8_wf {s : State} (h : s.mem.wf = true) (a : Word) (v : Byte) :
    (s.store8 a v).mem.wf = true := writeLE_wf _ _ _ _ h

theorem store16_wf {s : State} (h : s.mem.wf = true) (a : Word) (v : Half) :
    (s.store16 a v).mem.wf = true := writeLE_wf _ _ _ _ h

theorem store32_wf {s : State} (h : s.mem.wf = true) (a : Word) (v : Word) :
    (s.store32 a v).mem.wf = true := writeLE_wf _ _ _ _ h

theorem store64_wf {s : State} (h : s.mem.wf = true) (a : Word) (v : Pattern) :
    (s.store64 a v).mem.wf = true := writeLE_wf _ _ _ _ h

/-- In a canonical list nothing at or below the bound is listed. -/
theorem read_below {m : Memory} {lo a : Nat} (h : Memory.wfFrom (some lo) m = true) (ha : a ≤ lo) :
    m.read a = Memory.default := by
  induction m generalizing lo with
  | nil => rfl
  | cons p rest ih =>
    obtain ⟨c, v⟩ := p
    simp only [Memory.wfFrom, Bool.and_eq_true, decide_eq_true_eq] at h
    have hne : c ≠ a := by omega
    have := ih h.2 (by omega : a ≤ c)
    simp [Memory.read, hne, this]

/-! ## Wide accesses -/

/-- Two offsets below 2^32 from one base are one address only if they are equal. -/
theorem add_ofNat_inj (a : Word) {j k : Nat} (hj : j < 2 ^ 32) (hk : k < 2 ^ 32) :
    a + BitVec.ofNat 32 j = a + BitVec.ofNat 32 k ↔ j = k := by
  constructor
  · intro h
    have h' := congrArg BitVec.toNat (BitVec.add_right_inj a |>.mp h)
    rwa [BitVec.toNat_ofNat, BitVec.toNat_ofNat, Nat.mod_eq_of_lt hj, Nat.mod_eq_of_lt hk] at h'
  · rintro rfl; rfl

theorem add_one_add_ofNat (a : Word) (k : Nat) :
    a + 1 + BitVec.ofNat 32 k = a + BitVec.ofNat 32 (k + 1) := by
  rw [BitVec.add_assoc]
  congr 1
  apply BitVec.eq_of_toNat_eq
  simp [BitVec.toNat_add, Nat.add_comm]

/-- A wide write leaves every byte outside it alone. -/
theorem read_writeLE_outside (n : Nat) : ∀ (m : Memory) (a : Word) (v : Nat) (b : Word),
    (∀ k, k < n → b ≠ a + BitVec.ofNat 32 k) →
    (writeLE m a n v).read b.toNat = m.read b.toNat := by
  induction n with
  | zero => intro m a v b _; rfl
  | succ n ih =>
    intro m a v b h
    have h0 : b ≠ a := by simpa using h 0 (by omega)
    rw [writeLE, ih, read_write, if_neg]
    · exact fun e => h0 (BitVec.eq_of_toNat_eq e)
    · intro k hk
      rw [add_one_add_ofNat]
      exact h (k + 1) (by omega)

/-- A wide write puts byte k of the value at offset k. -/
theorem read_writeLE_inside (n : Nat) (hn : n ≤ 2 ^ 32) : ∀ (m : Memory) (a : Word) (v k : Nat),
    k < n →
    (writeLE m a n v).read (a + BitVec.ofNat 32 k).toNat = BitVec.ofNat 8 (v / 2 ^ (8 * k)) := by
  induction n with
  | zero => intro m a v k hk; omega
  | succ n ih =>
    intro m a v k hk
    cases k with
    | zero =>
      rw [writeLE, read_writeLE_outside]
      · simp
      · intro j hj
        rw [add_one_add_ofNat]
        intro e
        have := (add_ofNat_inj a (by omega : (0 : Nat) < 2 ^ 32) (by omega)).mp e
        omega
    | succ k =>
      rw [← add_one_add_ofNat, writeLE, ih (by omega) _ _ _ _ (by omega), Nat.div_div_eq_div_mul]
      congr 2
      rw [show 8 * (k + 1) = 8 + 8 * k by ring, Nat.pow_add]

/-- A read of n bytes is below 2^(8n). -/
theorem readLE_lt (n : Nat) : ∀ (m : Memory) (a : Word), readLE m a n < 2 ^ (8 * n) := by
  induction n with
  | zero => intro m a; simp [readLE]
  | succ n ih =>
    intro m a
    have h1 := ih m (a + 1)
    have h2 := (m.read a.toNat).isLt
    have e : 2 ^ (8 * (n + 1)) = 2 ^ 8 * 2 ^ (8 * n) := by rw [← Nat.pow_add]; congr 1; ring
    rw [readLE, e]
    calc (m.read a.toNat).toNat + 2 ^ 8 * readLE m (a + 1) n
        < 2 ^ 8 + 2 ^ 8 * readLE m (a + 1) n := by omega
      _ = 2 ^ 8 * (readLE m (a + 1) n + 1) := by ring
      _ ≤ 2 ^ 8 * 2 ^ (8 * n) := Nat.mul_le_mul_left _ h1

/-- Two memories that agree on the n bytes read alike. -/
theorem readLE_congr (n : Nat) : ∀ (m m' : Memory) (a : Word),
    (∀ k, k < n → m'.read (a + BitVec.ofNat 32 k).toNat = m.read (a + BitVec.ofNat 32 k).toNat) →
    readLE m' a n = readLE m a n := by
  induction n with
  | zero => intro m m' a _; rfl
  | succ n ih =>
    intro m m' a h
    have h0 := h 0 (by omega)
    rw [show a + BitVec.ofNat 32 0 = a by simp] at h0
    rw [readLE, readLE, h0, ih m m' (a + 1)]
    intro k hk
    rw [add_one_add_ofNat]
    exact h (k + 1) (by omega)

/-- Bytes that hold a value read back as the value modulo their width (R52). -/
theorem readLE_of_bytes (n : Nat) : ∀ (m : Memory) (a : Word) (v : Nat),
    (∀ k, k < n → m.read (a + BitVec.ofNat 32 k).toNat = BitVec.ofNat 8 (v / 2 ^ (8 * k))) →
    readLE m a n = v % 2 ^ (8 * n) := by
  induction n with
  | zero => intro m a v _; simp [readLE, Nat.mod_one]
  | succ n ih =>
    intro m a v h
    have h0 := h 0 (by omega)
    rw [show a + BitVec.ofNat 32 0 = a by simp] at h0
    simp only [Nat.mul_zero, Nat.pow_zero, Nat.div_one] at h0
    rw [readLE, h0, ih m (a + 1) (v / 2 ^ 8)]
    · rw [BitVec.toNat_ofNat, show 8 * (n + 1) = 8 + 8 * n by ring, Nat.pow_add, Nat.mod_mul]
    · intro k hk
      rw [add_one_add_ofNat, h (k + 1) (by omega), Nat.div_div_eq_div_mul, ← Nat.pow_add]
      congr 3
      ring

/-- The bytes of a state after a store, in the statements' words. -/
theorem readByte_store32_outside (s : State) (a v b : Word)
    (h : ∀ k, k < 4 → b ≠ a + BitVec.ofNat 32 k) : (s.store32 a v).readByte b = s.readByte b :=
  read_writeLE_outside 4 _ _ _ _ h

theorem readByte_store8_outside (s : State) (a : Word) (v : Byte) (b : Word)
    (h : ∀ k, k < 1 → b ≠ a + BitVec.ofNat 32 k) : (s.store8 a v).readByte b = s.readByte b :=
  read_writeLE_outside 1 _ _ _ _ h

theorem readByte_store16_outside (s : State) (a : Word) (v : Half) (b : Word)
    (h : ∀ k, k < 2 → b ≠ a + BitVec.ofNat 32 k) : (s.store16 a v).readByte b = s.readByte b :=
  read_writeLE_outside 2 _ _ _ _ h

theorem readByte_store64_outside (s : State) (a : Word) (v : Pattern) (b : Word)
    (h : ∀ k, k < 8 → b ≠ a + BitVec.ofNat 32 k) : (s.store64 a v).readByte b = s.readByte b :=
  read_writeLE_outside 8 _ _ _ _ h

/-- Byte k of the loaded sequence at base + k (R342), when the sequence does not wrap onto
itself. -/
theorem read_loadBytes_outside (bs : List Byte) : ∀ (m : Memory) (a : Word) (b : Word),
    (∀ k, k < bs.length → b ≠ a + BitVec.ofNat 32 k) →
    (loadBytes m a bs).read b.toNat = m.read b.toNat := by
  induction bs with
  | nil => intro m a b _; rfl
  | cons c rest ih =>
    intro m a b h
    have h0 : b ≠ a := by simpa using h 0 (by simp)
    rw [loadBytes, ih, read_write, if_neg]
    · exact fun e => h0 (BitVec.eq_of_toNat_eq e)
    · intro k hk
      rw [add_one_add_ofNat]
      exact h (k + 1) (by simpa using hk)

theorem read_loadBytes_inside (bs : List Byte) : ∀ (m : Memory) (a : Word) (k : Nat)
    (hk : k < bs.length), bs.length ≤ 2 ^ 32 →
    (loadBytes m a bs).read (a + BitVec.ofNat 32 k).toNat = bs[k] := by
  induction bs with
  | nil => intro m a k hk; simp at hk
  | cons c rest ih =>
    intro m a k hk hl
    simp only [List.length_cons] at hl hk
    cases k with
    | zero =>
      rw [loadBytes, read_loadBytes_outside]
      · simp
      · intro j hj
        rw [add_one_add_ofNat]
        intro e
        have := (add_ofNat_inj a (by omega : (0 : Nat) < 2 ^ 32) (by omega)).mp e
        omega
    | succ k =>
      rw [← add_one_add_ofNat, loadBytes, ih _ _ k (by omega) (by omega)]
      rfl

end Sys2Proof.Machine
end

