-- ==== Sys2Proof/Laws/Ops.lean ====
section
/-! SUPPORT. One lemma for each shared operation that a meaning ends in: what the state after it is.
Later proofs cite these and do not unfold the operations. -/

namespace Sys2Proof.Machine

/-! ## Frames -/

/-- Nothing but the pc changed. -/
theorem frame_of_eq {s t : State} (hx : t.x = s.x) (hf : t.f = s.f) (hm : t.mem = s.mem)
    (hr : t.run = s.run) (ho : t.out = s.out) : Frame [] [] none s t where
  x _ _ := by simp [State.readX, hx]
  f _ _ := by simp [State.readF, hf]
  mem _ _ := by simp [State.readByte, hm]
  run := hr
  out := ho

/-- A frame that allows more. -/
theorem Frame.mono {xs xs' : List XReg} {fs fs' : List FReg} {st : Option (Word × Nat)}
    {s t : State} (h : Frame xs fs st s t) (hx : ∀ r ∈ xs, r ∈ xs') (hf : ∀ r ∈ fs, r ∈ fs') :
    Frame xs' fs' st s t where
  x r hr := h.x r (fun h' => hr (hx r h'))
  f r hr := h.f r (fun h' => hr (hf r h'))
  mem := h.mem
  run := h.run
  out := h.out

/-! ## Register results -/

/-- `setX`: the value in its register, the pc advanced, nothing else. -/
theorem setX_spec (r : XReg) (v : Word) (s : State) : CompletesX (setX r v s) s r v := by
  refine ⟨_, rfl, by simp, rfl, ?_, ?_, ?_, rfl, rfl⟩
  · intro q hq
    simp only [List.mem_singleton] at hq
    simp [hq]
  · intro q _; rfl
  · intro b _; rfl

/-- `setF`: the pattern in its register, the pc advanced, nothing else. -/
theorem setF_spec (r : FReg) (v : Pattern) (s : State) : CompletesF (setF r v s) s r v := by
  refine ⟨_, rfl, by simp, rfl, ?_, ?_, ?_, rfl, rfl⟩
  · intro q _; rfl
  · intro q hq
    simp only [List.mem_singleton] at hq
    simp [hq]
  · intro b _; rfl

/-- `setXDivided` with a divisor that is not zero is `setX`. -/
theorem setXDivided_ne (r : XReg) (op : Word → Word → Word) (a b : Word) (s : State) (h : b ≠ 0) :
    setXDivided r op a b s = setX r (op a b) s := if_neg h

/-- `setXDivided` with a zero divisor is an ArithmeticFault. -/
theorem setXDivided_zero (r : XReg) (op : Word → Word → Word) (a b : Word) (s : State) (h : b = 0) :
    FaultsWith (setXDivided r op a b s) s .arithmeticFault s.fetchWord := if_pos h

/-- Everything a divide or remainder can do: an ArithmeticFault on a zero divisor, its result on any
other (R124, R323). -/
theorem setXDivided_cases {r : XReg} {op : Word → Word → Word} {a b : Word} {s t : State}
    (h : setXDivided r op a b s = .next t) :
    (b = 0 ∧ t = s.takeFault .arithmeticFault) ∨
      (b ≠ 0 ∧ t = (s.writeX r (op a b)).advance) := by
  unfold setXDivided at h
  split at h
  · next hb => cases h; exact .inl ⟨hb, rfl⟩
  · next hb => cases h; exact .inr ⟨hb, rfl⟩

/-- A taken fault changes the run state alone (R326, R327). -/
theorem takeFault_spec (s : State) (k : FaultKind) :
    FaultsWith (.next (s.takeFault k)) s k s.fetchWord := rfl

/-- A jump changes the pc alone (R103). -/
theorem jump_spec (s : State) (a : Word) : CompletesJump (.next (s.jump a)) s a :=
  ⟨_, rfl, rfl, frame_of_eq rfl rfl rfl rfl rfl⟩

/-- A branch changes the pc alone (R200). -/
theorem branch_spec (s : State) (k : Int) (c : Bool) (imm16 : Half) :
    CompletesJump (.next (s.branch k c imm16)) s
      (if c then branchTarget k s.pc imm16 else s.pc + 4) := jump_spec s _

/-! ## Stores -/

/-- The bytes of a wide write, byte k of the value at offset k. -/
theorem bytesAt_writeLE (s t : State) (a : Word) (n v : Nat) (hn : n ≤ 2 ^ 32)
    (ht : t.mem = writeLE s.mem a n v) : BytesAt t a n v := by
  intro k hk
  simp only [State.readByte, ht]
  exact read_writeLE_inside n hn s.mem a v k hk

/-- A wide write leaves the other bytes alone. -/
theorem memFrame_writeLE (s t : State) (a : Word) (n v : Nat) (ht : t.mem = writeLE s.mem a n v)
    (b : Word) (h : ∀ a' n', some (a, n) = some (a', n') → OutsideBytes a' n' b) :
    t.readByte b = s.readByte b := by
  simp only [State.readByte, ht]
  exact read_writeLE_outside n s.mem a v b (h a n rfl)

/-- A state that differs from another in pc and in `n` written bytes: a completed store. -/
theorem store_spec (s t : State) (a : Word) (n v : Nat) (hn : n ≤ 2 ^ 32)
    (hx : t.x = s.x) (hf : t.f = s.f) (hr : t.run = s.run) (ho : t.out = s.out)
    (hp : t.pc = s.pc + 4) (hm : t.mem = writeLE s.mem a n v) :
    CompletesStore (.next t) s a n v := by
  refine ⟨t, rfl, bytesAt_writeLE s t a n v hn hm, hp, ?_, ?_, ?_, hr, ho⟩
  · intro r _; simp [State.readX, hx]
  · intro r _; simp [State.readF, hf]
  · exact memFrame_writeLE s t a n v hm

/-- A write, SP moved down, the pc advanced: a completed push. -/
theorem push_spec (s u : State) (k n v : Nat) (hn : n ≤ 2 ^ 32)
    (hx : u.x = s.x) (hf : u.f = s.f) (hr : u.run = s.run) (ho : u.out = s.out)
    (hp : u.pc = s.pc) (hm : u.mem = writeLE s.mem (s.pushAddr k) n v) :
    CompletesPush (.next (u.pushSP k).advance) s k n v := by
  have hsp : u.pushAddr k = s.pushAddr k := by simp [State.pushAddr, State.readX, hx]
  refine ⟨_, rfl, bytesAt_writeLE s _ _ n v hn hm, ?_, ?_, ?_, ?_, ?_, hr, ho⟩
  · simp [State.pushSP, hsp]
  · simp [State.pushSP, hp]
  · intro r hr'
    simp only [List.mem_singleton] at hr'
    have hu : u.readX r = s.readX r := by simp [State.readX, hx]
    simp [State.pushSP, hr', hu]
  · intro r _; simp [State.pushSP, State.readF, hf]
  · exact memFrame_writeLE s _ _ n v hm

/-- SP moved up, then the destination, then the pc: a completed pop. -/
theorem popX_spec (s : State) (r : XReg) (k : Nat) (v : Word) :
    CompletesPopX (.next ((s.writeX regSP (s.popSP k)).writeX r v).advance) s r k v := by
  refine ⟨_, rfl, by simp, ?_, rfl, ?_, ?_, ?_, rfl, rfl⟩
  · intro h
    simp [Ne.symm h, State.popSP]
  · intro q hq
    simp only [List.mem_cons, List.not_mem_nil, or_false, not_or] at hq
    simp [hq.1, hq.2]
  · intro q _; rfl
  · intro b _; rfl

/-- The same into a float register. -/
theorem popF_spec (s : State) (r : FReg) (k : Nat) (v : Pattern) :
    CompletesPopF (.next ((s.writeX regSP (s.popSP k)).writeF r v).advance) s r k v := by
  refine ⟨_, rfl, by simp, by simp [State.popSP], rfl, ?_, ?_, ?_, rfl, rfl⟩
  · intro q hq
    simp only [List.mem_singleton] at hq
    simp [hq]
  · intro q hq
    simp only [List.mem_singleton] at hq
    simp [hq]
  · intro b _; rfl

/-! ## Decoding and the step -/

/-- The only reason a word is rejected (R94, R101). -/
theorem decodeWord_error {w : Word} {e : DecodeReject} (h : decodeWord w = .error e) :
    e = .unassignedOpcode (fieldOp w) ∧ opcodeMap.mnemonicOf (fieldOp w) = none := by
  unfold decodeWord decodeWith at h
  split at h
  · cases h
  · next hn => cases h; exact ⟨rfl, hn⟩

/-- A decoded word is what its mnemonic builds. -/
theorem decodeWord_ok {w : Word} {i : Instr} (h : decodeWord w = .ok i) :
    ∃ m, opcodeMap.mnemonicOf (fieldOp w) = some m ∧ i = m.build w := by
  unfold decodeWord decodeWith at h
  split at h
  · next m hm => cases h; exact ⟨m, hm, rfl⟩
  · cases h

/-- A word is rejected exactly when its opcode is not in the image of the map (R95, R101). -/
theorem decodeWith_error_iff {map : OpcodeMap} {w : Word} {e : DecodeReject} :
    decodeWith map w = .error e ↔
      e = .unassignedOpcode (fieldOp w) ∧ map.mnemonicOf (fieldOp w) = none := by
  unfold decodeWith
  cases map.mnemonicOf (fieldOp w) <;> simp [eq_comm]

/-- Everything one step can do, under any map and any meanings (R100 to R104). -/
theorem stepOf_cases {map : OpcodeMap} {ex : Instr → State → StepResult} {s t : State}
    (h : stepOf map ex s = .next t) :
    s.run = .running ∧
      ((∃ i, decodeWith map s.fetchWord = .ok i ∧ ex i s = .next t) ∨
        (∃ e, decodeWith map s.fetchWord = .error e ∧ t = s.takeFault .decodeFault)) := by
  unfold stepOf at h
  split at h
  · next hr =>
    refine ⟨hr, ?_⟩
    unfold cycleOf at h
    split at h
    · next i hi => exact .inl ⟨i, hi, h⟩
    · next e he => exact .inr ⟨e, he, by cases h; rfl⟩
  · cases h
  · cases h

/-- Everything a step on a supplied word can do (R343). -/
theorem stepWordOf_cases {map : OpcodeMap} {ex : Instr → State → StepResult} {w : Word}
    {s t : State} (h : stepWordOf map ex w s = .next t) :
    s.run = .running ∧
      ((∃ i, decodeWith map w = .ok i ∧ recordWord w (ex i s) = .next t) ∨
        (∃ e, decodeWith map w = .error e ∧ t = s.raiseFault .decodeFault w)) := by
  unfold stepWordOf at h
  split at h
  · next hr =>
    refine ⟨hr, ?_⟩
    split at h
    · next i hi => exact .inl ⟨i, hi, h⟩
    · next e he => exact .inr ⟨e, he, by cases h; rfl⟩
  · cases h
  · cases h

/-- Everything recording a supplied word can do: the state as it is, or its fault record with the
word in it (R327, R343). -/
theorem recordWord_cases {w : Word} {o : StepResult} {t : State} (h : recordWord w o = .next t) :
    ∃ u, o = .next u ∧ (((∀ k p v, u.run ≠ .faulted k p v) ∧ t = u) ∨
      ∃ k p v, u.run = .faulted k p v ∧ t = { u with run := .faulted k p w }) := by
  unfold recordWord at h
  split at h
  · next u =>
    refine ⟨u, rfl, ?_⟩
    split at h
    · next k p v hr => cases h; exact .inr ⟨k, p, v, hr, rfl⟩
    · next hr => cases h; exact .inl ⟨hr, rfl⟩
  · next hn => subst h; exact absurd rfl (hn t)

/-- The step of a running machine whose word decodes. -/
theorem stepOf_of_decode {map : OpcodeMap} {ex : Instr → State → StepResult} {s : State} {i : Instr}
    (hr : s.run = .running) (hd : decodeWith map s.fetchWord = .ok i) :
    stepOf map ex s = ex i s := by
  unfold stepOf cycleOf
  rw [hr, hd]

/-- The step of a running machine whose word does not decode. -/
theorem stepOf_of_reject {map : OpcodeMap} {ex : Instr → State → StepResult} {s : State}
    {e : DecodeReject} (hr : s.run = .running) (hd : decodeWith map s.fetchWord = .error e) :
    stepOf map ex s = .next (s.takeFault .decodeFault) := by
  unfold stepOf cycleOf
  rw [hr, hd]

/-- The step on a supplied word that decodes. -/
theorem stepWordOf_of_decode {map : OpcodeMap} {ex : Instr → State → StepResult} {w : Word}
    {s : State} {i : Instr} (hr : s.run = .running) (hd : decodeWith map w = .ok i) :
    stepWordOf map ex w s = recordWord w (ex i s) := by
  unfold stepWordOf
  simp only [hr, hd]

/-- The step on a supplied word that does not decode. -/
theorem stepWordOf_of_reject {map : OpcodeMap} {ex : Instr → State → StepResult} {w : Word}
    {s : State} {e : DecodeReject} (hr : s.run = .running) (hd : decodeWith map w = .error e) :
    stepWordOf map ex w s = .next (s.raiseFault .decodeFault w) := by
  unfold stepWordOf
  simp only [hr, hd]

/-- Everything one step of the reference machine can do (R100 to R104). -/
theorem step_cases {s t : State} (h : step s = .next t) :
    s.run = .running ∧
      ((∃ i, decodeWord s.fetchWord = .ok i ∧ exec i s = .next t) ∨
        (∃ e, decodeWord s.fetchWord = .error e ∧ t = s.takeFault .decodeFault)) :=
  stepOf_cases h

/-- The step of the running reference machine whose word decodes. -/
theorem step_of_decode {s : State} {i : Instr} (hr : s.run = .running)
    (hd : decodeWord s.fetchWord = .ok i) : step s = exec i s := stepOf_of_decode hr hd

/-- The step of the running reference machine whose word does not decode. -/
theorem step_of_reject {s : State} {e : DecodeReject} (hr : s.run = .running)
    (hd : decodeWord s.fetchWord = .error e) : step s = .next (s.takeFault .decodeFault) :=
  stepOf_of_reject hr hd

/-- The word at pc is its four bytes, the first least significant (R52, R53, R60). -/
theorem fetchWord_eq (s : State) :
    s.fetchWord = wordOfBytes (s.readByte s.pc) (s.readByte (s.pc + 1)) (s.readByte (s.pc + 2))
      (s.readByte (s.pc + 3)) := by
  have e2 : s.pc + 1 + 1 = s.pc + 2 := by rw [BitVec.add_assoc]; rfl
  have e3 : s.pc + 2 + 1 = s.pc + 3 := by rw [BitVec.add_assoc]; rfl
  have h0 := (s.mem.read s.pc.toNat).isLt
  have h1 := (s.mem.read (s.pc + 1).toNat).isLt
  have h2 := (s.mem.read (s.pc + 2).toNat).isLt
  have h3 := (s.mem.read (s.pc + 3).toNat).isLt
  apply BitVec.eq_of_toNat_eq
  simp only [State.fetchWord, State.load32, readLE, e2, e3, wordOfBytes, State.readByte,
    BitVec.toNat_ofNat, BitVec.toNat_append]
  rw [← Nat.shiftLeft_add_eq_or_of_lt h0, ← Nat.shiftLeft_add_eq_or_of_lt h1,
    ← Nat.shiftLeft_add_eq_or_of_lt h2]
  simp only [Nat.shiftLeft_eq]
  omega

end Sys2Proof.Machine
end

