-- ==== Sys2Proof/Laws/PerInstr.lean ====
section
/-! SUPPORT. Lemmas per instruction: the reference map gives every instruction an opcode byte of its
own, which stands above its fields in its word and is looked up to its mnemonic (R95, R96). -/

namespace Sys2Proof.Laws

/-- The word of the instruction under the reference map has an opcode byte that belongs to its
mnemonic. -/
def OpcodeByte.Statement (i : Instr) : Prop :=
  ∃ op : Byte, encode i = some (op ++ i.fields) ∧ opcodeMap.mnemonicOf op = some i.mnemonic

theorem OpcodeByte.nop : OpcodeByte.Statement (.nop) :=
  ⟨0x01, rfl, rfl⟩

theorem OpcodeByte.halt : OpcodeByte.Statement (.halt) :=
  ⟨0x02, rfl, rfl⟩

theorem OpcodeByte.putc (ra : XReg) : OpcodeByte.Statement (.putc ra) :=
  ⟨0x03, rfl, rfl⟩

theorem OpcodeByte.add (ra rb rc : XReg) : OpcodeByte.Statement (.add ra rb rc) :=
  ⟨0x10, rfl, rfl⟩

theorem OpcodeByte.addSi (ra rb : XReg) (imm16 : Half) :
    OpcodeByte.Statement (.addSi ra rb imm16) :=
  ⟨0x11, rfl, rfl⟩

theorem OpcodeByte.addZi (ra rb : XReg) (imm16 : Half) :
    OpcodeByte.Statement (.addZi ra rb imm16) :=
  ⟨0x12, rfl, rfl⟩

theorem OpcodeByte.addu (ra rb rc : XReg) : OpcodeByte.Statement (.addu ra rb rc) :=
  ⟨0x13, rfl, rfl⟩

theorem OpcodeByte.adduSi (ra rb : XReg) (imm16 : Half) :
    OpcodeByte.Statement (.adduSi ra rb imm16) :=
  ⟨0x14, rfl, rfl⟩

theorem OpcodeByte.adduZi (ra rb : XReg) (imm16 : Half) :
    OpcodeByte.Statement (.adduZi ra rb imm16) :=
  ⟨0x15, rfl, rfl⟩

theorem OpcodeByte.sub (ra rb rc : XReg) : OpcodeByte.Statement (.sub ra rb rc) :=
  ⟨0x16, rfl, rfl⟩

theorem OpcodeByte.subSi (ra rb : XReg) (imm16 : Half) :
    OpcodeByte.Statement (.subSi ra rb imm16) :=
  ⟨0x17, rfl, rfl⟩

theorem OpcodeByte.subZi (ra rb : XReg) (imm16 : Half) :
    OpcodeByte.Statement (.subZi ra rb imm16) :=
  ⟨0x18, rfl, rfl⟩

theorem OpcodeByte.subu (ra rb rc : XReg) : OpcodeByte.Statement (.subu ra rb rc) :=
  ⟨0x19, rfl, rfl⟩

theorem OpcodeByte.subuSi (ra rb : XReg) (imm16 : Half) :
    OpcodeByte.Statement (.subuSi ra rb imm16) :=
  ⟨0x1A, rfl, rfl⟩

theorem OpcodeByte.subuZi (ra rb : XReg) (imm16 : Half) :
    OpcodeByte.Statement (.subuZi ra rb imm16) :=
  ⟨0x1B, rfl, rfl⟩

theorem OpcodeByte.mul (ra rb rc : XReg) : OpcodeByte.Statement (.mul ra rb rc) :=
  ⟨0x1C, rfl, rfl⟩

theorem OpcodeByte.mulSi (ra rb : XReg) (imm16 : Half) :
    OpcodeByte.Statement (.mulSi ra rb imm16) :=
  ⟨0x1D, rfl, rfl⟩

theorem OpcodeByte.mulZi (ra rb : XReg) (imm16 : Half) :
    OpcodeByte.Statement (.mulZi ra rb imm16) :=
  ⟨0x1E, rfl, rfl⟩

theorem OpcodeByte.mulu (ra rb rc : XReg) : OpcodeByte.Statement (.mulu ra rb rc) :=
  ⟨0x1F, rfl, rfl⟩

theorem OpcodeByte.muluSi (ra rb : XReg) (imm16 : Half) :
    OpcodeByte.Statement (.muluSi ra rb imm16) :=
  ⟨0x20, rfl, rfl⟩

theorem OpcodeByte.muluZi (ra rb : XReg) (imm16 : Half) :
    OpcodeByte.Statement (.muluZi ra rb imm16) :=
  ⟨0x21, rfl, rfl⟩

theorem OpcodeByte.div (ra rb rc : XReg) : OpcodeByte.Statement (.div ra rb rc) :=
  ⟨0x22, rfl, rfl⟩

theorem OpcodeByte.divSi (ra rb : XReg) (imm16 : Half) :
    OpcodeByte.Statement (.divSi ra rb imm16) :=
  ⟨0x23, rfl, rfl⟩

theorem OpcodeByte.divZi (ra rb : XReg) (imm16 : Half) :
    OpcodeByte.Statement (.divZi ra rb imm16) :=
  ⟨0x24, rfl, rfl⟩

theorem OpcodeByte.divu (ra rb rc : XReg) : OpcodeByte.Statement (.divu ra rb rc) :=
  ⟨0x25, rfl, rfl⟩

theorem OpcodeByte.divuSi (ra rb : XReg) (imm16 : Half) :
    OpcodeByte.Statement (.divuSi ra rb imm16) :=
  ⟨0x26, rfl, rfl⟩

theorem OpcodeByte.divuZi (ra rb : XReg) (imm16 : Half) :
    OpcodeByte.Statement (.divuZi ra rb imm16) :=
  ⟨0x27, rfl, rfl⟩

theorem OpcodeByte.mod (ra rb rc : XReg) : OpcodeByte.Statement (.mod ra rb rc) :=
  ⟨0x28, rfl, rfl⟩

theorem OpcodeByte.modSi (ra rb : XReg) (imm16 : Half) :
    OpcodeByte.Statement (.modSi ra rb imm16) :=
  ⟨0x29, rfl, rfl⟩

theorem OpcodeByte.modZi (ra rb : XReg) (imm16 : Half) :
    OpcodeByte.Statement (.modZi ra rb imm16) :=
  ⟨0x2A, rfl, rfl⟩

theorem OpcodeByte.modu (ra rb rc : XReg) : OpcodeByte.Statement (.modu ra rb rc) :=
  ⟨0x2B, rfl, rfl⟩

theorem OpcodeByte.moduSi (ra rb : XReg) (imm16 : Half) :
    OpcodeByte.Statement (.moduSi ra rb imm16) :=
  ⟨0x2C, rfl, rfl⟩

theorem OpcodeByte.moduZi (ra rb : XReg) (imm16 : Half) :
    OpcodeByte.Statement (.moduZi ra rb imm16) :=
  ⟨0x2D, rfl, rfl⟩

theorem OpcodeByte.sll (ra rb rc : XReg) : OpcodeByte.Statement (.sll ra rb rc) :=
  ⟨0x30, rfl, rfl⟩

theorem OpcodeByte.srl (ra rb rc : XReg) : OpcodeByte.Statement (.srl ra rb rc) :=
  ⟨0x31, rfl, rfl⟩

theorem OpcodeByte.sra (ra rb rc : XReg) : OpcodeByte.Statement (.sra ra rb rc) :=
  ⟨0x32, rfl, rfl⟩

theorem OpcodeByte.slli (ra rb : XReg) (imm16 : Half) : OpcodeByte.Statement (.slli ra rb imm16) :=
  ⟨0x33, rfl, rfl⟩

theorem OpcodeByte.srli (ra rb : XReg) (imm16 : Half) : OpcodeByte.Statement (.srli ra rb imm16) :=
  ⟨0x34, rfl, rfl⟩

theorem OpcodeByte.srai (ra rb : XReg) (imm16 : Half) : OpcodeByte.Statement (.srai ra rb imm16) :=
  ⟨0x35, rfl, rfl⟩

theorem OpcodeByte.and (ra rb rc : XReg) : OpcodeByte.Statement (.and ra rb rc) :=
  ⟨0x38, rfl, rfl⟩

theorem OpcodeByte.or (ra rb rc : XReg) : OpcodeByte.Statement (.or ra rb rc) :=
  ⟨0x39, rfl, rfl⟩

theorem OpcodeByte.xor (ra rb rc : XReg) : OpcodeByte.Statement (.xor ra rb rc) :=
  ⟨0x3A, rfl, rfl⟩

theorem OpcodeByte.not (ra rb : XReg) : OpcodeByte.Statement (.not ra rb) :=
  ⟨0x3B, rfl, rfl⟩

theorem OpcodeByte.eq (ra rb rc : XReg) : OpcodeByte.Statement (.eq ra rb rc) :=
  ⟨0x40, rfl, rfl⟩

theorem OpcodeByte.ne (ra rb rc : XReg) : OpcodeByte.Statement (.ne ra rb rc) :=
  ⟨0x41, rfl, rfl⟩

theorem OpcodeByte.lt (ra rb rc : XReg) : OpcodeByte.Statement (.lt ra rb rc) :=
  ⟨0x42, rfl, rfl⟩

theorem OpcodeByte.ltu (ra rb rc : XReg) : OpcodeByte.Statement (.ltu ra rb rc) :=
  ⟨0x43, rfl, rfl⟩

theorem OpcodeByte.gt (ra rb rc : XReg) : OpcodeByte.Statement (.gt ra rb rc) :=
  ⟨0x44, rfl, rfl⟩

theorem OpcodeByte.gtu (ra rb rc : XReg) : OpcodeByte.Statement (.gtu ra rb rc) :=
  ⟨0x45, rfl, rfl⟩

theorem OpcodeByte.le (ra rb rc : XReg) : OpcodeByte.Statement (.le ra rb rc) :=
  ⟨0x46, rfl, rfl⟩

theorem OpcodeByte.leu (ra rb rc : XReg) : OpcodeByte.Statement (.leu ra rb rc) :=
  ⟨0x47, rfl, rfl⟩

theorem OpcodeByte.ge (ra rb rc : XReg) : OpcodeByte.Statement (.ge ra rb rc) :=
  ⟨0x48, rfl, rfl⟩

theorem OpcodeByte.geu (ra rb rc : XReg) : OpcodeByte.Statement (.geu ra rb rc) :=
  ⟨0x49, rfl, rfl⟩

theorem OpcodeByte.b (imm16 : Half) : OpcodeByte.Statement (.b imm16) :=
  ⟨0x50, rfl, rfl⟩

theorem OpcodeByte.beq (ra rb : XReg) (imm16 : Half) : OpcodeByte.Statement (.beq ra rb imm16) :=
  ⟨0x51, rfl, rfl⟩

theorem OpcodeByte.bne (ra rb : XReg) (imm16 : Half) : OpcodeByte.Statement (.bne ra rb imm16) :=
  ⟨0x52, rfl, rfl⟩

theorem OpcodeByte.blt (ra rb : XReg) (imm16 : Half) : OpcodeByte.Statement (.blt ra rb imm16) :=
  ⟨0x53, rfl, rfl⟩

theorem OpcodeByte.bgt (ra rb : XReg) (imm16 : Half) : OpcodeByte.Statement (.bgt ra rb imm16) :=
  ⟨0x54, rfl, rfl⟩

theorem OpcodeByte.j (imm24 : BitVec 24) : OpcodeByte.Statement (.j imm24) :=
  ⟨0x58, rfl, rfl⟩

theorem OpcodeByte.jr (ra : XReg) : OpcodeByte.Statement (.jr ra) :=
  ⟨0x59, rfl, rfl⟩

theorem OpcodeByte.call (ra : XReg) : OpcodeByte.Statement (.call ra) :=
  ⟨0x5A, rfl, rfl⟩

theorem OpcodeByte.ret : OpcodeByte.Statement (.ret) :=
  ⟨0x5B, rfl, rfl⟩

theorem OpcodeByte.lw (ra rb : XReg) (imm16 : Half) : OpcodeByte.Statement (.lw ra rb imm16) :=
  ⟨0x60, rfl, rfl⟩

theorem OpcodeByte.lh (ra rb : XReg) (imm16 : Half) : OpcodeByte.Statement (.lh ra rb imm16) :=
  ⟨0x61, rfl, rfl⟩

theorem OpcodeByte.lb (ra rb : XReg) (imm16 : Half) : OpcodeByte.Statement (.lb ra rb imm16) :=
  ⟨0x62, rfl, rfl⟩

theorem OpcodeByte.lf (ra : FReg) (rb : XReg) (imm16 : Half) :
    OpcodeByte.Statement (.lf ra rb imm16) :=
  ⟨0x63, rfl, rfl⟩

theorem OpcodeByte.sw (ra rb : XReg) (imm16 : Half) : OpcodeByte.Statement (.sw ra rb imm16) :=
  ⟨0x64, rfl, rfl⟩

theorem OpcodeByte.sh (ra rb : XReg) (imm16 : Half) : OpcodeByte.Statement (.sh ra rb imm16) :=
  ⟨0x65, rfl, rfl⟩

theorem OpcodeByte.sb (ra rb : XReg) (imm16 : Half) : OpcodeByte.Statement (.sb ra rb imm16) :=
  ⟨0x66, rfl, rfl⟩

theorem OpcodeByte.sf (ra : FReg) (rb : XReg) (imm16 : Half) :
    OpcodeByte.Statement (.sf ra rb imm16) :=
  ⟨0x67, rfl, rfl⟩

theorem OpcodeByte.li (ra : XReg) (imm16 : Half) : OpcodeByte.Statement (.li ra imm16) :=
  ⟨0x68, rfl, rfl⟩

theorem OpcodeByte.liu (ra : XReg) (imm16 : Half) : OpcodeByte.Statement (.liu ra imm16) :=
  ⟨0x69, rfl, rfl⟩

theorem OpcodeByte.lui (ra : XReg) (imm16 : Half) : OpcodeByte.Statement (.lui ra imm16) :=
  ⟨0x6A, rfl, rfl⟩

theorem OpcodeByte.pushW (ra : XReg) : OpcodeByte.Statement (.pushW ra) :=
  ⟨0x70, rfl, rfl⟩

theorem OpcodeByte.pushH (ra : XReg) : OpcodeByte.Statement (.pushH ra) :=
  ⟨0x71, rfl, rfl⟩

theorem OpcodeByte.pushB (ra : XReg) : OpcodeByte.Statement (.pushB ra) :=
  ⟨0x72, rfl, rfl⟩

theorem OpcodeByte.pushF (ra : FReg) : OpcodeByte.Statement (.pushF ra) :=
  ⟨0x73, rfl, rfl⟩

theorem OpcodeByte.popW (ra : XReg) : OpcodeByte.Statement (.popW ra) :=
  ⟨0x74, rfl, rfl⟩

theorem OpcodeByte.popH (ra : XReg) : OpcodeByte.Statement (.popH ra) :=
  ⟨0x75, rfl, rfl⟩

theorem OpcodeByte.popB (ra : XReg) : OpcodeByte.Statement (.popB ra) :=
  ⟨0x76, rfl, rfl⟩

theorem OpcodeByte.popF (ra : FReg) : OpcodeByte.Statement (.popF ra) :=
  ⟨0x77, rfl, rfl⟩

theorem OpcodeByte.itof (ra : FReg) (rb : XReg) : OpcodeByte.Statement (.itof ra rb) :=
  ⟨0x80, rfl, rfl⟩

theorem OpcodeByte.utof (ra : FReg) (rb : XReg) : OpcodeByte.Statement (.utof ra rb) :=
  ⟨0x81, rfl, rfl⟩

theorem OpcodeByte.ftoi (ra : XReg) (rb : FReg) : OpcodeByte.Statement (.ftoi ra rb) :=
  ⟨0x82, rfl, rfl⟩

theorem OpcodeByte.fadd (ra rb rc : FReg) : OpcodeByte.Statement (.fadd ra rb rc) :=
  ⟨0x90, rfl, rfl⟩

theorem OpcodeByte.fsub (ra rb rc : FReg) : OpcodeByte.Statement (.fsub ra rb rc) :=
  ⟨0x91, rfl, rfl⟩

theorem OpcodeByte.fmul (ra rb rc : FReg) : OpcodeByte.Statement (.fmul ra rb rc) :=
  ⟨0x92, rfl, rfl⟩

theorem OpcodeByte.fdiv (ra rb rc : FReg) : OpcodeByte.Statement (.fdiv ra rb rc) :=
  ⟨0x93, rfl, rfl⟩

theorem OpcodeByte.fmod (ra rb rc : FReg) : OpcodeByte.Statement (.fmod ra rb rc) :=
  ⟨0x94, rfl, rfl⟩

theorem OpcodeByte.ffloor (ra rb : FReg) : OpcodeByte.Statement (.ffloor ra rb) :=
  ⟨0x95, rfl, rfl⟩

theorem OpcodeByte.fceil (ra rb : FReg) : OpcodeByte.Statement (.fceil ra rb) :=
  ⟨0x96, rfl, rfl⟩

theorem OpcodeByte.feq (ra : XReg) (rb rc : FReg) : OpcodeByte.Statement (.feq ra rb rc) :=
  ⟨0x98, rfl, rfl⟩

theorem OpcodeByte.fne (ra : XReg) (rb rc : FReg) : OpcodeByte.Statement (.fne ra rb rc) :=
  ⟨0x99, rfl, rfl⟩

theorem OpcodeByte.flt (ra : XReg) (rb rc : FReg) : OpcodeByte.Statement (.flt ra rb rc) :=
  ⟨0x9A, rfl, rfl⟩

theorem OpcodeByte.fgt (ra : XReg) (rb rc : FReg) : OpcodeByte.Statement (.fgt ra rb rc) :=
  ⟨0x9B, rfl, rfl⟩

theorem OpcodeByte.fle (ra : XReg) (rb rc : FReg) : OpcodeByte.Statement (.fle ra rb rc) :=
  ⟨0x9C, rfl, rfl⟩

theorem OpcodeByte.fge (ra : XReg) (rb rc : FReg) : OpcodeByte.Statement (.fge ra rb rc) :=
  ⟨0x9D, rfl, rfl⟩

end Sys2Proof.Laws
end

