-- ==== Sys2Proof/Tests/Slice0.lean ====
section
/-! SUPPORT. The model's own tests. Expected results are the spec's: the worked examples of the
instruction rules for decoding, the vectors of 95_test_vectors.md for the steps. The witnesses at
the end show that what a statement assumes can be met. -/

namespace Sys2Proof.Machine

/-! ## WellFormed: each check refuses an ill-formed term -/

/-- An opcode map may not assign 0x7E (R95). -/
theorem test_map_with_7E_refused : OpcodeMap.wellFormed [(.nop, 0x7E)] = false := by decide

/-- An opcode map is injective (R95). -/
theorem test_map_with_shared_opcode_refused :
    OpcodeMap.wellFormed [(.nop, 1), (.halt, 1)] = false := by decide

/-- An opcode map gives a mnemonic one opcode (R95). -/
theorem test_map_with_two_opcodes_refused :
    OpcodeMap.wellFormed [(.nop, 1), (.nop, 2)] = false := by decide

/-- An instruction whose mnemonic the map leaves out is not decodable (R95). -/
theorem test_unassigned_instruction_refused :
    Instr.wellFormed [(.nop, 1)] .halt = false ∧ encodeWith [(.nop, 1)] .halt = none := by decide

/-- BRANCH_SCALE is 1 or 4 (R89). -/
theorem test_branch_scale_two_refused :
    Params.wellFormed { params with branchScale := 2 } = false := by decide

/-- NAN_PAYLOAD is a NaN (R271). -/
theorem test_nan_payload_infinity_refused :
    Params.wellFormed { params with nanPayload := 0x7FF0000000000000 } = false := by decide

/-! ## Decoding: the worked example word of every instruction's rule -/

/-- System instructions (45_system.md). -/
theorem test_decode_system :
    decodeWord 0x01000000 = .ok (.nop) ∧
    decodeWord 0x02000000 = .ok (.halt) ∧
    decodeWord 0x03100000 = .ok (.putc 1) := by
  decide

/-- Integer arithmetic (40_int_arith.md). -/
theorem test_decode_int_arith_1 :
    decodeWord 0x10123000 = .ok (.add 1 2 3) ∧
    decodeWord 0x11120001 = .ok (.addSi 1 2 0x0001) ∧
    decodeWord 0x1212FFFF = .ok (.addZi 1 2 0xFFFF) ∧
    decodeWord 0x13123000 = .ok (.addu 1 2 3) ∧
    decodeWord 0x14120001 = .ok (.adduSi 1 2 0x0001) ∧
    decodeWord 0x1512FFFF = .ok (.adduZi 1 2 0xFFFF) ∧
    decodeWord 0x16123000 = .ok (.sub 1 2 3) ∧
    decodeWord 0x1712FFFF = .ok (.subSi 1 2 0xFFFF) ∧
    decodeWord 0x1812FFFF = .ok (.subZi 1 2 0xFFFF) ∧
    decodeWord 0x19123000 = .ok (.subu 1 2 3) ∧
    decodeWord 0x1A12FFFF = .ok (.subuSi 1 2 0xFFFF) ∧
    decodeWord 0x1B12FFFF = .ok (.subuZi 1 2 0xFFFF) ∧
    decodeWord 0x1C123000 = .ok (.mul 1 2 3) ∧
    decodeWord 0x1D12FFFD = .ok (.mulSi 1 2 0xFFFD) ∧
    decodeWord 0x1E128000 = .ok (.mulZi 1 2 0x8000) ∧
    decodeWord 0x1F123000 = .ok (.mulu 1 2 3) := by
  decide

/-- Integer arithmetic (40_int_arith.md). -/
theorem test_decode_int_arith_2 :
    decodeWord 0x2012FFFD = .ok (.muluSi 1 2 0xFFFD) ∧
    decodeWord 0x21128000 = .ok (.muluZi 1 2 0x8000) ∧
    decodeWord 0x22123000 = .ok (.div 1 2 3) ∧
    decodeWord 0x2312FFFE = .ok (.divSi 1 2 0xFFFE) ∧
    decodeWord 0x2412FFFF = .ok (.divZi 1 2 0xFFFF) ∧
    decodeWord 0x25123000 = .ok (.divu 1 2 3) ∧
    decodeWord 0x2612FFFE = .ok (.divuSi 1 2 0xFFFE) ∧
    decodeWord 0x2712FFFF = .ok (.divuZi 1 2 0xFFFF) ∧
    decodeWord 0x28123000 = .ok (.mod 1 2 3) ∧
    decodeWord 0x2912FFFE = .ok (.modSi 1 2 0xFFFE) ∧
    decodeWord 0x2A120003 = .ok (.modZi 1 2 0x0003) ∧
    decodeWord 0x2B123000 = .ok (.modu 1 2 3) ∧
    decodeWord 0x2C12FFFE = .ok (.moduSi 1 2 0xFFFE) ∧
    decodeWord 0x2D120003 = .ok (.moduZi 1 2 0x0003) := by
  decide

/-- Shifts, bitwise and relational operations (41_shift_logic_relational.md). -/
theorem test_decode_shift_logic_relational_1 :
    decodeWord 0x30123000 = .ok (.sll 1 2 3) ∧
    decodeWord 0x31123000 = .ok (.srl 1 2 3) ∧
    decodeWord 0x32123000 = .ok (.sra 1 2 3) ∧
    decodeWord 0x33120004 = .ok (.slli 1 2 0x0004) ∧
    decodeWord 0x34120008 = .ok (.srli 1 2 0x0008) ∧
    decodeWord 0x35120008 = .ok (.srai 1 2 0x0008) ∧
    decodeWord 0x38123000 = .ok (.and 1 2 3) ∧
    decodeWord 0x39123000 = .ok (.or 1 2 3) ∧
    decodeWord 0x3A123000 = .ok (.xor 1 2 3) ∧
    decodeWord 0x3B120000 = .ok (.not 1 2) ∧
    decodeWord 0x40123000 = .ok (.eq 1 2 3) ∧
    decodeWord 0x41123000 = .ok (.ne 1 2 3) ∧
    decodeWord 0x42123000 = .ok (.lt 1 2 3) ∧
    decodeWord 0x43123000 = .ok (.ltu 1 2 3) ∧
    decodeWord 0x44123000 = .ok (.gt 1 2 3) ∧
    decodeWord 0x45123000 = .ok (.gtu 1 2 3) := by
  decide

/-- Shifts, bitwise and relational operations (41_shift_logic_relational.md). -/
theorem test_decode_shift_logic_relational_2 :
    decodeWord 0x46123000 = .ok (.le 1 2 3) ∧
    decodeWord 0x47123000 = .ok (.leu 1 2 3) ∧
    decodeWord 0x48123000 = .ok (.ge 1 2 3) ∧
    decodeWord 0x49123000 = .ok (.geu 1 2 3) := by
  decide

/-- Control transfer (42_control_transfer.md). -/
theorem test_decode_control_transfer :
    decodeWord 0x5000FFFC = .ok (.b 0xFFFC) ∧
    decodeWord 0x51560008 = .ok (.beq 5 6 0x0008) ∧
    decodeWord 0x5212FFF8 = .ok (.bne 1 2 0xFFF8) ∧
    decodeWord 0x5312000C = .ok (.blt 1 2 0x000C) ∧
    decodeWord 0x5412000C = .ok (.bgt 1 2 0x000C) ∧
    decodeWord 0x58000010 = .ok (.j 0x000010) ∧
    decodeWord 0x59F00000 = .ok (.jr 15) ∧
    decodeWord 0x5A100000 = .ok (.call 1) ∧
    decodeWord 0x5B000000 = .ok (.ret) := by
  decide

/-- Loads, stores and the stack (43_load_store.md). -/
theorem test_decode_load_store_1 :
    decodeWord 0x60120004 = .ok (.lw 1 2 0x0004) ∧
    decodeWord 0x61120008 = .ok (.lh 1 2 0x0008) ∧
    decodeWord 0x6212FFFF = .ok (.lb 1 2 0xFFFF) ∧
    decodeWord 0x63120010 = .ok (.lf 1 2 0x0010) ∧
    decodeWord 0x64120000 = .ok (.sw 1 2 0x0000) ∧
    decodeWord 0x65120002 = .ok (.sh 1 2 0x0002) ∧
    decodeWord 0x66120003 = .ok (.sb 1 2 0x0003) ∧
    decodeWord 0x67120008 = .ok (.sf 1 2 0x0008) ∧
    decodeWord 0x6810FFFE = .ok (.li 1 0xFFFE) ∧
    decodeWord 0x6910FFFE = .ok (.liu 1 0xFFFE) ∧
    decodeWord 0x6A101234 = .ok (.lui 1 0x1234) ∧
    decodeWord 0x70100000 = .ok (.pushW 1) ∧
    decodeWord 0x71100000 = .ok (.pushH 1) ∧
    decodeWord 0x72100000 = .ok (.pushB 1) ∧
    decodeWord 0x73100000 = .ok (.pushF 1) ∧
    decodeWord 0x74300000 = .ok (.popW 3) := by
  decide

/-- Loads, stores and the stack (43_load_store.md). -/
theorem test_decode_load_store_2 :
    decodeWord 0x75300000 = .ok (.popH 3) ∧
    decodeWord 0x76300000 = .ok (.popB 3) ∧
    decodeWord 0x77200000 = .ok (.popF 2) := by
  decide

/-- The float unit (44_float.md). -/
theorem test_decode_float :
    decodeWord 0x80120000 = .ok (.itof 1 2) ∧
    decodeWord 0x81120000 = .ok (.utof 1 2) ∧
    decodeWord 0x82120000 = .ok (.ftoi 1 2) ∧
    decodeWord 0x90123000 = .ok (.fadd 1 2 3) ∧
    decodeWord 0x91123000 = .ok (.fsub 1 2 3) ∧
    decodeWord 0x92123000 = .ok (.fmul 1 2 3) ∧
    decodeWord 0x93123000 = .ok (.fdiv 1 2 3) ∧
    decodeWord 0x94123000 = .ok (.fmod 1 2 3) ∧
    decodeWord 0x95120000 = .ok (.ffloor 1 2) ∧
    decodeWord 0x96120000 = .ok (.fceil 1 2) ∧
    decodeWord 0x98123000 = .ok (.feq 1 2 3) ∧
    decodeWord 0x99123000 = .ok (.fne 1 2 3) ∧
    decodeWord 0x9A123000 = .ok (.flt 1 2 3) ∧
    decodeWord 0x9B123000 = .ok (.fgt 1 2 3) ∧
    decodeWord 0x9C123000 = .ok (.fle 1 2 3) ∧
    decodeWord 0x9D123000 = .ok (.fge 1 2 3) := by
  decide

/-- The table's numbering of bits, and the three rejections there are. -/
theorem test_decode_rejects :
    decodeTableWord 32 0x10123000 = some (.add 1 2 3) ∧ decodeTableWord 32 0x7E123456 = none ∧
    decodeTableWord 24 0x10123000 = none ∧
    decodeBytes [0x00, 0x30, 0x12] = .error .truncated := by
  decide

/-! ## One step of each instruction -/

/-- A machine after reset with this word at this pc, these registers, and these little-endian values
in memory. -/
def start (pc w : Word) (xs : List (XReg × Word)) (fs : List (FReg × Pattern))
    (ms : List (Word × Nat × Nat)) : State :=
  let s0 := { State.reset with
    pc := pc
    mem := ms.foldl (fun m p => writeLE m p.1 p.2.1 p.2.2) (writeLE [] pc 4 w.toNat) }
  fs.foldl (fun s p => s.writeF p.1 p.2) (xs.foldl (fun s p => s.writeX p.1 p.2) s0)

/-- The outcome is a next state with this property. -/
def holds (o : StepResult) (p : State → Bool) : Bool :=
  match o with
  | .next t => p t
  | .fault _ => false
  | .refused _ => false

/-- The step gives a next state with this property. -/
def after (s : State) (p : State → Bool) : Bool := holds (step s) p

/-! ### System instructions (45_system.md) -/

/-- nop (R311). -/
theorem test_nop :
    after (start 0x10 0x01000000 [] [] [])
      (fun t => decide (t.pc = 0x14)) = true := by
  decide

/-- halt (R312). -/
theorem test_halt :
    after (start 0xFFFFFFFC 0x02000000 [] [] [])
      (fun t => decide (t.run = .halted ∧ t.pc = 0x0)) = true := by
  decide

/-- putc r1 (R310). -/
theorem test_putc :
    after (start 0x0 0x03100000 [(1, 0x141)] [] [])
      (fun t => decide (t.out = [0x41] ∧ t.pc = 0x4)) = true := by
  decide

/-! ### Integer arithmetic (40_int_arith.md) -/

/-- add r1, r2, r3 (R126). -/
theorem test_add :
    after (start 0x0 0x10123000 [(2, 0x7FFFFFFF), (3, 0x1)] [] [])
      (fun t => decide (t.readX 1 = 0x80000000)) = true := by
  decide

/-- add_si r1, r2, -1 (R127). -/
theorem test_add_si :
    after (start 0x0 0x1112FFFF [(2, 0x0)] [] [])
      (fun t => decide (t.readX 1 = 0xFFFFFFFF)) = true := by
  decide

/-- add_zi r1, r2, 0xFFFF (R128). -/
theorem test_add_zi :
    after (start 0x0 0x1212FFFF [(2, 0x1)] [] [])
      (fun t => decide (t.readX 1 = 0x00010000)) = true := by
  decide

/-- addu r1, r2, r3 (R129). -/
theorem test_addu :
    after (start 0x0 0x13123000 [(2, 0xFFFFFFFF), (3, 0x2)] [] [])
      (fun t => decide (t.readX 1 = 0x00000001)) = true := by
  decide

/-- addu_si r1, r2, -32768 (R130). -/
theorem test_addu_si :
    after (start 0x0 0x14128000 [(2, 0x0)] [] [])
      (fun t => decide (t.readX 1 = 0xFFFF8000)) = true := by
  decide

/-- addu_zi r1, r2, 0x8000 (R131). -/
theorem test_addu_zi :
    after (start 0x0 0x15128000 [(2, 0x0)] [] [])
      (fun t => decide (t.readX 1 = 0x00008000)) = true := by
  decide

/-- sub r1, r2, r3 (R132). -/
theorem test_sub :
    after (start 0x0 0x16123000 [(2, 0x0), (3, 0x1)] [] [])
      (fun t => decide (t.readX 1 = 0xFFFFFFFF)) = true := by
  decide

/-- sub_si r1, r2, -1 (R133). -/
theorem test_sub_si :
    after (start 0x0 0x1712FFFF [(2, 0x7FFFFFFF)] [] [])
      (fun t => decide (t.readX 1 = 0x80000000)) = true := by
  decide

/-- sub_zi r1, r2, 1 (R134). -/
theorem test_sub_zi :
    after (start 0x0 0x18120001 [(2, 0x0)] [] [])
      (fun t => decide (t.readX 1 = 0xFFFFFFFF)) = true := by
  decide

/-- subu r1, r2, r3 (R135). -/
theorem test_subu :
    after (start 0x0 0x19123000 [(2, 0x1), (3, 0x2)] [] [])
      (fun t => decide (t.readX 1 = 0xFFFFFFFF)) = true := by
  decide

/-- subu_si r1, r2, -1 (R136). -/
theorem test_subu_si :
    after (start 0x0 0x1A12FFFF [(2, 0x0)] [] [])
      (fun t => decide (t.readX 1 = 0x00000001)) = true := by
  decide

/-- subu_zi r1, r2, 0xFFFF (R137). -/
theorem test_subu_zi :
    after (start 0x0 0x1B12FFFF [(2, 0x0)] [] [])
      (fun t => decide (t.readX 1 = 0xFFFF0001)) = true := by
  decide

/-- mul r1, r2, r3 (R138). -/
theorem test_mul :
    after (start 0x0 0x1C123000 [(2, 0xFFFFFFFD), (3, 0x7)] [] [])
      (fun t => decide (t.readX 1 = 0xFFFFFFEB)) = true := by
  decide

/-- mul_si r1, r2, -2 (R139). -/
theorem test_mul_si :
    after (start 0x0 0x1D12FFFE [(2, 0x3)] [] [])
      (fun t => decide (t.readX 1 = 0xFFFFFFFA)) = true := by
  decide

/-- mul_zi r1, r2, 0xFFFF (R140). -/
theorem test_mul_zi :
    after (start 0x0 0x1E12FFFF [(2, 0xFFFFFFFF)] [] [])
      (fun t => decide (t.readX 1 = 0xFFFF0001)) = true := by
  decide

/-- mulu r1, r2, r3 (R141). -/
theorem test_mulu :
    after (start 0x0 0x1F123000 [(2, 0xFFFFFFFF), (3, 0xFFFFFFFF)] [] [])
      (fun t => decide (t.readX 1 = 0x00000001)) = true := by
  decide

/-- mulu_si r1, r2, -1 (R142). -/
theorem test_mulu_si :
    after (start 0x0 0x2012FFFF [(2, 0x2)] [] [])
      (fun t => decide (t.readX 1 = 0xFFFFFFFE)) = true := by
  decide

/-- mulu_zi r1, r2, 2 (R143). -/
theorem test_mulu_zi :
    after (start 0x0 0x21120002 [(2, 0x80000000)] [] [])
      (fun t => decide (t.readX 1 = 0x00000000)) = true := by
  decide

/-- div r1, r2, r3 (R144). -/
theorem test_div :
    after (start 0x0 0x22123000 [(2, 0x80000000), (3, 0xFFFFFFFF)] [] [])
      (fun t => decide (t.readX 1 = 0x80000000)) = true := by
  decide

/-- div r1, r2, r3 (R144). -/
theorem test_div_b :
    after (start 0x0 0x22123000 [(1, 0x55), (2, 0x7), (3, 0x0)] [] [])
      (fun t => decide (t.run = .faulted .arithmeticFault 0x0 0x22123000)) = true := by
  decide

/-- div_si r1, r2, -2 (R145). -/
theorem test_div_si :
    after (start 0x0 0x2312FFFE [(2, 0x7)] [] [])
      (fun t => decide (t.readX 1 = 0xFFFFFFFD)) = true := by
  decide

/-- div_zi r1, r2, 0xFFFE (R146). -/
theorem test_div_zi :
    after (start 0x0 0x2412FFFE [(2, 0xFFFFFFF9)] [] [])
      (fun t => decide (t.readX 1 = 0x00000000)) = true := by
  decide

/-- divu r1, r2, r3 (R147). -/
theorem test_divu :
    after (start 0x0 0x25123000 [(2, 0xFFFFFFF9), (3, 0x2)] [] [])
      (fun t => decide (t.readX 1 = 0x7FFFFFFC)) = true := by
  decide

/-- divu_si r1, r2, -1 (R148). -/
theorem test_divu_si :
    after (start 0x0 0x2612FFFF [(2, 0xFFFFFFFF)] [] [])
      (fun t => decide (t.readX 1 = 0x00000001)) = true := by
  decide

/-- divu_si r1, r2, 0 (R148). -/
theorem test_divu_si_b :
    after (start 0x0 0x26120000 [(1, 0x55), (2, 0x9)] [] [])
      (fun t => decide (t.run = .faulted .arithmeticFault 0x0 0x26120000)) = true := by
  decide

/-- divu_zi r1, r2, 3 (R149). -/
theorem test_divu_zi :
    after (start 0x0 0x27120003 [(2, 0xA)] [] [])
      (fun t => decide (t.readX 1 = 0x00000003)) = true := by
  decide

/-- mod r1, r2, r3 (R150). -/
theorem test_mod :
    after (start 0x0 0x28123000 [(2, 0xFFFFFFF9), (3, 0x2)] [] [])
      (fun t => decide (t.readX 1 = 0xFFFFFFFF)) = true := by
  decide

/-- mod_si r1, r2, -3 (R151). -/
theorem test_mod_si :
    after (start 0x0 0x2912FFFD [(2, 0xA)] [] [])
      (fun t => decide (t.readX 1 = 0x00000001)) = true := by
  decide

/-- mod_zi r1, r2, 0 (R152). -/
theorem test_mod_zi :
    after (start 0x0 0x2A120000 [(1, 0x55), (2, 0xA)] [] [])
      (fun t => decide (t.run = .faulted .arithmeticFault 0x0 0x2A120000)) = true := by
  decide

/-- modu r1, r2, r3 (R153). -/
theorem test_modu :
    after (start 0x0 0x2B123000 [(2, 0xFFFFFFF9), (3, 0x2)] [] [])
      (fun t => decide (t.readX 1 = 0x00000001)) = true := by
  decide

/-- modu_si r1, r2, -1 (R154). -/
theorem test_modu_si :
    after (start 0x0 0x2C12FFFF [(2, 0xFFFFFFFF)] [] [])
      (fun t => decide (t.readX 1 = 0x00000000)) = true := by
  decide

/-- modu_zi r1, r2, 7 (R155). -/
theorem test_modu_zi :
    after (start 0x0 0x2D120007 [(2, 0x64)] [] [])
      (fun t => decide (t.readX 1 = 0x00000002)) = true := by
  decide

/-! ### Shifts, bitwise and relational operations (41_shift_logic_relational.md) -/

/-- sll r1, r2, r3 (R161). -/
theorem test_sll :
    after (start 0x0 0x30123000 [(2, 0x1), (3, 0x20)] [] [])
      (fun t => decide (t.readX 1 = 0x00000001)) = true := by
  decide

/-- srl r1, r2, r3 (R162). -/
theorem test_srl :
    after (start 0x0 0x31123000 [(2, 0x80000000), (3, 0xFFFFFFE1)] [] [])
      (fun t => decide (t.readX 1 = 0x40000000)) = true := by
  decide

/-- sra r1, r2, r3 (R163). -/
theorem test_sra :
    after (start 0x0 0x32123000 [(2, 0x80000000), (3, 0x21)] [] [])
      (fun t => decide (t.readX 1 = 0xC0000000)) = true := by
  decide

/-- slli r1, r2, 4 (R164). -/
theorem test_slli :
    after (start 0x0 0x33120004 [(2, 0xF)] [] [])
      (fun t => decide (t.readX 1 = 0x000000F0)) = true := by
  decide

/-- srli r1, r2, 36 (R165). -/
theorem test_srli :
    after (start 0x0 0x34120024 [(2, 0xF0)] [] [])
      (fun t => decide (t.readX 1 = 0x0000000F)) = true := by
  decide

/-- srai r1, r2, 4 (R166). -/
theorem test_srai :
    after (start 0x0 0x35120004 [(2, 0x80000000)] [] [])
      (fun t => decide (t.readX 1 = 0xF8000000)) = true := by
  decide

/-- and r1, r2, r3 (R167). -/
theorem test_and :
    after (start 0x0 0x38123000 [(2, 0xF0F0F0F0), (3, 0xFF00FF00)] [] [])
      (fun t => decide (t.readX 1 = 0xF000F000)) = true := by
  decide

/-- or r1, r2, r3 (R168). -/
theorem test_or :
    after (start 0x0 0x39123000 [(2, 0xF0F0F0F0), (3, 0xFF00FF00)] [] [])
      (fun t => decide (t.readX 1 = 0xFFF0FFF0)) = true := by
  decide

/-- xor r1, r2, r3 (R169). -/
theorem test_xor :
    after (start 0x0 0x3A123000 [(2, 0xF0F0F0F0), (3, 0xFF00FF00)] [] [])
      (fun t => decide (t.readX 1 = 0x0FF00FF0)) = true := by
  decide

/-- not r1, r2 (R170). -/
theorem test_not :
    after (start 0x0 0x3B120000 [(2, 0xF0F0F0F)] [] [])
      (fun t => decide (t.readX 1 = 0xF0F0F0F0)) = true := by
  decide

/-- eq r1, r2, r2 (R172). -/
theorem test_eq :
    after (start 0x0 0x40122000 [(2, 0xFFFFFFFF)] [] [])
      (fun t => decide (t.readX 1 = 0x00000001)) = true := by
  decide

/-- ne r1, r2, r3 (R173). -/
theorem test_ne :
    after (start 0x0 0x41123000 [(2, 0xFFFFFFFF), (3, 0x1)] [] [])
      (fun t => decide (t.readX 1 = 0x00000001)) = true := by
  decide

/-- lt r1, r2, r3 (R174). -/
theorem test_lt :
    after (start 0x0 0x42123000 [(2, 0x80000000), (3, 0x7FFFFFFF)] [] [])
      (fun t => decide (t.readX 1 = 0x00000001)) = true := by
  decide

/-- ltu r1, r2, r3 (R175). -/
theorem test_ltu :
    after (start 0x0 0x43123000 [(2, 0xFFFFFFFF), (3, 0x1)] [] [])
      (fun t => decide (t.readX 1 = 0x00000000)) = true := by
  decide

/-- gt r1, r2, r3 (R176). -/
theorem test_gt :
    after (start 0x0 0x44123000 [(2, 0xFFFFFFFF), (3, 0x1)] [] [])
      (fun t => decide (t.readX 1 = 0x00000000)) = true := by
  decide

/-- gtu r1, r2, r3 (R177). -/
theorem test_gtu :
    after (start 0x0 0x45123000 [(2, 0xFFFFFFFF), (3, 0x1)] [] [])
      (fun t => decide (t.readX 1 = 0x00000001)) = true := by
  decide

/-- le r1, r2, r3 (R178). -/
theorem test_le :
    after (start 0x0 0x46123000 [(2, 0x5), (3, 0x5)] [] [])
      (fun t => decide (t.readX 1 = 0x00000001)) = true := by
  decide

/-- leu r1, r2, r3 (R179). -/
theorem test_leu :
    after (start 0x0 0x47123000 [(2, 0xFFFFFFFF), (3, 0x1)] [] [])
      (fun t => decide (t.readX 1 = 0x00000000)) = true := by
  decide

/-- ge r1, r2, r3 (R180). -/
theorem test_ge :
    after (start 0x0 0x48123000 [(2, 0xFFFFFFFF), (3, 0x1)] [] [])
      (fun t => decide (t.readX 1 = 0x00000000)) = true := by
  decide

/-- geu r1, r2, r3 (R181). -/
theorem test_geu :
    after (start 0x0 0x49123000 [(2, 0xFFFFFFFF), (3, 0x1)] [] [])
      (fun t => decide (t.readX 1 = 0x00000001)) = true := by
  decide

/-! ### Control transfer (42_control_transfer.md) -/

/-- b -4 (R201). -/
theorem test_b :
    after (start 0x100 0x5000FFFC [] [] [])
      (fun t => decide (t.pc = 0xFC)) = true := by
  decide

/-- beq r5, r6, 8 (R202). -/
theorem test_beq :
    after (start 0x64 0x51560008 [(5, 0x5), (6, 0x5)] [] [])
      (fun t => decide (t.pc = 0x6C)) = true := by
  decide

/-- bne r1, r2, 12 (R203). -/
theorem test_bne :
    after (start 0x40 0x5212000C [(1, 0x1), (2, 0x2)] [] [])
      (fun t => decide (t.pc = 0x4C)) = true := by
  decide

/-- blt r1, r2, 16 (R204). -/
theorem test_blt :
    after (start 0x40 0x53120010 [(1, 0xFFFFFFFF), (2, 0x1)] [] [])
      (fun t => decide (t.pc = 0x50)) = true := by
  decide

/-- bgt r1, r2, 16 (R205). -/
theorem test_bgt :
    after (start 0x40 0x54120010 [(1, 0x5), (2, 0x5)] [] [])
      (fun t => decide (t.pc = 0x44)) = true := by
  decide

/-- j 0x04000040 (R206). -/
theorem test_j :
    after (start 0x4000100 0x58000010 [] [] [])
      (fun t => decide (t.pc = 0x4000040)) = true := by
  decide

/-- jr r3 (R207). -/
theorem test_jr :
    after (start 0x40 0x59300000 [(3, 0x203)] [] [])
      (fun t => decide (t.pc = 0x203)) = true := by
  decide

/-- call r1 (R208). -/
theorem test_call :
    after (start 0xC8 0x5A100000 [(1, 0x12C), (12, 0x1000)] []
      [(0xFFC, 4, 0xEEEEEEEE)])
      (fun t => decide (t.readX 12 = 0x00000FFC ∧
        readLE t.mem 0xFFC 4 = 0x000000CC ∧ t.pc = 0x12C)) = true := by
  decide

/-- call r12 (R208). -/
theorem test_call_b :
    after (start 0x40 0x5AC00000 [(12, 0x1000)] []
      [(0xFFC, 4, 0xEEEEEEEE)])
      (fun t => decide (t.readX 12 = 0x00000FFC ∧
        readLE t.mem 0xFFC 4 = 0x00000044 ∧ t.pc = 0x1000)) = true := by
  decide

/-- ret (R209). -/
theorem test_ret :
    after (start 0x12C 0x5B000000 [(12, 0xFFC)] []
      [(0xFFC, 4, 0xCC)])
      (fun t => decide (t.readX 12 = 0x00001000 ∧ t.pc = 0xCC)) = true := by
  decide

/-! ### Loads, stores and the stack (43_load_store.md) -/

/-- lw r1, 0(r2) (R232). -/
theorem test_lw :
    after (start 0x100 0x60120000 [(2, 0xFFFFFFFE)] []
      [(0xFFFFFFFE, 2, 0xBBAA), (0x0, 2, 0xDDCC)])
      (fun t => decide (t.readX 1 = 0xDDCCBBAA)) = true := by
  decide

/-- lh r1, 6(r2) (R233). -/
theorem test_lh :
    after (start 0x0 0x61120006 [(2, 0x100)] []
      [(0x104, 4, 0xFFFE5678)])
      (fun t => decide (t.readX 1 = 0x0000FFFE)) = true := by
  decide

/-- lb r1, -1(r2) (R234). -/
theorem test_lb :
    after (start 0x0 0x6212FFFF [(2, 0x101)] []
      [(0x100, 1, 0x80)])
      (fun t => decide (t.readX 1 = 0x00000080)) = true := by
  decide

/-- lf f1, 0(r2) (R235). -/
theorem test_lf :
    after (start 0x0 0x63120000 [(2, 0x200)] []
      [(0x200, 8, 0x3FF0000000000000)])
      (fun t => decide (t.readF 1 = 0x3FF0000000000000)) = true := by
  decide

/-- sw r1, 0(r2) (R236). -/
theorem test_sw :
    after (start 0x100 0x64120000 [(1, 0x11223344), (2, 0xFFFFFFFE)] [] [])
      (fun t => decide (readLE t.mem 0x0 2 = 0x1122 ∧
        readLE t.mem 0xFFFFFFFE 2 = 0x3344)) = true := by
  decide

/-- sh r1, 0(r2) (R237). -/
theorem test_sh :
    after (start 0x0 0x65120000 [(1, 0xCAFEBABE), (2, 0x100)] []
      [(0x100, 4, 0xEEEEEEEE)])
      (fun t => decide (readLE t.mem 0x100 2 = 0xBABE)) = true := by
  decide

/-- sb r1, -1(r2) (R238). -/
theorem test_sb :
    after (start 0x0 0x6612FFFF [(1, 0xCAFEBABE), (2, 0x100)] []
      [(0xFE, 2, 0xEEEE)])
      (fun t => decide (readLE t.mem 0xFF 1 = 0xBE)) = true := by
  decide

/-- sf f1, 0(r2) (R239). -/
theorem test_sf :
    after (start 0x0 0x67120000 [(2, 0x200)] [(1, 0x8000000000000000)]
      [(0x200, 8, 0xEEEEEEEEEEEEEEEE)])
      (fun t => decide (readLE t.mem 0x200 8 = 0x8000000000000000)) = true := by
  decide

/-- li r1, -32768 (R240). -/
theorem test_li :
    after (start 0x0 0x68108000 [] [] [])
      (fun t => decide (t.readX 1 = 0xFFFF8000)) = true := by
  decide

/-- liu r1, 0xFFFE (R241). -/
theorem test_liu :
    after (start 0x0 0x6910FFFE [] [] [])
      (fun t => decide (t.readX 1 = 0x0000FFFE)) = true := by
  decide

/-- lui r1, 0x1234 (R242). -/
theorem test_lui :
    after (start 0x0 0x6A101234 [(1, 0xFFFF)] [] [])
      (fun t => decide (t.readX 1 = 0x12340000)) = true := by
  decide

/-- push_w r12 (R250). -/
theorem test_push_w :
    after (start 0x0 0x70C00000 [(12, 0x1000)] []
      [(0xFFC, 4, 0xEEEEEEEE)])
      (fun t => decide (t.readX 12 = 0x00000FFC ∧ readLE t.mem 0xFFC 4 = 0x00001000)) = true := by
  decide

/-- push_h r1 (R251). -/
theorem test_push_h :
    after (start 0x0 0x71100000 [(1, 0xCAFEBABE), (12, 0x1000)] [] [])
      (fun t => decide (t.readX 12 = 0x00000FFE ∧ readLE t.mem 0xFFE 2 = 0xBABE)) = true := by
  decide

/-- push_b r1 (R252). -/
theorem test_push_b :
    after (start 0x0 0x72100000 [(1, 0xCAFEBABE), (12, 0x1000)] [] [])
      (fun t => decide (t.readX 12 = 0x00000FFF ∧ readLE t.mem 0xFFF 1 = 0xBE)) = true := by
  decide

/-- push_f f1 (R253). -/
theorem test_push_f :
    after (start 0x0 0x73100000 [(12, 0x1000)] [(1, 0xC000000000000000)]
      [(0xFF8, 8, 0xEEEEEEEEEEEEEEEE)])
      (fun t => decide (t.readX 12 = 0x00000FF8 ∧
        readLE t.mem 0xFF8 8 = 0xC000000000000000)) = true := by
  decide

/-- pop_w r12 (R254). -/
theorem test_pop_w :
    after (start 0x0 0x74C00000 [(12, 0xFFC)] []
      [(0xFFC, 4, 0x2000)])
      (fun t => decide (t.readX 12 = 0x00002000)) = true := by
  decide

/-- pop_w r1 (R254). -/
theorem test_pop_w_b :
    after (start 0x0 0x74100000 [(12, 0xFFC)] []
      [(0xFFC, 4, 0xCAFEBABE)])
      (fun t => decide (t.readX 1 = 0xCAFEBABE ∧ t.readX 12 = 0x00001000)) = true := by
  decide

/-- pop_h r1 (R255). -/
theorem test_pop_h :
    after (start 0x0 0x75100000 [(12, 0xFFE)] []
      [(0xFFE, 2, 0x8001)])
      (fun t => decide (t.readX 1 = 0x00008001 ∧ t.readX 12 = 0x00001000)) = true := by
  decide

/-- pop_b r1 (R256). -/
theorem test_pop_b :
    after (start 0x0 0x76100000 [(12, 0xFFF)] []
      [(0xFFF, 1, 0xFF)])
      (fun t => decide (t.readX 1 = 0x000000FF ∧ t.readX 12 = 0x00001000)) = true := by
  decide

/-- pop_f f1 (R257). -/
theorem test_pop_f :
    after (start 0x0 0x77100000 [(12, 0xFF8)] []
      [(0xFF8, 8, 0xC000000000000000)])
      (fun t => decide (t.readX 12 = 0x00001000 ∧ t.readF 1 = 0xC000000000000000)) = true := by
  decide

/-! ### The float unit (44_float.md) -/

/-- itof f1, r2 (R273). -/
theorem test_itof :
    after (start 0x0 0x80120000 [(2, 0x80000000)] [] [])
      (fun t => decide (t.readF 1 = 0xC1E0000000000000)) = true := by
  decide +kernel

/-- utof f1, r2 (R274). -/
theorem test_utof :
    after (start 0x0 0x81120000 [(2, 0xFFFFFFFF)] [] [])
      (fun t => decide (t.readF 1 = 0x41EFFFFFFFE00000)) = true := by
  decide +kernel

/-- ftoi r1, f2 (R275). -/
theorem test_ftoi :
    after (start 0x0 0x82120000 [] [(2, 0xC008CCCCCCCCCCCD)] [])
      (fun t => decide (t.readX 1 = 0xFFFFFFFC)) = true := by
  decide +kernel

/-- fadd f1, f2, f3 (R277). -/
theorem test_fadd :
    after (start 0x0 0x90123000 [] [(2, 0x3FB999999999999A), (3, 0x3FC999999999999A)] [])
      (fun t => decide (t.readF 1 = 0x3FD3333333333334)) = true := by
  decide +kernel

/-- fadd f1, f2, f3 (R277). -/
theorem test_fadd_b :
    after (start 0x0 0x90123000 [] [(2, 0x7FEFFFFFFFFFFFFF), (3, 0x7FEFFFFFFFFFFFFF)] [])
      (fun t => decide (t.readF 1 = 0x7FF0000000000000)) = true := by
  decide +kernel

/-- fsub f1, f2, f3 (R278). -/
theorem test_fsub :
    after (start 0x0 0x91123000 [] [(2, 0x3FF0000000000000), (3, 0x4004000000000000)] [])
      (fun t => decide (t.readF 1 = 0xBFF8000000000000)) = true := by
  decide +kernel

/-- fmul f1, f2, f3 (R279). -/
theorem test_fmul :
    after (start 0x0 0x92123000 [] [(2, 0x8000000000000000), (3, 0x4014000000000000)] [])
      (fun t => decide (t.readF 1 = 0x8000000000000000)) = true := by
  decide +kernel

/-- fdiv f1, f2, f3 (R280). -/
theorem test_fdiv :
    after (start 0x0 0x93123000 [] [(2, 0x3FF0000000000000), (3, 0x4008000000000000)] [])
      (fun t => decide (t.readF 1 = 0x3FD5555555555555)) = true := by
  decide +kernel

/-- fdiv f1, f2, f3 (R280). -/
theorem test_fdiv_b :
    after (start 0x0 0x93123000 [] [(2, 0x3FF0000000000000), (3, 0x8000000000000000)] [])
      (fun t => decide (t.readF 1 = 0xFFF0000000000000)) = true := by
  decide +kernel

/-- fmod f1, f2, f3 (R281). -/
theorem test_fmod :
    after (start 0x0 0x94123000 [] [(2, 0xC016000000000000), (3, 0x4000000000000000)] [])
      (fun t => decide (t.readF 1 = 0xBFF8000000000000)) = true := by
  decide +kernel

/-- ffloor f1, f2 (R282). -/
theorem test_ffloor :
    after (start 0x0 0x95120000 [] [(2, 0xBFE0000000000000)] [])
      (fun t => decide (t.readF 1 = 0xBFF0000000000000)) = true := by
  decide +kernel

/-- fceil f1, f2 (R283). -/
theorem test_fceil :
    after (start 0x0 0x96120000 [] [(2, 0xBFE0000000000000)] [])
      (fun t => decide (t.readF 1 = 0x8000000000000000)) = true := by
  decide +kernel

/-- feq r1, f2, f2 (R285). -/
theorem test_feq :
    after (start 0x0 0x98122000 [] [(2, 0x7FF8000000000000)] [])
      (fun t => decide (t.readX 1 = 0x00000000)) = true := by
  decide

/-- fne r1, f2, f2 (R286). -/
theorem test_fne :
    after (start 0x0 0x99122000 [] [(2, 0x7FF8000000000000)] [])
      (fun t => decide (t.readX 1 = 0x00000001)) = true := by
  decide

/-- flt r1, f2, f3 (R287). -/
theorem test_flt :
    after (start 0x0 0x9A123000 [] [(2, 0x3FF0000000000000), (3, 0x4000000000000000)] [])
      (fun t => decide (t.readX 1 = 0x00000001)) = true := by
  decide +kernel

/-- fgt r1, f2, f3 (R288). -/
theorem test_fgt :
    after (start 0x0 0x9B123000 [] [(2, 0x7FF0000000000000), (3, 0x7FE1CCF385EBC8A0)] [])
      (fun t => decide (t.readX 1 = 0x00000001)) = true := by
  decide

/-- fle r1, f2, f3 (R289). -/
theorem test_fle :
    after (start 0x0 0x9C123000 [] [(2, 0x7FF8000000000000), (3, 0x3FF0000000000000)] [])
      (fun t => decide (t.readX 1 = 0x00000000)) = true := by
  decide

/-- fge r1, f2, f3 (R290). -/
theorem test_fge :
    after (start 0x0 0x9D123000 [] [(2, 0x8000000000000000), (3, 0x0000000000000000)] [])
      (fun t => decide (t.readX 1 = 0x00000001)) = true := by
  decide

/-! ### Faults and the end of a run -/

/-- (opcode 0x7E) (R322). -/
theorem test_decode_fault :
    after (start 0x40 0x7E123456 [] [] [])
      (fun t => decide (t.run = .faulted .decodeFault 0x40 0x7E123456 ∧ t.pc = 0x40)) = true := by
  decide

/-- A halted machine takes no step (R104). -/
theorem test_halted_refused :
    (match step { State.reset with run := .halted } with
      | .refused .halted => true
      | _ => false) = true := by
  decide

/-! ## Witnesses: what each statement assumes can be met -/

/-- A step that gives a next state with a property gives a next state. -/
theorem next_of_holds {o : StepResult} {p : State → Bool} (h : holds o p = true) :
    ∃ t, o = .next t ∧ p t = true := by
  cases o with
  | next t => exact ⟨t, rfl, h⟩
  | fault f => cases f
  | refused r => cases h

/-- A machine about to divide by zero. -/
def dividing : State := start 0x40 0x22123000 [(1, 0x55), (2, 7)] [] []

/-- An implementation with three of the instructions and other values for every parameter. -/
def subset : Implementation where
  map := [(.b, 0x00), (.lb, 0xFF), (.pushW, 0x24)]
  params :=
    { branchScale := 4, narrowLoadExt := .sign, stackStep := fun _ => 8, ftoiOor := fun _ => 7,
      nanPayload := 0xFFF8000000000001 }

/-- A machine about to store a word at 0x100. -/
def storing : State := start 0 0x64120000 [(1, 0xAABBCCDD), (2, 0x100)] [] []

theorem witness_DecodeEncodeAgreeUnderEveryLegalMap :
    (OpcodeMap.wellFormed opcodeMap = true ∧ Instr.wellFormed opcodeMap (.fge 15 15 15) = true) ∧
    OpcodeMap.wellFormed [(.j, 0x7D), (.nop, 0xFF)] = true ∧
    Instr.wellFormed [(.j, 0x7D), (.nop, 0xFF)] (.j 0xFFFFFF) = true := by decide

theorem witness_UnusedBitsAreIgnored :
    OpcodeMap.wellFormed opcodeMap = true ∧
    decodeWith opcodeMap 0x10123FFF = .ok (.add 1 2 3) := by decide

theorem witness_OpcodeAloneSelectsTheFormat :
    fieldOp 0x10123000 = fieldOp 0x10FFFFFF ∧ fieldOp 0x7E000000 = fieldOp 0x7EFFFFFF ∧
    State.reset.run = .running := by decide

theorem witness_InstructionBytesAreLittleEndian :
    ([] : List Byte).length < 4 ∧ ([1, 2, 3] : List Byte).length < 4 := by decide

theorem witness_StepRunsTheDecodedInstruction :
    let s := start 0xFFFFFFFE 0x22123000 [] [] []
    s.run = .running ∧
    decodeBytes [s.readByte s.pc, s.readByte (s.pc + 1), s.readByte (s.pc + 2),
      s.readByte (s.pc + 3)] = .ok (.div 1 2 3, []) := by decide

theorem witness_UnassignedOpcodeRaisesDecodeFault :
    State.reset.run = .running ∧ Unassigned opcodeMap (fieldOp State.reset.fetchWord) ∧
    Unassigned opcodeMap (fieldOp 0xFF000000) ∧ Unassigned opcodeMap (fieldOp 0x9E000000) ∧
    (¬Unassigned opcodeMap (fieldOp (start 0 0x9D123000 [] [] []).fetchWord) ∧
      ∃ t, step (start 0 0x9D123000 [] [] []) = .next t) := by
  refine ⟨by decide, ?_, ?_, ?_, ?_, ?_⟩
  · unfold Unassigned; decide
  · unfold Unassigned; decide
  · unfold Unassigned; decide
  · unfold Unassigned; decide
  · obtain ⟨t, h, -⟩ := next_of_holds (p := fun _ => true)
      (o := step (start 0 0x9D123000 [] [] [])) (by decide)
    exact ⟨t, h⟩

theorem witness_HaltedAndFaultedAreTerminal :
    Terminal { State.reset with run := .halted } ∧
    Terminal { State.reset with run := .faulted .decodeFault 0 0 } ∧
    HostStep subset { State.reset with run := .halted } State.reset := by
  refine ⟨?_, ?_, HostStep.reset _⟩
  · unfold Terminal; decide
  · unfold Terminal; decide

theorem witness_RunningMachineStepsAndOnlyHaltHalts :
    (start 0 0x02FFFFFF [] [] []).run = .running ∧
    decodeWord (start 0 0x02FFFFFF [] [] []).fetchWord = .ok .halt ∧
    decodeWord (start 0 0x01000000 [] [] []).fetchWord ≠ .ok .halt := by decide

theorem witness_FaultingStepCommitsNothing :
    (∃ t, step dividing = .next t ∧ t.run = .faulted .arithmeticFault 0x40 0x22123000) ∧
    ∃ t, stepWord 0x26120000 dividing = .next t ∧
      t.run = .faulted .arithmeticFault 0x40 0x26120000 := by
  constructor
  · obtain ⟨t, h, h'⟩ := next_of_holds (o := step dividing)
      (p := fun t => decide (t.run = .faulted .arithmeticFault 0x40 0x22123000)) (by decide)
    exact ⟨t, h, of_decide_eq_true h'⟩
  · obtain ⟨t, h, h'⟩ := next_of_holds (o := stepWord 0x26120000 dividing)
      (p := fun t => decide (t.run = .faulted .arithmeticFault 0x40 0x26120000)) (by decide)
    exact ⟨t, h, of_decide_eq_true h'⟩

theorem witness_ArithmeticFaultExactlyOnZeroDivisor :
    divisorOf dividing (.div 1 2 3) = some 0 ∧ divisorOf dividing (.moduSi 1 2 0) = some 0 ∧
    divisorOf dividing (.modZi 1 2 0) = some 0 ∧ divisorOf dividing (.divSi 1 2 1) ≠ some 0 ∧
    divisorOf dividing (.div 1 3 2) ≠ some 0 ∧ divisorOf dividing (.fdiv 1 2 3) ≠ some 0 ∧
    toFVal (State.reset.readF 3) = .fin false 0 ∧
    toFVal ((start 0 0 [] [(3, 0x8000000000000000)] []).readF 3) = .fin true 0 := by
  decide +kernel

theorem witness_MemoryFaultIsNeverRaised :
    accessesMemory (.lf 15 15 0xFFFF) = true ∧ accessesMemory .ret = true ∧
    (∃ t, step storing = .next t) ∧ ∃ t, stepWord 0x01000000 storing = .next t := by
  refine ⟨by decide, by decide, ?_, ?_⟩
  · obtain ⟨t, h, -⟩ := next_of_holds (o := step storing) (p := fun _ => true) (by decide)
    exact ⟨t, h⟩
  · obtain ⟨t, h, -⟩ := next_of_holds (o := stepWord 0x01000000 storing) (p := fun _ => true)
      (by decide)
    exact ⟨t, h⟩

theorem witness_StepKeepsTheInvariant : Inv storing ∧ ∃ t, step storing = .next t := by
  refine ⟨⟨?_, ?_⟩, ?_⟩
  · unfold MemoryCanonical; decide
  · intro p w h
    have h' : storing.run = .running := by decide
    simp [h'] at h
  · obtain ⟨t, h, -⟩ := next_of_holds (o := step storing) (p := fun _ => true) (by decide)
    exact ⟨t, h⟩

theorem witness_HostOperationsKeepTheInvariant :
    Inv State.reset ∧
    HostReaches subset State.reset ((State.reset.load [0x01, 0x00, 0xFF] 0xFFFFFFFF).setPC 4) := by
  refine ⟨⟨?_, ?_⟩, .tail _ _ _ (.tail _ _ _ (.refl _) (.load _ _ _)) (.setPC _ _)⟩
  · unfold MemoryCanonical; decide
  · intro p w h
    simp [State.reset] at h

theorem witness_MultiByteAccessIsLittleEndian :
    (1 ∈ [1, 2, 4, 8] ∧ 2 ∈ [1, 2, 4, 8] ∧ 4 ∈ [1, 2, 4, 8] ∧ 8 ∈ [1, 2, 4, 8]) ∧
    OutsideBytes 0xFFFFFFFE 4 2 ∧ OutsideBytes 0xFFFFFFFE 4 0xFFFFFFFD ∧
    ¬OutsideBytes 0xFFFFFFFE 4 1 := by
  unfold OutsideBytes; decide

/-- The spans of k, and reads across the end of the address space. -/
theorem witness_MixedWidthAccessSeesTheBytes : (0 < 4 ∧ 3 < 4) ∧
    (State.reset.store32 0xFFFFFFFE 0x11223344).load8 0 = 0x22 ∧
    (State.reset.store16 0xFFFFFFFF 0x1122).load32 0xFFFFFFFE = 0x00112200 := by decide

theorem witness_UnwrittenBytesReadAsZero :
    (∃ t, step storing = .next t) ∧ (∃ t, stepWord 0x64120000 storing = .next t) ∧
    (∀ i a n, decodeWord storing.fetchWord = .ok i → storeRange storing i = some (a, n) →
      OutsideBytes a n 0x104) ∧
    (∀ i a n, decodeWord 0x64120000 = .ok i → storeRange storing i = some (a, n) →
      OutsideBytes a n 0xFF) ∧
    OutsideBytes 0xFFFFFFFF ([1, 2] : List Byte).length 1 ∧
    NeverWritten subset 9 ((State.reset.load [1, 2] 7).setPC 8) := by
  have hw : decodeWord storing.fetchWord = .ok (.sw 1 2 0) := by decide
  have hd : decodeWord 0x64120000 = .ok (.sw 1 2 0) := by decide
  have hr : storeRange storing (.sw 1 2 0) = some (0x100, 4) := by decide
  refine ⟨?_, ?_, ?_, ?_, by unfold OutsideBytes; decide,
    .setPC _ _ (.load _ _ _ .reset (by unfold OutsideBytes; decide))⟩
  · obtain ⟨t, h, -⟩ := next_of_holds (o := step storing) (p := fun _ => true) (by decide)
    exact ⟨t, h⟩
  · obtain ⟨t, h, -⟩ := next_of_holds (o := stepWord 0x64120000 storing) (p := fun _ => true)
      (by decide)
    exact ⟨t, h⟩
  · intro i a n h1 h2
    rw [hw] at h1; cases h1
    rw [hr] at h2; cases h2
    unfold OutsideBytes; decide
  · intro i a n h1 h2
    rw [hd] at h1; cases h1
    rw [hr] at h2; cases h2
    unfold OutsideBytes; decide

theorem witness_MemoriesThatReadAlikeAreEqual :
    (writeLE [(4, 1)] 4 4 0).wf = true ∧ Memory.wf [] = true ∧
    ∀ a : Word, (writeLE [(4, 1)] 4 4 0).read a.toNat = Memory.read [] a.toNat := by
  have h : writeLE [(4, 1)] 4 4 0 = [] := by decide
  exact ⟨by decide, by decide, fun a => by rw [h]⟩

theorem witness_DivideRemainderResults :
    dividing.readX 2 ≠ 0 ∧ (start 0 0 [(3, 0xFFFFFFFF)] [] []).readX 3 ≠ 0 ∧ (1 : Half) ≠ 0 ∧
    (0xFFFF : Half) ≠ 0 := by decide

theorem witness_UnsignedDivisionLaw :
    dividing.readX 2 ≠ 0 ∧ (start 0 0 [(3, 0xFFFFFFFF)] [] []).readX 3 ≠ 0 := by decide

theorem witness_SignedDivisionLaw :
    dividing.readX 2 ≠ 0 ∧ (start 0 0 [(2, 0x80000000), (3, 0xFFFFFFFF)] [] []).readX 3 ≠ 0 := by
  decide

theorem witness_BitwiseResults : 0 < 32 ∧ 31 < 32 := by decide

theorem witness_RelationalResults :
    fieldOp 0x40123000 = 0x40 ∧ fieldOp 0x41123FFF = 0x41 ∧ fieldOp 0x42123000 = 0x42 ∧
    fieldOp 0x43123000 = 0x43 ∧ fieldOp 0x44123000 = 0x44 ∧ fieldOp 0x45123000 = 0x45 ∧
    fieldOp 0x46123000 = 0x46 ∧ fieldOp 0x47123000 = 0x47 ∧ fieldOp 0x48123000 = 0x48 ∧
    fieldOp 0x49123000 = 0x49 := by decide

theorem witness_IntegerLoadsAndWordStore :
    (0xFF : Word) = storing.readX 2 + (0xFFFF : Half).signExtend 32 := by decide

theorem witness_FloatLoadAndNarrowStores :
    fieldOp 0x63120010 = 0x63 ∧ fieldOp 0x65120002 = 0x65 ∧ fieldOp 0x66120003 = 0x66 ∧
    fieldOp 0x67120008 = 0x67 ∧
    (0xFFFF8100 : Word) = storing.readX 2 + (0x8000 : Half).signExtend 32 := by decide

theorem witness_LoadImmediates : fieldOp 0x6810FFFE = 0x68 ∧ fieldOp 0x691FFFFE = 0x69 := by
  decide

theorem witness_PopsLoadAtTheStackPointer :
    (0 : Word) = State.reset.readX regSP ∧ (11 : XReg) ≠ regSP ∧ (13 : XReg) ≠ regSP := by decide

theorem witness_PopUndoesPush : (11 : XReg) ≠ regSP ∧ (13 : XReg) ≠ regSP := by decide

theorem witness_FloatToIntegerIsFloor :
    isFinitePattern ((start 0 0 [] [(2, 0x7FEFFFFFFFFFFFFF)] []).readF 2) ∧
    (isFinitePattern 0x41DFFFFFFFC00000 ∧ valueOf 0x41DFFFFFFFC00000 = (2 ^ 31 - 1) * 2 ^ 1074) ∧
    (isFinitePattern 0xC1E0000000000000 ∧ valueOf 0xC1E0000000000000 = -(2 ^ 31) * 2 ^ 1074) ∧
    ¬isFinitePattern 0x7FF0000000000000 ∧ ¬isFinitePattern 0xFFFFFFFFFFFFFFFF := by
  unfold isFinitePattern; decide +kernel

/-- Two finite operands; the largest ones, whose sum overflows; two that cancel. -/
theorem witness_FloatResultsAreCorrectlyRounded :
    let s := start 0 0 [] [(1, 0x7FEFFFFFFFFFFFFF), (2, 0x3FF0000000000000),
      (3, 0xBFF0000000000000)] []
    (isFinitePattern (s.readF 1) ∧ valueOf (s.readF 1) + valueOf (s.readF 1) ≠ 0 ∧
      unitsOfPattern (s.readF 1) ≠ 0) ∧
    isFinitePattern (s.readF 2) ∧ isFinitePattern (s.readF 3) ∧
    valueOf (s.readF 2) - valueOf (s.readF 3) ≠ 0 ∧
    valueOf (s.readF 2) + valueOf (s.readF 3) = 0 := by
  unfold isFinitePattern; decide +kernel

theorem witness_FloatSpecialCases :
    let s := start 0 0 [] [(1, 0x7FF0000000000001), (2, 0x7FF0000000000000),
      (3, 0xFFF0000000000000), (4, 0x3FF0000000000000), (5, 0x8000000000000000)] []
    isNaNPattern (s.readF 1) = true ∧ isInfPattern (s.readF 2) ∧ isInfPattern (s.readF 3) ∧
    isFinitePattern (s.readF 4) ∧ isFinitePattern (s.readF 5) ∧ unitsOfPattern (s.readF 5) = 0 ∧
    isFinitePattern (s.readF 6) ∧ valueOf (s.readF 5) + valueOf (s.readF 6) = 0 ∧
    valueOf (s.readF 4) - valueOf (s.readF 4) = 0 := by
  unfold isFinitePattern isInfPattern; decide +kernel

theorem witness_FloatRemainderIsExact :
    let s := start 0 0 [] [(2, 0xC016000000000000), (3, 0x0000000000000001)] []
    isFinitePattern (s.readF 2) ∧ isFinitePattern (s.readF 3) ∧ unitsOfPattern (s.readF 3) ≠ 0 := by
  unfold isFinitePattern; decide +kernel

theorem witness_FloorAndCeilingAreExact :
    isFinitePattern 0xBFE0000000000000 ∧ isFinitePattern 0x7FEFFFFFFFFFFFFF ∧
    isInfPattern 0xFFF0000000000000 := by
  unfold isFinitePattern isInfPattern; decide

theorem witness_FloatComparisons :
    isNaNPattern 0x7FF8000000000000 = true ∧ isNaNPattern 0xFFF0000000000001 = true ∧
    isFinitePattern 0x8000000000000000 ∧ isFinitePattern 0x7FEFFFFFFFFFFFFF ∧
    isInfPattern 0x7FF0000000000000 ∧ isInfPattern 0xFFF0000000000000 := by
  unfold isFinitePattern isInfPattern; decide

theorem witness_EveryInstructionKeepsItsFrame :
    (∃ t, exec (.popW 3) storing = .next t) ∧ (4 : XReg) ∉ xDests (.popW 3) ∧
    (5 : FReg) ∉ fDests (.popW 3) ∧
    (∃ t, exec (.sw 1 2 0) storing = .next t) ∧
    (∀ a n, storeRange storing (.sw 1 2 0) = some (a, n) → OutsideBytes a n 0x104) ∧
    (∃ t, exec (.putc 1) storing = .next t) ∧ ∀ r, Instr.popW 3 ≠ .putc r := by
  refine ⟨⟨_, rfl⟩, by decide, by decide, ⟨_, rfl⟩, ?_, ⟨_, rfl⟩, by intro r h; cases h⟩
  intro a n h
  have hr : storeRange storing (.sw 1 2 0) = some (0x100, 4) := by decide
  rw [hr] at h; cases h
  unfold OutsideBytes; decide

theorem witness_AdvancePolicyMovesPcByFour :
    Mnemonic.pcPolicy (Instr.div 1 2 3).mnemonic = .advance ∧
    (∃ t, exec (.div 1 2 3) dividing = .next t) ∧ divisorOf dividing (.div 1 2 3) = some 0 ∧
    (∃ t, exec (.div 1 3 2) dividing = .next t) ∧ divisorOf dividing (.div 1 3 2) ≠ some 0 := by
  refine ⟨by decide, ?_, by decide, ?_, by decide⟩
  · obtain ⟨t, h, -⟩ := next_of_holds (o := exec (.div 1 2 3) dividing) (p := fun _ => true)
      (by decide)
    exact ⟨t, h⟩
  · obtain ⟨t, h, -⟩ := next_of_holds (o := exec (.div 1 3 2) dividing) (p := fun _ => true)
      (by decide)
    exact ⟨t, h⟩

theorem witness_HostRegisterAccesses :
    indexOk 0 = true ∧ indexOk 15 = true ∧ indexOk (-1) = false ∧ indexOk 16 = false ∧
    valueOk true (-(2 ^ 31)) = true ∧ valueOk true (2 ^ 31 - 1) = true ∧
    valueOk true (2 ^ 31) = false ∧ valueOk true (-(2 ^ 31) - 1) = false ∧
    valueOk false 0 = true ∧ valueOk false (2 ^ 32 - 1) = true ∧ valueOk false (-1) = false ∧
    valueOk false (2 ^ 32) = false ∧ State.reset.run = .running ∧
    isNaNPattern 0x7FF0000000000000 = false ∧
    (([(0, -1), (15, 7)] : List (Int × Int)).all fun p => indexOk p.1 && valueOk true p.2) = true ∧
    (([(0, -1), (15, 7)] : List (Int × Int)).map Prod.fst).Nodup := by decide

theorem witness_LoaderPlacesTheBytes :
    OutsideBytes 0xFFFFFFFF ([1, 2] : List Byte).length 1 ∧
    ([1, 2] : List Byte).length ≤ 2 ^ 32 ∧ 1 < ([1, 2] : List Byte).length := by
  unfold OutsideBytes; decide

theorem witness_SuppliedWordStepsLikeAFetchedOne :
    dividing.run = .running ∧ decodeWord 0x22132000 = .ok (.div 1 3 2) ∧
    divisorOf dividing (.div 1 3 2) ≠ some 0 ∧ decodeWord 0x28123000 = .ok (.mod 1 2 3) ∧
    divisorOf dividing (.mod 1 2 3) = some 0 := by decide

/-- Each of the three endings has a state that comes to it. -/
theorem witness_RunLoopEndings :
    State.reset.run = .running ∧ (runLoop 2 (start 0 0x02000000 [] [] [])).run = .halted ∧
    (runLoop 2 dividing).run = .faulted .arithmeticFault 0x40 0x22123000 ∧
    (runLoop 1 (start 0 0x01000000 [] [] [])).run = .running := by decide

theorem witness_PlacedWordRunsNext :
    decodeWord 0x22123000 = .ok (.div 1 2 3) ∧ decodeWord 0x9D123FFF = .ok (.fge 1 2 3) := by
  decide

/-- The subset machine: a word it runs, one it rejects that the reference machine runs, a mnemonic
it leaves out. -/
theorem witness_StepUnderEveryImplementation :
    subset.wellFormed = true ∧
    decodeWith subset.map (start 0 0x00000003 [] [] []).fetchWord = .ok (.b 3) ∧
    divisorOf State.reset (.b 3) ≠ some 0 ∧ divisorOf dividing (.div 1 2 3) = some 0 ∧
    decodeWith reference.map dividing.fetchWord = .ok (.div 1 2 3) ∧ dividing.run = .running ∧
    Unassigned subset.map (fieldOp dividing.fetchWord) ∧
    subset.map.opcodeOf (Instr.div 1 2 3).mnemonic = none ∧ Inv State.reset ∧
    ∃ t, stepWith subset State.reset = .next t := by
  refine ⟨by decide, by decide, by decide, by decide, by decide, by decide, ?_, by decide,
    ⟨by unfold MemoryCanonical; decide, fun p w h => by simp [State.reset] at h⟩, ?_⟩
  · unfold Unassigned; decide
  · obtain ⟨t, h, -⟩ := next_of_holds (o := stepWith subset State.reset) (p := fun _ => true)
      (by decide)
    exact ⟨t, h⟩

theorem witness_ParametersReachTheInstructions :
    takesParam (.add 1 2 3) = false ∧ subset.params.narrowLoadExt = .sign ∧
    params.narrowLoadExt = .zero ∧
    (0x4C : Word) = dividing.pc + wrap32 ((3 : Half).toInt * subset.params.branchScale) ∧
    (0xFF : Word) = storing.readX 2 + (0xFFFF : Half).signExtend 32 ∧
    (0 : Word) = storing.readX regSP ∧ isFinitePattern 0x7FEFFFFFFFFFFFFF ∧
    ¬isFinitePattern 0x7FF0000000000000 ∧ indexOk 0 = true ∧ indexOk 15 = true := by
  unfold isFinitePattern; decide

/-- NaNs, infinities of both signs and zeros of both signs in registers. -/
theorem witness_ParametersReachTheInstructions_float :
    let s := start 0 0 [] [(1, 0x7FF0000000000001), (2, 0x7FF0000000000000),
      (3, 0xFFF0000000000000), (4, 0x8000000000000000)] []
    isNaNPattern (s.readF 1) = true ∧ isInfPattern (s.readF 2) ∧ isInfPattern (s.readF 3) ∧
    signField (s.readF 2) ≠ signField (s.readF 3) ∧ isFinitePattern (s.readF 4) ∧
    unitsOfPattern (s.readF 4) = 0 ∧ isFinitePattern (s.readF 5) ∧
    unitsOfPattern (s.readF 5) = 0 := by
  unfold isFinitePattern isInfPattern; decide +kernel

/-! ## A machine of another implementation (R89, R231, R246, R95) -/

/-- `b 3` counts words where BRANCH_SCALE is 4. -/
theorem test_scaled_branch :
    holds (stepWith subset (start 0x40 0x00000003 [] [] []))
      (fun t => decide (t.pc = 0x4C)) = true := by decide

/-- `lb r1, 0(r2)` sign-extends where NARROW_LOAD_EXT is sign. -/
theorem test_signed_narrow_load :
    holds (stepWith subset (start 0 0xFF120000 [(2, 0x100)] [] [(0x100, 1, 0x80)]))
      (fun t => decide (t.readX 1 = 0xFFFFFF80)) = true := by decide

/-- `push_w r1` moves SP by 8 and stores 4 bytes where STACK_STEP is 8. -/
theorem test_wide_stack_step :
    holds (stepWith subset (start 0 0x24100000 [(1, 0xCAFEBABE), (12, 0x1000)] [] []))
      (fun t => decide (t.readX 12 = 0xFF8 ∧ readLE t.mem 0xFF8 8 = 0xCAFEBABE)) = true := by
  decide

/-- An `add` of the reference map is unassigned in the subset machine. -/
theorem test_left_out_mnemonic :
    holds (stepWith subset (start 0 0x10123000 [] [] []))
      (fun t => decide (t.run = .faulted .decodeFault 0 0x10123000)) = true := by decide


end Sys2Proof.Machine
end

section
/-! PROOF. The integer registers (10_state.md R24): what `li` completes with, and that r0 is a
register like every other. -/

namespace Sys2Proof.Machine

/-- What a completed integer-register instruction wrote, its destination reads back. -/
theorem CompletesX.readX_dest {o : StepResult} {s : State} {d : XReg} {v : Word}
    (h : CompletesX o s d v) : ∃ t, o = .next t ∧ t.readX d = v := by
  obtain ⟨t, hnext, hread, -, -⟩ := h
  exact ⟨t, hnext, hread⟩

/-- `li` completes with its sign-extended immediate in any destination (R240). -/
theorem exec_li_completes (ra : XReg) (imm16 : Half) (s : State) :
    CompletesX (exec (.li ra imm16) s) s ra (imm16.signExtend 32) :=
  setX_spec ra (sext32 imm16) s

/-- Settles O21: the register law of reading after a write holds at every register, and `li` into
r0 is a write like any other. -/
theorem noRegisterIsHardwired : Obligations.NoRegisterIsHardwired := by
  unfold Obligations.NoRegisterIsHardwired
  refine ⟨fun s r q v => ?written, fun s imm16 => ?liIntoR0⟩
  case written => exact readX_writeX s r q v
  case liIntoR0 => exact (exec_li_completes 0 imm16 s).readX_dest

end Sys2Proof.Machine
end

section
/-! PROOF. Wide accesses as sums and sequences of bytes (20_memory.md R52, R57). -/

namespace Sys2Proof.Machine

/-- Counting the bytes of a read from the second one on shifts every offset by one. -/
theorem read_add_one_offset (m : Memory) (a : Word) (k : Nat) :
    m.read (a + 1 + BitVec.ofNat 32 k).toNat = m.read (a + BitVec.ofNat 32 (k + 1)).toNat := by
  rw [add_one_add_ofNat]

/-- A read of any width is the sum of its bytes, byte `k` with the weight `2^(8k)` (R52). -/
theorem readLE_eq_sum (m : Memory) (a : Word) (n : Nat) :
    readLE m a n =
      ((List.range n).map fun k =>
        (m.read (a + BitVec.ofNat 32 k).toNat).toNat * 2 ^ (8 * k)).sum := by
  induction n generalizing a with
  | zero => rfl
  | succ n ih =>
    have weight (x k : Nat) : x * 2 ^ (8 * (k + 1)) = 2 ^ 8 * (x * 2 ^ (8 * k)) := by ring
    rw [readLE, ih (a + 1), List.range_succ_eq_map]
    simp only [List.map_cons, List.map_map, List.sum_cons, Function.comp_def, Nat.succ_eq_add_one,
      weight, List.sum_map_mul_left, read_add_one_offset]
    simp

/-- Settles O17: the sum holds at every width, and the two laws of `writeLE` give the written bytes
and the untouched rest. -/
theorem multiByteAccessIsLittleEndian : Obligations.MultiByteAccessIsLittleEndian := by
  unfold Obligations.MultiByteAccessIsLittleEndian
  intro m a n v hn
  have hwidth : n ≤ 2 ^ 32 := by
    simp only [List.mem_cons, List.not_mem_nil, or_false] at hn
    omega
  refine ⟨readLE_eq_sum m a n, fun k hk => ?written, fun b hb => ?untouched⟩
  case written => exact read_writeLE_inside n hwidth m a v k hk
  case untouched => exact read_writeLE_outside n m a v b hb

end Sys2Proof.Machine
end

section
/-! PROOF. What can change memory (20_memory.md R51, R55): an instruction its store range and
nothing else, a load of bytes those it places, every other host operation nothing; so a byte that
none of them covered since reset is 0x00. -/

namespace Sys2Proof.Machine

/-! ## The memory an instruction leaves -/

/-- `m'` is `m` after one write to the range `st`, or `m` itself where there is no range. -/
inductive WritesRange : Option (Word × Nat) → Memory → Memory → Prop where
  | nothing (m : Memory) : WritesRange none m m
  | bytes (m : Memory) (a : Word) (n v : Nat) : WritesRange (some (a, n)) m (writeLE m a n v)

/-- A write to a range leaves every byte outside it. -/
theorem WritesRange.read_outside {st : Option (Word × Nat)} {m m' : Memory}
    (h : WritesRange st m m') {b : Word}
    (hb : ∀ a n, st = some (a, n) → OutsideBytes a n b) : m'.read b.toNat = m.read b.toNat := by
  cases h with
  | nothing => rfl
  | bytes _ a n v => exact read_writeLE_outside n m a v b (hb a n rfl)

/-- A divide or remainder leaves memory alone, faulting or not (R323, R326). -/
theorem setXDivided_mem {r : XReg} {op : Word → Word → Word} {a b : Word} {s t : State}
    (h : setXDivided r op a b s = .next t) : t.mem = s.mem := by
  obtain ⟨-, rfl⟩ | ⟨-, rfl⟩ := setXDivided_cases h <;> simp

/-- What an instruction does to memory, whatever the parameters: one write to its store range, which
only `call`, the stores and the pushes have (R55, R208, R245). -/
theorem execWith_writesRange {P : Params} {i : Instr} {s t : State}
    (h : execWith P i s = .next t) : WritesRange (storeRangeWith P s i) s.mem t.mem := by
  cases i with
  | call | sw | sh | sb | sf | pushW | pushH | pushB | pushF =>
    cases h; exact .bytes _ _ _ _
  | div | divSi | divZi | divu | divuSi | divuZi | mod | modSi | modZi | modu | moduSi | moduZi =>
    have hmem : t.mem = s.mem := setXDivided_mem h
    rw [hmem]; exact .nothing _
  | _ => cases h; exact .nothing _

/-! ## The memory a step leaves -/

/-- Putting the supplied word in the fault record leaves memory alone (R327, R343). -/
theorem recordWord_mem {w : Word} {o : StepResult} {t : State} (h : recordWord w o = .next t) :
    ∃ u, o = .next u ∧ t.mem = u.mem := by
  obtain ⟨u, hu, ⟨-, rfl⟩ | ⟨_, _, _, -, rfl⟩⟩ := recordWord_cases h
  · exact ⟨_, hu, rfl⟩
  · exact ⟨_, hu, rfl⟩

/-- A step changes only the bytes that the store of the word at pc covers. -/
theorem stepWith_readByte {I : Implementation} {s t : State} {b : Word}
    (h : stepWith I s = .next t) (hb : StoresNotTo I s s.fetchWord b) :
    t.readByte b = s.readByte b := by
  obtain ⟨-, ⟨i, hdec, hexec⟩ | ⟨_, -, rfl⟩⟩ := stepOf_cases h
  · exact (execWith_writesRange hexec).read_outside fun a n => hb i a n hdec
  · simp

/-- A step on a supplied word changes only the bytes that the word's store covers. -/
theorem stepWordWith_readByte {I : Implementation} {w : Word} {s t : State} {b : Word}
    (h : stepWordWith I w s = .next t) (hb : StoresNotTo I s w b) :
    t.readByte b = s.readByte b := by
  obtain ⟨-, ⟨i, hdec, hrec⟩ | ⟨_, -, rfl⟩⟩ := stepWordOf_cases h
  · obtain ⟨u, hexec, hmem⟩ := recordWord_mem hrec
    have hread := (execWith_writesRange hexec).read_outside fun a n => hb i a n hdec
    rwa [← hmem] at hread
  · simp

/-! ## The reference machine is the machine of the reference implementation -/

theorem execWith_params : execWith params = exec := by
  funext i s
  cases i <;> rfl

theorem stepWith_reference (s : State) : stepWith reference s = step s := by
  simp only [stepWith, step, reference, execWith_params]

theorem stepWordWith_reference (w : Word) (s : State) :
    stepWordWith reference w s = stepWord w s := by
  simp only [stepWordWith, stepWord, reference, execWith_params]

/-! ## The memory a host operation leaves -/

/-- A bad host index changes the run state at most (R347). -/
@[simp] theorem hostIndexFault_mem (s : State) (i : Int) : (s.hostIndexFault i).mem = s.mem := by
  unfold State.hostIndexFault
  split <;> simp

@[simp] theorem writeInts_mem (ws : List (Int × Int)) (s : State) :
    (s.writeInts ws).mem = s.mem := by
  induction ws generalizing s with
  | nil => rfl
  | cons p rest ih => rw [State.writeInts, ih, writeX_mem]

@[simp] theorem setInts_mem (s : State) (ws : List (Int × Int)) (signed : Bool) :
    (s.setInts ws signed).state.mem = s.mem := by
  unfold State.setInts
  split
  · simp [HostResult.state]
  · split <;> simp [HostResult.state]

@[simp] theorem getInts_mem (s : State) (is : List Int) (signed : Bool) :
    (s.getInts is signed).state.mem = s.mem := by
  unfold State.getInts
  split <;> simp [HostResult.state]

@[simp] theorem setFloatWith_mem (s : State) (nan : Pattern) (i : Int) (d : HostFloat) :
    (s.setFloatWith nan i d).state.mem = s.mem := by
  unfold State.setFloatWith
  split <;> simp [HostResult.state]

@[simp] theorem getFloat_mem (s : State) (i : Int) : (s.getFloat i).state.mem = s.mem := by
  unfold State.getFloat
  split <;> simp [HostResult.state]

/-- States with one memory read alike. -/
theorem readByte_eq_of_mem_eq {s t : State} (h : t.mem = s.mem) (b : Word) :
    t.readByte b = s.readByte b := by
  unfold State.readByte
  rw [h]

/-- A load of bytes leaves every byte it does not place (R342). -/
theorem load_readByte_outside {s : State} {bytes : List Byte} {base b : Word}
    (h : OutsideBytes base bytes.length b) : (s.load bytes base).readByte b = s.readByte b :=
  read_loadBytes_outside bytes s.mem base b h

/-! ## Bytes never written -/

theorem reset_readByte (a : Word) : State.reset.readByte a = 0 := rfl

/-- A byte that nothing has written since reset is 0x00: it is at reset, and every step and host
operation that does not cover it keeps it (R51). -/
theorem NeverWritten.readByte_eq_zero {I : Implementation} {b : Word} {s : State}
    (h : NeverWritten I b s) : s.readByte b = 0 := by
  induction h with
  | reset => exact reset_readByte b
  | step s t _ hstep hb ih => exact (stepWith_readByte hstep hb).trans ih
  | stepWord s t w _ hstep hb ih => exact (stepWordWith_readByte hstep hb).trans ih
  | setInts s ws signed _ ih => exact (readByte_eq_of_mem_eq (setInts_mem s ws signed) b).trans ih
  | getInts s is signed _ ih => exact (readByte_eq_of_mem_eq (getInts_mem s is signed) b).trans ih
  | setFloat s i d _ ih => exact (readByte_eq_of_mem_eq (setFloatWith_mem s _ i d) b).trans ih
  | getFloat s i _ ih => exact (readByte_eq_of_mem_eq (getFloat_mem s i) b).trans ih
  | load s bytes base _ hb ih => exact (load_readByte_outside hb).trans ih
  | setPC s a _ ih => exact (setPC_readByte s a b).trans ih

/-- Settles O19: each clause is the memory law of its operation, the two about the reference machine
through the reference implementation, and the last the induction over `NeverWritten`. -/
theorem unwrittenBytesReadAsZero : Obligations.UnwrittenBytesReadAsZero := by
  unfold Obligations.UnwrittenBytesReadAsZero
  refine ⟨reset_readByte, fun s t b h hb => ?fetched, fun s t w b h hb => ?supplied,
    fun s bytes base b hb => load_readByte_outside hb, fun s ws is signed i d a b => ?host,
    fun I s b h => h.readByte_eq_zero⟩
  case fetched =>
    rw [← stepWith_reference] at h
    exact stepWith_readByte h hb
  case supplied =>
    rw [← stepWordWith_reference] at h
    exact stepWordWith_readByte h hb
  case host =>
    exact ⟨readByte_eq_of_mem_eq (setInts_mem s ws signed) b,
      readByte_eq_of_mem_eq (getInts_mem s is signed) b,
      readByte_eq_of_mem_eq (setFloatWith_mem s _ i d) b,
      readByte_eq_of_mem_eq (getFloat_mem s i) b, setPC_readByte s a b⟩

end Sys2Proof.Machine
end

section
/-! PROOF. What decides how a word decodes (30_encoding.md R85): its opcode, and nothing of the
state. -/

namespace Sys2Proof

/-- A mnemonic builds instructions of its own, whatever the other fields of the word (R85, R96). -/
@[simp] theorem mnemonic_build (m : Mnemonic) (w : Word) : (m.build w).mnemonic = m := by
  cases m <;> rfl

/-- A word whose opcode is assigned decodes to what the mnemonic builds of its fields (R95). -/
theorem decodeWith_of_assigned {map : OpcodeMap} {w : Word} {m : Mnemonic}
    (h : map.mnemonicOf (fieldOp w) = some m) : decodeWith map w = .ok (m.build w) := by
  unfold decodeWith
  rw [h]

end Sys2Proof

namespace Sys2Proof.Machine

/-- A word whose opcode is not assigned is rejected for that opcode (R94, R101). -/
theorem decodeWith_of_unassigned {map : OpcodeMap} {w : Word}
    (h : map.mnemonicOf (fieldOp w) = none) :
    decodeWith map w = .error (.unassignedOpcode (fieldOp w)) :=
  decodeWith_error_iff.mpr ⟨rfl, h⟩

/-- Words with one opcode are rejected for the same reason or decode to one mnemonic (R85). -/
theorem decodeWith_same_opcode (map : OpcodeMap) {w w' : Word} (hop : fieldOp w = fieldOp w') :
    (∃ e, decodeWith map w = .error e ∧ decodeWith map w' = .error e) ∨
      ∃ i i', decodeWith map w = .ok i ∧ decodeWith map w' = .ok i' ∧
        i.mnemonic = i'.mnemonic := by
  cases h : map.mnemonicOf (fieldOp w) with
  | none =>
    have h' : map.mnemonicOf (fieldOp w') = none := hop ▸ h
    exact .inl ⟨_, decodeWith_of_unassigned h, hop ▸ decodeWith_of_unassigned h'⟩
  | some m =>
    have h' : map.mnemonicOf (fieldOp w') = some m := hop ▸ h
    exact .inr ⟨_, _, decodeWith_of_assigned h, decodeWith_of_assigned h', by simp⟩

/-- Settles O4: the mnemonic a word decodes to is looked up by its opcode and carries the format and
the policy; and what a supplied word decodes to is fixed before any state is given. -/
theorem opcodeAloneSelectsTheFormat : Obligations.OpcodeAloneSelectsTheFormat := by
  unfold Obligations.OpcodeAloneSelectsTheFormat
  refine ⟨fun map w w' hop => ?opcodeAlone, fun w => ?noState⟩
  case opcodeAlone =>
    obtain herr | ⟨i, i', hi, hi', hm⟩ := decodeWith_same_opcode map hop
    · exact .inl herr
    · exact .inr ⟨i, i', hi, hi', hm, congrArg _ hm, congrArg _ hm⟩
  case noState =>
    cases hd : decodeWith opcodeMap w with
    | ok i => exact .inl ⟨i, fun s hr => stepWordOf_of_decode hr hd⟩
    | error e => exact .inr fun s hr => stepWordOf_of_reject hr hd

end Sys2Proof.Machine
end

section
/-! PROOF. The end of a run (30_encoding.md R104): a machine that is halted or faulted takes no
step, and no host operation but a reset makes it run again. -/

namespace Sys2Proof.Machine

/-! ## No step -/

/-- Only a running machine steps, under any map and any meanings (R104). -/
theorem Terminal.stepOf_ne_next {map : OpcodeMap} {ex : Instr → State → StepResult} {s : State}
    (h : Terminal s) (t : State) : stepOf map ex s ≠ .next t :=
  fun hstep => h (stepOf_cases hstep).1

/-- Only a running machine steps on a supplied word (R343). -/
theorem Terminal.stepWordOf_ne_next {map : OpcodeMap} {ex : Instr → State → StepResult} {w : Word}
    {s : State} (h : Terminal s) (t : State) : stepWordOf map ex w s ≠ .next t :=
  fun hstep => h (stepWordOf_cases hstep).1

/-- The run loop leaves a state that takes no step (R354). -/
theorem runLoopOf_of_no_step {st : State → StepResult} {s : State} (h : ∀ t, st s ≠ .next t)
    (fuel : Nat) : runLoopOf st fuel s = s := by
  cases fuel with
  | zero => rfl
  | succ n =>
    unfold runLoopOf
    split
    · next t ht => exact absurd ht (h t)
    · rfl

/-! ## The run state after a host operation -/

@[simp] theorem writeInts_run (ws : List (Int × Int)) (s : State) :
    (s.writeInts ws).run = s.run := by
  induction ws generalizing s with
  | nil => rfl
  | cons p rest ih => rw [State.writeInts, ih, writeX_run]

/-- A run that has ended keeps its record when the host names a bad index (R32, R327, R347). -/
theorem Terminal.hostIndexFault_eq {s : State} (h : Terminal s) (i : Int) :
    s.hostIndexFault i = s := by
  unfold State.hostIndexFault
  split
  · next hr => exact absurd hr h
  · rfl

theorem Terminal.setInts_run {s : State} (h : Terminal s) (ws : List (Int × Int)) (signed : Bool) :
    (s.setInts ws signed).state.run = s.run := by
  unfold State.setInts
  split
  · simp [HostResult.state, h.hostIndexFault_eq]
  · split <;> simp [HostResult.state]

theorem Terminal.getInts_run {s : State} (h : Terminal s) (is : List Int) (signed : Bool) :
    (s.getInts is signed).state.run = s.run := by
  unfold State.getInts
  split <;> simp [HostResult.state, h.hostIndexFault_eq]

theorem Terminal.setFloatWith_run {s : State} (h : Terminal s) (nan : Pattern) (i : Int)
    (d : HostFloat) : (s.setFloatWith nan i d).state.run = s.run := by
  unfold State.setFloatWith
  split <;> simp [HostResult.state, h.hostIndexFault_eq]

theorem Terminal.getFloat_run {s : State} (h : Terminal s) (i : Int) :
    (s.getFloat i).state.run = s.run := by
  unfold State.getFloat
  split <;> simp [HostResult.state, h.hostIndexFault_eq]

/-- What ends a run is in the run state alone. -/
theorem Terminal.of_run_eq {s t : State} (h : Terminal s) (hr : t.run = s.run) : Terminal t :=
  fun ht => h (hr.symm.trans ht)

/-- Whatever the host does to a machine whose run has ended, it stays ended or is reset (R104). -/
theorem HostStep.terminal_or_reset {I : Implementation} {s t : State} (hs : HostStep I s t)
    (h : Terminal s) : Terminal t ∨ t = State.reset := by
  cases hs with
  | step _ hstep => exact absurd hstep (h.stepOf_ne_next t)
  | stepWord _ w hstep => exact absurd hstep (h.stepWordOf_ne_next t)
  | setInts ws signed => exact .inl (h.of_run_eq (h.setInts_run ws signed))
  | getInts is signed => exact .inl (h.of_run_eq (h.getInts_run is signed))
  | setFloat i d => exact .inl (h.of_run_eq (h.setFloatWith_run _ i d))
  | getFloat i => exact .inl (h.of_run_eq (h.getFloat_run i))
  | load bytes base => exact .inl (h.of_run_eq (load_run s bytes base))
  | setPC a => exact .inl (h.of_run_eq (setPC_run s a))
  | reset => exact .inr rfl

/-- Settles O9: each kind of step needs a running machine, so the run loop stands still, and the
host's operations are gone through one by one. -/
theorem haltedAndFaultedAreTerminal : Obligations.HaltedAndFaultedAreTerminal := by
  unfold Obligations.HaltedAndFaultedAreTerminal
  refine ⟨fun s t h => ?fetched, fun s t w h => ?supplied, fun s n h => ?loop,
    fun I s t h => ⟨?fetchedWith, fun w => ?suppliedWith, fun hs => ?host⟩⟩
  case fetched => exact h.stepOf_ne_next t
  case supplied => exact h.stepWordOf_ne_next t
  case loop => exact runLoopOf_of_no_step h.stepOf_ne_next n
  case fetchedWith => exact h.stepOf_ne_next t
  case suppliedWith => exact h.stepWordOf_ne_next t
  case host => exact hs.terminal_or_reset h

end Sys2Proof.Machine
end

section
/-! PROOF. Unsigned division (40_int_arith.md R123): the quotient and the remainder fit a word, so
`divu` and `modu` write the exact ones. -/

namespace Sys2Proof.Machine

/-- A divide or remainder whose divisor is not 0 completes with its result (R122, R123). -/
theorem setXDivided_completes (r : XReg) (op : Word → Word → Word) {a b : Word} (s : State)
    (h : b ≠ 0) : CompletesX (setXDivided r op a b s) s r (op a b) := by
  rw [setXDivided_ne r op a b s h]
  exact setX_spec r (op a b) s

/-- `divu` completes with the unsigned quotient (R147). -/
theorem exec_divu_completes (ra : XReg) {rb rc : XReg} {s : State} (h : s.readX rc ≠ 0) :
    CompletesX (exec (.divu ra rb rc) s) s ra (divU (s.readX rb) (s.readX rc)) :=
  setXDivided_completes ra divU s h

/-- `modu` completes with the unsigned remainder (R153). -/
theorem exec_modu_completes (ra : XReg) {rb rc : XReg} {s : State} (h : s.readX rc ≠ 0) :
    CompletesX (exec (.modu ra rb rc) s) s ra (modU (s.readX rb) (s.readX rc)) :=
  setXDivided_completes ra modU s h

/-- The unsigned quotient cannot overflow: it is no larger than the dividend. -/
@[simp] theorem toNat_divU (a b : Word) : (divU a b).toNat = a.toNat / b.toNat := by
  have hfits : a.toNat / b.toNat < 2 ^ 32 := (Nat.div_le_self _ _).trans_lt a.isLt
  rw [divU, BitVec.toNat_ofNat, Nat.mod_eq_of_lt hfits]

/-- The unsigned remainder cannot overflow: it is no larger than the dividend. -/
@[simp] theorem toNat_modU (a b : Word) : (modU a b).toNat = a.toNat % b.toNat := by
  have hfits : a.toNat % b.toNat < 2 ^ 32 := (Nat.mod_le _ _).trans_lt a.isLt
  rw [modU, BitVec.toNat_ofNat, Nat.mod_eq_of_lt hfits]

/-- a = q * b + r for the unsigned quotient and remainder, whatever the divisor. -/
theorem divU_mul_add_modU (a b : Word) :
    a.toNat = (divU a b).toNat * b.toNat + (modU a b).toNat := by
  rw [toNat_divU, toNat_modU, Nat.div_add_mod']

/-- The unsigned remainder is smaller than a divisor that is not 0. -/
theorem modU_lt {a b : Word} (h : b ≠ 0) : (modU a b).toNat < b.toNat := by
  have hpos : 0 < b.toNat := Nat.pos_of_ne_zero fun h0 => h (BitVec.eq_of_toNat_eq h0)
  rw [toNat_modU]
  exact Nat.mod_lt _ hpos

/-- Settles O24: `divu` and `modu` write `divU` and `modU`, which are the quotient and the remainder
of the law; the spec's examples are evaluated. -/
theorem unsignedDivisionLaw : Obligations.UnsignedDivisionLaw := by
  unfold Obligations.UnsignedDivisionLaw
  refine ⟨fun ra rb rc s hrc => ?law, ?examples⟩
  case law =>
    exact ⟨divU (s.readX rb) (s.readX rc), modU (s.readX rb) (s.readX rc),
      exec_divu_completes ra hrc, exec_modu_completes ra hrc, divU_mul_add_modU _ _, modU_lt hrc⟩
  case examples => decide

end Sys2Proof.Machine
end

section
/-! PROOF. MemoryFault (60_exceptions.md R325): the only kinds an instruction or a step can raise
are ArithmeticFault and DecodeFault, so a running machine never comes to a MemoryFault record. -/

namespace Sys2Proof.Machine

/-! ## The run state an instruction leaves -/

/-- A divide or remainder keeps the run state, or ends the run in an ArithmeticFault (R323). -/
theorem setXDivided_run_cases {r : XReg} {op : Word → Word → Word} {a b : Word} {s t : State}
    (h : setXDivided r op a b s = .next t) :
    t.run = s.run ∨ t.run = .halted ∨ t = s.takeFault .arithmeticFault := by
  obtain ⟨-, rfl⟩ | ⟨-, rfl⟩ := setXDivided_cases h
  · exact .inr (.inr rfl)
  · exact .inl rfl

/-- Everything an instruction can do to the run state, whatever the parameters: `halt` ends the run,
a divide or remainder may fault, every other instruction leaves it (R312, R323). -/
theorem execWith_run_cases {P : Params} {i : Instr} {s t : State} (h : execWith P i s = .next t) :
    t.run = s.run ∨ t.run = .halted ∨ t = s.takeFault .arithmeticFault := by
  cases i with
  | halt => cases h; exact .inr (.inl rfl)
  | div | divSi | divZi | divu | divuSi | divuZi | mod | modSi | modZi | modu | moduSi | moduZi =>
    exact setXDivided_run_cases h
  | _ => cases h; exact .inl rfl

/-- An instruction that accesses memory completes, at any address, and leaves the run state: no
access is checked (R56, R325). -/
theorem exec_run_of_accessesMemory {i : Instr} (h : accessesMemory i = true) (s : State) :
    ∃ t, exec i s = .next t ∧ t.run = s.run := by
  cases i with
  | call | ret | lw | lh | lb | lf | sw | sh | sb | sf | pushW | pushH | pushB | pushF
  | popW | popH | popB | popF => exact ⟨_, rfl, rfl⟩
  | _ => cases h

/-! ## States without a MemoryFault record -/

/-- Whether there is a MemoryFault record is a matter of the run state alone. -/
theorem NoMemoryFault.of_run_eq {s t : State} (h : NoMemoryFault s) (hr : t.run = s.run) :
    NoMemoryFault t :=
  fun p w ht => h p w (hr.symm.trans ht)

theorem noMemoryFault_of_running {s : State} (h : s.run = .running) : NoMemoryFault s := by
  simp [NoMemoryFault, h]

theorem noMemoryFault_of_halted {s : State} (h : s.run = .halted) : NoMemoryFault s := by
  simp [NoMemoryFault, h]

/-- The record of a fault of another kind is no MemoryFault record. -/
theorem noMemoryFault_of_faulted {s : State} {k : FaultKind} {p w : Word}
    (h : s.run = .faulted k p w) (hk : k ≠ .memoryFault) : NoMemoryFault s := by
  simp [NoMemoryFault, h, hk]

/-! ## No MemoryFault record appears -/

/-- No instruction raises MemoryFault, whatever the parameters (R325). -/
theorem execWith_keeps_noMemoryFault {P : Params} {i : Instr} {s t : State}
    (hs : NoMemoryFault s) (h : execWith P i s = .next t) : NoMemoryFault t := by
  obtain hkept | hhalted | rfl := execWith_run_cases h
  · exact hs.of_run_eq hkept
  · exact noMemoryFault_of_halted hhalted
  · exact noMemoryFault_of_faulted (takeFault_run s .arithmeticFault) (by decide)

/-- Putting the supplied word in a fault record keeps the kind of the fault (R327, R343). -/
theorem recordWord_keeps_noMemoryFault {w : Word} {o : StepResult} {t : State}
    (ho : ∀ u, o = .next u → NoMemoryFault u) (h : recordWord w o = .next t) :
    NoMemoryFault t := by
  obtain ⟨u, hu, ⟨-, rfl⟩ | ⟨k, p, v, hr, rfl⟩⟩ := recordWord_cases h
  · exact ho _ hu
  · have hk : k ≠ .memoryFault := by
      rintro rfl
      exact ho u hu p v hr
    exact noMemoryFault_of_faulted rfl hk

/-- No step leaves a MemoryFault record, under any implementation (R322, R325). -/
theorem stepWith_noMemoryFault {I : Implementation} {s t : State}
    (h : stepWith I s = .next t) : NoMemoryFault t := by
  obtain ⟨hr, ⟨i, -, hexec⟩ | ⟨_, -, rfl⟩⟩ := stepOf_cases h
  · exact execWith_keeps_noMemoryFault (noMemoryFault_of_running hr) hexec
  · exact noMemoryFault_of_faulted (takeFault_run s .decodeFault) (by decide)

/-- No step on a supplied word leaves a MemoryFault record, under any implementation (R322, R325,
R343). -/
theorem stepWordWith_noMemoryFault {I : Implementation} {w : Word} {s t : State}
    (h : stepWordWith I w s = .next t) : NoMemoryFault t := by
  obtain ⟨hr, ⟨i, -, hrec⟩ | ⟨_, -, rfl⟩⟩ := stepWordOf_cases h
  · exact recordWord_keeps_noMemoryFault
      (fun _ => execWith_keeps_noMemoryFault (noMemoryFault_of_running hr)) hrec
  · exact noMemoryFault_of_faulted (raiseFault_run s .decodeFault w) (by decide)

/-- Settles O13: the memory instructions complete one by one, and the steps of the reference machine
are those of an implementation, none of which leaves a MemoryFault record. -/
theorem memoryFaultIsNeverRaised : Obligations.MemoryFaultIsNeverRaised := by
  unfold Obligations.MemoryFaultIsNeverRaised
  refine ⟨fun i s hi => ?accesses, fun s t h => ?fetched, fun w s t h => ?supplied, ?code⟩
  case accesses => exact exec_run_of_accessesMemory hi s
  case fetched => exact stepWith_noMemoryFault ((stepWith_reference s).trans h)
  case supplied => exact stepWordWith_noMemoryFault ((stepWordWith_reference w s).trans h)
  case code => rfl

end Sys2Proof.Machine
end

section
/-! PROOF. Encoding and decoding (30_encoding.md R81 to R86, R95, R96): a mnemonic reads back the
fields its instruction was packed with, so encoding and decoding agree under every legal map and
the bits an instruction does not use play no part. -/

namespace Sys2Proof

/-- The three checks of a legal map (R95). -/
theorem OpcodeMap.wellFormed_iff {map : OpcodeMap} :
    map.wellFormed = true ↔
      map.functional = true ∧ map.injective = true ∧ map.leaves7E = true := by
  simp [OpcodeMap.wellFormed, and_assoc]

/-- Building from the packed word of an instruction gives the instruction back, whatever its opcode
byte (R82 to R84). -/
@[simp] theorem build_append_fields (op : Byte) (i : Instr) :
    i.mnemonic.build (op ++ i.fields) = i := by
  cases i with
  | j imm24 => simp [Instr.mnemonic, Instr.fields, Mnemonic.build]
  | _ => simp [Instr.mnemonic, Instr.fields, Mnemonic.build]

/-- The word of an instruction decodes to it as soon as its opcode is looked up to its mnemonic. -/
theorem decodeWith_append_fields {map : OpcodeMap} {op : Byte} {i : Instr}
    (h : map.mnemonicOf op = some i.mnemonic) : decodeWith map (op ++ i.fields) = .ok i := by
  have hop : map.mnemonicOf (fieldOp (op ++ i.fields)) = some i.mnemonic := by rwa [fieldOp_append]
  rw [decodeWith_of_assigned hop, build_append_fields]

/-- What a word decodes to has the mnemonic its opcode is looked up to (R85). -/
theorem mnemonicOf_of_decodeWith {map : OpcodeMap} {w : Word} {i : Instr}
    (h : decodeWith map w = .ok i) : map.mnemonicOf (fieldOp w) = some i.mnemonic := by
  unfold decodeWith at h
  split at h
  · next m hm => cases h; rw [hm, mnemonic_build]
  · cases h

/-- A mnemonic outside the domain is looked up to nothing, and conversely (R95). -/
theorem opcodeOf_eq_none {map : OpcodeMap} {m : Mnemonic} :
    map.opcodeOf m = none ↔ ∀ p ∈ map, p.1 ≠ m := by
  induction map with
  | nil => simp [OpcodeMap.opcodeOf]
  | cons p rest ih =>
    obtain ⟨m', o⟩ := p
    by_cases h : m' = m <;> simp [OpcodeMap.opcodeOf, h, ih]

/-- No word decodes to an instruction whose mnemonic the map leaves out (R95). -/
theorem decodeWith_ne_of_left_out {map : OpcodeMap} {i : Instr}
    (h : map.opcodeOf i.mnemonic = none) (w : Word) : decodeWith map w ≠ .ok i :=
  fun hdec => opcodeOf_eq_none.mp h _ (mem_of_mnemonicOf (mnemonicOf_of_decodeWith hdec)) rfl

/-- The word of an instruction whose mnemonic has an opcode (R82 to R84, R95). -/
theorem encodeWith_of_assigned {map : OpcodeMap} {i : Instr} {op : Byte}
    (h : map.opcodeOf i.mnemonic = some op) : encodeWith map i = some (op ++ i.fields) := by
  unfold encodeWith
  rw [h]

/-- Settles O1: the opcode of the mnemonic is looked up back to it because the map is injective, and
the fields are read back where they were packed. -/
theorem decodeEncodeAgreeUnderEveryLegalMap :
    Obligations.DecodeEncodeAgreeUnderEveryLegalMap := by
  unfold Obligations.DecodeEncodeAgreeUnderEveryLegalMap
  intro map i hmap hi
  obtain ⟨-, hinj, -⟩ := OpcodeMap.wellFormed_iff.mp hmap
  obtain ⟨op, hop⟩ := Option.isSome_iff_exists.mp hi
  exact ⟨_, encodeWith_of_assigned hop,
    decodeWith_append_fields (mnemonicOf_of_mem hinj (mem_of_opcodeOf hop))⟩

/-- Settles O3: the word's own opcode is the mnemonic's because the map is functional, so the packed
word is the encoding, and it decodes to the instruction. -/
theorem unusedBitsAreIgnored : Obligations.UnusedBitsAreIgnored := by
  unfold Obligations.UnusedBitsAreIgnored
  intro map w i hmap hdec
  obtain ⟨hfun, -, -⟩ := OpcodeMap.wellFormed_iff.mp hmap
  have hm := mnemonicOf_of_decodeWith hdec
  have henc := encodeWith_of_assigned (opcodeOf_of_mem hfun (mem_of_mnemonicOf hm))
  exact ⟨by rw [henc, Option.getD_some], decodeWith_append_fields hm⟩

/-! ## The reference map -/

/-- The reference map gives every mnemonic an opcode (R96). -/
theorem opcodeMap_assigns (m : Mnemonic) : (opcodeMap.opcodeOf m).isSome = true := by
  cases m <;> rfl

/-- The opcodes the reference map leaves out are those R96 lists, all 256 gone through. -/
theorem opcodeMap_mnemonicOf_eq_none :
    ∀ op : Byte, opcodeMap.mnemonicOf op = none ↔ Machine.refUnassigned op = true := by
  decide +kernel

/-- Settles O2: legality and the list of R96 are evaluated, the assignment goes by the mnemonic. -/
theorem referenceMapIsLegalAndComplete : Obligations.ReferenceMapIsLegalAndComplete := by
  unfold Obligations.ReferenceMapIsLegalAndComplete
  exact ⟨by decide +kernel, fun i => opcodeMap_assigns i.mnemonic, opcodeMap_mnemonicOf_eq_none⟩

/-- Settles O5: each word is decoded. -/
theorem sampleWordsDecode : Obligations.SampleWordsDecode := by
  unfold Obligations.SampleWordsDecode
  decide

/-! ## The bytes of an instruction word -/

theorem fieldOp_wordOfBytes (b0 b1 b2 b3 : Byte) : fieldOp (wordOfBytes b0 b1 b2 b3) = b3 := by
  ext k hk; simp [fieldOp, wordOfBytes]; grind

theorem fieldRa_append_fieldRb_wordOfBytes (b0 b1 b2 b3 : Byte) :
    fieldRa (wordOfBytes b0 b1 b2 b3) ++ fieldRb (wordOfBytes b0 b1 b2 b3) = b2 := by
  ext k hk; simp [fieldRa, fieldRb, wordOfBytes]; grind

theorem fieldImm16_wordOfBytes (b0 b1 b2 b3 : Byte) :
    fieldImm16 (wordOfBytes b0 b1 b2 b3) = b1 ++ b0 := by
  ext k hk; simp [fieldImm16, wordOfBytes]; grind

/-- The decoder of bytes decodes the word its first four bytes make, and gives the rest back (R80,
R81). -/
theorem decodeBytes_cons (b0 b1 b2 b3 : Byte) (rest : List Byte) :
    decodeBytes (b0 :: b1 :: b2 :: b3 :: rest) =
      (decodeWord (wordOfBytes b0 b1 b2 b3)).map fun i => (i, rest) := by
  cases h : decodeWord (wordOfBytes b0 b1 b2 b3) <;> simp [decodeBytes, h, Except.map]

/-- Fewer than four bytes are no instruction word (R80). -/
theorem decodeBytes_of_length_lt {bs : List Byte} (h : bs.length < 4) :
    decodeBytes bs = .error .truncated := by
  match bs with
  | [] | [_] | [_, _] | [_, _, _] => rfl
  | _ :: _ :: _ :: _ :: rest => simp at h; omega

end Sys2Proof

namespace Sys2Proof.Machine

/-- The decoder of bytes reads the word that the fetch reads (R60, R81). -/
theorem decodeBytes_at_pc (s : State) (rest : List Byte) :
    decodeBytes (s.readByte s.pc :: s.readByte (s.pc + 1) :: s.readByte (s.pc + 2) ::
        s.readByte (s.pc + 3) :: rest) =
      (decodeWord s.fetchWord).map fun i => (i, rest) := by
  rw [decodeBytes_cons, fetchWord_eq]

/-- Settles O6: the fetched word is put together from its four bytes, and each field is one or two
of them. -/
theorem instructionBytesAreLittleEndian : Obligations.InstructionBytesAreLittleEndian := by
  unfold Obligations.InstructionBytesAreLittleEndian
  refine ⟨fun s => ⟨?op, ?regs, ?imm, decodeBytes_at_pc s⟩, fun bs => decodeBytes_of_length_lt⟩
  case op => rw [fetchWord_eq, fieldOp_wordOfBytes]
  case regs => rw [fetchWord_eq, fieldRa_append_fieldRb_wordOfBytes]
  case imm => rw [fetchWord_eq, fieldImm16_wordOfBytes]

/-- Settles O7: what the four bytes decode to is what the fetched word decodes to. -/
theorem stepRunsTheDecodedInstruction : Obligations.StepRunsTheDecodedInstruction := by
  unfold Obligations.StepRunsTheDecodedInstruction
  intro s i hr hbytes
  rw [decodeBytes_at_pc] at hbytes
  cases hdec : decodeWord s.fetchWord with
  | error e => rw [hdec] at hbytes; cases hbytes
  | ok j =>
    rw [hdec] at hbytes
    cases hbytes
    exact step_of_decode hr hdec

end Sys2Proof.Machine
end

section
/-! PROOF. What an instruction does to the run state (60_exceptions.md R322 to R327, 45_system.md
R312): a zero divisor is the one way to fault, `halt` the one way to halt. -/

namespace Sys2Proof.Machine

/-- The reference machine's meanings are those under the reference parameters. -/
theorem exec_eq_execWith (i : Instr) (s : State) : exec i s = execWith params i s := by
  rw [execWith_params]

/-- An instruction with a zero divisor raises ArithmeticFault (R323). -/
theorem execWith_of_divisor_zero (P : Params) {i : Instr} {s : State}
    (h : divisorOf s i = some 0) : execWith P i s = .next (s.takeFault .arithmeticFault) := by
  cases i with
  | div | divSi | divZi | divu | divuSi | divuZi | mod | modSi | modZi | modu | moduSi | moduZi =>
    exact setXDivided_zero _ _ _ _ _ (Option.some.inj h)
  | _ => cases h

/-- Every other instruction completes: the run state stays, but for `halt` (R312, R323). -/
theorem execWith_of_divisor_ne_zero (P : Params) {i : Instr} {s : State}
    (h : divisorOf s i ≠ some 0) :
    ∃ t, execWith P i s = .next t ∧ t.run = if i = .halt then .halted else s.run := by
  cases i with
  | div | divSi | divZi | divu | divuSi | divuZi | mod | modSi | modZi | modu | moduSi | moduZi =>
    exact ⟨_, setXDivided_ne _ _ _ _ _ fun h0 => h (congrArg some h0), rfl⟩
  | _ => exact ⟨_, rfl, rfl⟩

/-- Every instruction gives a next state (R102). -/
theorem execWith_next (P : Params) (i : Instr) (s : State) : ∃ t, execWith P i s = .next t := by
  by_cases h : divisorOf s i = some 0
  · exact ⟨_, execWith_of_divisor_zero P h⟩
  · obtain ⟨t, ht, -⟩ := execWith_of_divisor_ne_zero P h
    exact ⟨t, ht⟩

/-- In a running machine an instruction halts exactly when it is `halt` (R312). -/
theorem execWith_halts_iff {P : Params} {i : Instr} {s t : State} (hr : s.run = .running)
    (h : execWith P i s = .next t) : t.run = .halted ↔ i = .halt := by
  by_cases hd : divisorOf s i = some 0
  · rw [execWith_of_divisor_zero P hd] at h
    cases h
    have hi : i ≠ .halt := by rintro rfl; cases hd
    simp [hi]
  · obtain ⟨u, hu, hrun⟩ := execWith_of_divisor_ne_zero P hd
    cases hu.symm.trans h
    rw [hrun, hr]
    simp

/-- In a running machine an instruction that leaves a fault record has done nothing else: it is an
ArithmeticFault on the word at pc (R323, R326, R327). -/
theorem execWith_faulted {P : Params} {i : Instr} {s t : State} {k : FaultKind} {p w : Word}
    (hr : s.run = .running) (h : execWith P i s = .next t) (ht : t.run = .faulted k p w) :
    k = .arithmeticFault ∧ t = s.takeFault .arithmeticFault := by
  obtain hkept | hhalted | rfl := execWith_run_cases h
  · rw [hkept, hr] at ht; cases ht
  · rw [hhalted] at ht; cases ht
  · cases ht; exact ⟨rfl, rfl⟩

/-! ## Recording the supplied word -/

/-- A state without a fault record is recorded as it is (R343). -/
theorem recordWord_of_not_faulted {w : Word} {t : State} (h : ∀ k p v, t.run ≠ .faulted k p v) :
    recordWord w (.next t) = .next t := by
  cases hr : t.run with
  | faulted k p v => exact absurd hr (h k p v)
  | running | halted => simp [recordWord, hr]

/-- A fault taken at pc is recorded with the supplied word (R327, R343). -/
theorem recordWord_takeFault (w : Word) (s : State) (k : FaultKind) :
    recordWord w (.next (s.takeFault k)) = .next (s.raiseFault k w) := rfl

/-- An instruction of a running machine that does not divide by zero is recorded as it is. -/
theorem recordWord_execWith {P : Params} {i : Instr} {s : State} (w : Word)
    (hr : s.run = .running) (h : divisorOf s i ≠ some 0) :
    recordWord w (execWith P i s) = execWith P i s := by
  obtain ⟨t, ht, hrun⟩ := execWith_of_divisor_ne_zero P h
  rw [ht]
  refine recordWord_of_not_faulted fun k p v => ?_
  rw [hrun, hr]
  split <;> simp

/-! ## The step of any implementation -/

theorem stepWith_of_decode {I : Implementation} {s : State} {i : Instr} (hr : s.run = .running)
    (hd : decodeWith I.map s.fetchWord = .ok i) : stepWith I s = execWith I.params i s :=
  stepOf_of_decode hr hd

/-- A supplied word that decodes does what its instruction does, where that does not fault. -/
theorem stepWordWith_of_decode {I : Implementation} {w : Word} {s : State} {i : Instr}
    (hr : s.run = .running) (hd : decodeWith I.map w = .ok i) (hz : divisorOf s i ≠ some 0) :
    stepWordWith I w s = execWith I.params i s :=
  (stepWordOf_of_decode hr hd).trans (recordWord_execWith w hr hz)

/-- A supplied divide or remainder by zero faults with the supplied word in the record (R327). -/
theorem stepWordWith_of_divisor_zero {I : Implementation} {w : Word} {s : State} {i : Instr}
    (hr : s.run = .running) (hd : decodeWith I.map w = .ok i) (hz : divisorOf s i = some 0) :
    FaultsWith (stepWordWith I w s) s .arithmeticFault w := by
  have hstep : stepWordWith I w s = recordWord w (execWith I.params i s) :=
    stepWordOf_of_decode hr hd
  rw [hstep, execWith_of_divisor_zero I.params hz]
  exact recordWord_takeFault w s .arithmeticFault

/-- An opcode outside the image of the map is what makes a word decode to nothing (R95, R101). -/
theorem unassigned_iff {map : OpcodeMap} {w : Word} :
    Unassigned map (fieldOp w) ↔ decodeWith map w = .error (.unassignedOpcode (fieldOp w)) := by
  rw [decodeWith_error_iff, mnemonicOf_eq_none]
  simp [Unassigned]

/-- A word at pc with an unassigned opcode raises DecodeFault (R322). -/
theorem stepWith_of_unassigned {I : Implementation} {s : State} (hr : s.run = .running)
    (h : Unassigned I.map (fieldOp s.fetchWord)) :
    FaultsWith (stepWith I s) s .decodeFault s.fetchWord :=
  stepOf_of_reject hr (unassigned_iff.mp h)

/-- A supplied word with an unassigned opcode raises DecodeFault (R322, R343). -/
theorem stepWordWith_of_unassigned {I : Implementation} {w : Word} {s : State}
    (hr : s.run = .running) (h : Unassigned I.map (fieldOp w)) :
    FaultsWith (stepWordWith I w s) s .decodeFault w :=
  stepWordOf_of_reject hr (unassigned_iff.mp h)

/-- A running machine always takes its step, under any implementation (R100 to R103). -/
theorem stepWith_next {I : Implementation} {s : State} (hr : s.run = .running) :
    ∃ t, stepWith I s = .next t := by
  cases hd : decodeWith I.map s.fetchWord with
  | ok i =>
    rw [stepWith_of_decode hr hd]
    exact execWith_next I.params i s
  | error e => exact ⟨_, stepOf_of_reject hr hd⟩

/-- A step that leaves a fault record has done nothing else, and the record holds the word at pc
(R326, R327). -/
theorem stepWith_faulted {I : Implementation} {s t : State} {k : FaultKind} {p w : Word}
    (h : stepWith I s = .next t) (ht : t.run = .faulted k p w) :
    FaultsWith (stepWith I s) s k s.fetchWord := by
  rw [h]
  obtain ⟨hr, ⟨i, -, hexec⟩ | ⟨_, -, rfl⟩⟩ := stepOf_cases h
  · obtain ⟨rfl, rfl⟩ := execWith_faulted hr hexec ht
    rfl
  · cases ht; rfl

/-- A step on a supplied word that leaves a fault record has done nothing else, and the record holds
the supplied word (R326, R327, R343). -/
theorem stepWordWith_faulted {I : Implementation} {s t : State} {k : FaultKind} {p w w' : Word}
    (h : stepWordWith I w s = .next t) (ht : t.run = .faulted k p w') :
    FaultsWith (stepWordWith I w s) s k w := by
  rw [h]
  obtain ⟨hr, ⟨i, -, hrec⟩ | ⟨_, -, rfl⟩⟩ := stepWordOf_cases h
  · obtain ⟨u, hu, ⟨hnot, rfl⟩ | ⟨k', p', v, hrun, rfl⟩⟩ := recordWord_cases hrec
    · exact absurd ht (hnot k p w')
    · obtain ⟨rfl, rfl⟩ := execWith_faulted hr hu hrun
      cases hrun
      cases ht
      rfl
  · cases ht; rfl

/-! ## The statements about the reference machine -/

/-- Settles O10: the word at pc is executed or rejected, and of the instructions only `halt` leaves
the machine halted. -/
theorem runningMachineStepsAndOnlyHaltHalts :
    Obligations.RunningMachineStepsAndOnlyHaltHalts := by
  unfold Obligations.RunningMachineStepsAndOnlyHaltHalts
  intro s hr
  cases hd : decodeWord s.fetchWord with
  | ok i =>
    obtain ⟨t, ht⟩ := execWith_next params i s
    refine ⟨t, ?_, ?_⟩
    · rw [step_of_decode hr hd, exec_eq_execWith, ht]
    · simpa using execWith_halts_iff hr ht
  | error e => exact ⟨_, step_of_reject hr hd, by simp⟩

/-- Settles O11: both clauses are the inversion of a faulting step, for the reference
implementation. -/
theorem faultingStepCommitsNothing : Obligations.FaultingStepCommitsNothing := by
  unfold Obligations.FaultingStepCommitsNothing
  refine ⟨fun s t k p w h ht => ?fetched, fun s t k p w w' h ht => ?supplied⟩
  case fetched =>
    rw [← stepWith_reference] at h ⊢
    exact stepWith_faulted h ht
  case supplied =>
    rw [← stepWordWith_reference] at h ⊢
    exact stepWordWith_faulted h ht

/-- A step whose word has an assigned opcode leaves no DecodeFault record (R322). -/
theorem step_no_decodeFault {s t : State} {p w : Word}
    (hop : ¬Unassigned opcodeMap (fieldOp s.fetchWord)) (h : step s = .next t) :
    t.run ≠ .faulted .decodeFault p w := by
  intro ht
  obtain ⟨hr, ⟨i, -, hexec⟩ | ⟨e, hdec, -⟩⟩ := step_cases h
  · rw [exec_eq_execWith] at hexec
    obtain ⟨hk, -⟩ := execWith_faulted hr hexec ht
    cases hk
  · obtain ⟨rfl, -⟩ := decodeWord_error hdec
    exact hop (unassigned_iff.mpr hdec)

/-- The reference map leaves an opcode out exactly where R96 lists it. -/
theorem unassigned_opcodeMap_iff (op : Byte) :
    Unassigned opcodeMap op ↔ refUnassigned op = true := by
  rw [← opcodeMap_mnemonicOf_eq_none, mnemonicOf_eq_none, Unassigned]

/-- Settles O8: an unassigned opcode is what makes a word decode to nothing, and decoding is the one
source of a DecodeFault. -/
theorem unassignedOpcodeRaisesDecodeFault : Obligations.UnassignedOpcodeRaisesDecodeFault := by
  unfold Obligations.UnassignedOpcodeRaisesDecodeFault
  have supplied (s : State) (w : Word) (hr : s.run = .running)
      (h : Unassigned opcodeMap (fieldOp w)) : FaultsWith (stepWord w s) s .decodeFault w := by
    rw [← stepWordWith_reference]
    exact stepWordWith_of_unassigned hr h
  refine ⟨fun s hr h => ?fetched, supplied, unassigned_opcodeMap_iff, fun s low hr => ?op7E,
    fun s t p w hop h => step_no_decodeFault hop h⟩
  case fetched =>
    rw [← stepWith_reference]
    exact stepWith_of_unassigned hr h
  case op7E =>
    refine supplied s _ hr ?_
    rw [fieldOp_append, unassigned_opcodeMap_iff]
    decide

/-- Settles O54: the fetched word in the record is the supplied one, and an instruction that does
not fault is recorded as it is. -/
theorem suppliedWordStepsLikeAFetchedOne : Obligations.SuppliedWordStepsLikeAFetchedOne := by
  unfold Obligations.SuppliedWordStepsLikeAFetchedOne
  refine ⟨fun s => ?fetched, fun w i s hr hd => ⟨fun hz => ?completes, fun hz => ?faults⟩⟩
  case fetched =>
    cases hr : s.run with
    | halted | faulted => simp only [stepWord, step, stepWordOf, stepOf, hr]
    | running =>
      rw [← stepWordWith_reference, ← stepWith_reference]
      cases hd : decodeWith reference.map s.fetchWord with
      | error e => exact (stepWordOf_of_reject hr hd).trans (stepOf_of_reject hr hd).symm
      | ok i =>
        rw [stepWith_of_decode hr hd]
        by_cases hz : divisorOf s i = some 0
        · rw [execWith_of_divisor_zero _ hz]
          exact stepWordWith_of_divisor_zero hr hd hz
        · exact stepWordWith_of_decode hr hd hz
  case completes =>
    rw [← stepWordWith_reference, exec_eq_execWith]
    exact stepWordWith_of_decode hr hd hz
  case faults =>
    rw [← stepWordWith_reference]
    exact stepWordWith_of_divisor_zero hr hd hz

end Sys2Proof.Machine
end

section
/-! PROOF. The invariant (20_memory.md R50, R51, 60_exceptions.md R325): every write keeps the
memory canonical, so every step and every host operation does. -/

namespace Sys2Proof.Machine

/-- A write to a range keeps the canonical form. -/
theorem WritesRange.wf {st : Option (Word × Nat)} {m m' : Memory} (h : WritesRange st m m')
    (hm : m.wf = true) : m'.wf = true := by
  cases h with
  | nothing => exact hm
  | bytes _ a n v => exact writeLE_wf n m a v hm

/-- The canonical form is a matter of the memory alone. -/
theorem MemoryCanonical.of_mem_eq {s t : State} (h : MemoryCanonical s) (hm : t.mem = s.mem) :
    MemoryCanonical t := by
  unfold MemoryCanonical
  rwa [hm]

/-- A step keeps the memory canonical, under any implementation. -/
theorem stepWith_keeps_canonical {I : Implementation} {s t : State} (hs : MemoryCanonical s)
    (h : stepWith I s = .next t) : MemoryCanonical t := by
  obtain ⟨-, ⟨i, -, hexec⟩ | ⟨_, -, rfl⟩⟩ := stepOf_cases h
  · exact (execWith_writesRange hexec).wf hs
  · exact hs.of_mem_eq (takeFault_mem s _)

/-- A step on a supplied word keeps the memory canonical, under any implementation. -/
theorem stepWordWith_keeps_canonical {I : Implementation} {w : Word} {s t : State}
    (hs : MemoryCanonical s) (h : stepWordWith I w s = .next t) : MemoryCanonical t := by
  obtain ⟨-, ⟨i, -, hrec⟩ | ⟨_, -, rfl⟩⟩ := stepWordOf_cases h
  · obtain ⟨u, hexec, hmem⟩ := recordWord_mem hrec
    have hu : MemoryCanonical u := (execWith_writesRange hexec).wf hs
    exact hu.of_mem_eq hmem
  · exact hs.of_mem_eq (raiseFault_mem s _ w)

/-- The step of any implementation keeps the invariant. -/
theorem stepWith_keeps_inv {I : Implementation} {s t : State} (hs : Inv s)
    (h : stepWith I s = .next t) : Inv t := by
  obtain ⟨hcan, -⟩ := hs
  exact ⟨stepWith_keeps_canonical hcan h, stepWith_noMemoryFault h⟩

/-- Settles O14: the step of the reference machine is that of an implementation. -/
theorem stepKeepsTheInvariant : Obligations.StepKeepsTheInvariant := by
  unfold Obligations.StepKeepsTheInvariant
  intro s t hs h
  rw [← stepWith_reference] at h
  exact stepWith_keeps_inv hs h

theorem inv_reset : Inv State.reset := ⟨reset_mem_wf, noMemoryFault_of_running rfl⟩

/-- Settles O15: reset memory lists nothing, and the machine runs. -/
theorem resetMeetsTheInvariant : Obligations.ResetMeetsTheInvariant := by
  unfold Obligations.ResetMeetsTheInvariant
  exact inv_reset

/-! ## Host operations -/

/-- A bad host index leaves an IndexFault record or the run state as it was (R347). -/
theorem hostIndexFault_keeps_noMemoryFault {s : State} (h : NoMemoryFault s) (i : Int) :
    NoMemoryFault (s.hostIndexFault i) := by
  unfold State.hostIndexFault
  split
  · exact noMemoryFault_of_faulted (raiseFault_run s .indexFault _) (by decide)
  · exact h

theorem setInts_keeps_noMemoryFault {s : State} (h : NoMemoryFault s) (ws : List (Int × Int))
    (signed : Bool) : NoMemoryFault (s.setInts ws signed).state := by
  unfold State.setInts
  split
  · exact hostIndexFault_keeps_noMemoryFault h _
  · split
    · exact h.of_run_eq (writeInts_run ws s)
    · exact h

theorem getInts_keeps_noMemoryFault {s : State} (h : NoMemoryFault s) (is : List Int)
    (signed : Bool) : NoMemoryFault (s.getInts is signed).state := by
  unfold State.getInts
  split
  · exact hostIndexFault_keeps_noMemoryFault h _
  · exact h

theorem setFloatWith_keeps_noMemoryFault {s : State} (h : NoMemoryFault s) (nan : Pattern)
    (i : Int) (d : HostFloat) : NoMemoryFault (s.setFloatWith nan i d).state := by
  unfold State.setFloatWith
  split
  · exact h.of_run_eq (writeF_run s _ _)
  · exact hostIndexFault_keeps_noMemoryFault h _

theorem getFloat_keeps_noMemoryFault {s : State} (h : NoMemoryFault s) (i : Int) :
    NoMemoryFault (s.getFloat i).state := by
  unfold State.getFloat
  split
  · exact h
  · exact hostIndexFault_keeps_noMemoryFault h _

/-- Every host operation and every step keeps the invariant, under any implementation. -/
theorem HostStep.keeps_inv {I : Implementation} {s t : State} (h : HostStep I s t)
    (hs : Inv s) : Inv t := by
  obtain ⟨hcan, hmf⟩ := hs
  cases h with
  | step _ hstep => exact stepWith_keeps_inv ⟨hcan, hmf⟩ hstep
  | stepWord _ w hstep =>
    exact ⟨stepWordWith_keeps_canonical hcan hstep, stepWordWith_noMemoryFault hstep⟩
  | setInts ws signed =>
    exact ⟨hcan.of_mem_eq (setInts_mem s ws signed), setInts_keeps_noMemoryFault hmf ws signed⟩
  | getInts is signed =>
    exact ⟨hcan.of_mem_eq (getInts_mem s is signed), getInts_keeps_noMemoryFault hmf is signed⟩
  | setFloat i d =>
    exact ⟨hcan.of_mem_eq (setFloatWith_mem s _ i d), setFloatWith_keeps_noMemoryFault hmf _ i d⟩
  | getFloat i => exact ⟨hcan.of_mem_eq (getFloat_mem s i), getFloat_keeps_noMemoryFault hmf i⟩
  | load bytes base =>
    exact ⟨loadBytes_wf bytes s.mem base hcan, hmf.of_run_eq (load_run s bytes base)⟩
  | setPC a => exact ⟨hcan.of_mem_eq (setPC_mem s a), hmf.of_run_eq (setPC_run s a)⟩
  | reset => exact inv_reset

/-- Settles O16, by induction on the number of host operations. -/
theorem hostOperationsKeepTheInvariant : Obligations.HostOperationsKeepTheInvariant := by
  unfold Obligations.HostOperationsKeepTheInvariant
  intro I s t hs h
  induction h with
  | refl => exact hs
  | tail t r _ hstep ih => exact hstep.keeps_inv ih

/-- Settles O59: each clause is the rule of the step under any implementation; that 0x7E is left out
is part of the legality of a map. -/
theorem stepUnderEveryImplementation : Obligations.StepUnderEveryImplementation := by
  unfold Obligations.StepUnderEveryImplementation
  refine fun I => ⟨fun s i hr hd => stepWith_of_decode hr hd,
    fun s w i hr hd => ⟨stepWordWith_of_decode hr hd, stepWordWith_of_divisor_zero hr hd⟩,
    fun s w hr h => ⟨?fetched, stepWordWith_of_unassigned hr h⟩, fun hmap => ?leaves7E,
    fun w => unassigned_iff, fun i w hop => decodeWith_ne_of_left_out hop w,
    fun s t => stepWith_keeps_inv⟩
  case fetched =>
    rintro rfl
    exact stepWith_of_unassigned hr h
  case leaves7E =>
    obtain ⟨-, -, h7E⟩ := OpcodeMap.wellFormed_iff.mp hmap
    simpa [OpcodeMap.leaves7E, Unassigned] using h7E

end Sys2Proof.Machine
end

section
/-! PROOF. Accesses of different widths (20_memory.md R52, R54, R57): a load is the concatenation of
loads of its parts, a load inside a stored range sees its part of the value, and a load beside it
sees what was there. -/

namespace Sys2Proof.Machine

/-! ## A load in parts -/

theorem add_add_ofNat (a : Word) (j k : Nat) :
    a + BitVec.ofNat 32 j + BitVec.ofNat 32 k = a + BitVec.ofNat 32 (j + k) := by
  rw [BitVec.add_assoc, BitVec.ofNat_add]

/-- A read of `k + n` bytes, as bits: the `n` bytes from offset `k` on above the first `k` (R52). -/
theorem ofNat_readLE_add (m : Memory) (a : Word) (k n : Nat) :
    BitVec.ofNat (8 * n + 8 * k) (readLE m a (k + n)) =
      BitVec.ofNat (8 * n) (readLE m (a + BitVec.ofNat 32 k) n) ++
        BitVec.ofNat (8 * k) (readLE m a k) := by
  have hsum : readLE m a (k + n) =
      2 ^ (8 * k) * readLE m (a + BitVec.ofNat 32 k) n + readLE m a k := by
    induction k generalizing a with
    | zero => simp [readLE]
    | succ k ih =>
      rw [Nat.add_right_comm, readLE, readLE, ih (a + 1), add_one_add_ofNat]
      ring
  have hk := readLE_lt k m a
  apply BitVec.eq_of_toNat_eq
  rw [BitVec.toNat_append, BitVec.toNat_ofNat, BitVec.toNat_ofNat, BitVec.toNat_ofNat,
    Nat.mod_eq_of_lt hk, Nat.mod_eq_of_lt (readLE_lt n m _), ← Nat.shiftLeft_add_eq_or_of_lt hk,
    Nat.shiftLeft_eq, ← Nat.mul_add, Nat.add_comm n k, Nat.mod_eq_of_lt (readLE_lt _ m a), hsum]
  ring

theorem load8_eq_readByte (s : State) (a : Word) : s.load8 a = s.readByte a := by
  simp [State.load8, State.readByte, readLE]

theorem load16_eq_append (s : State) (a : Word) :
    s.load16 a = s.readByte (a + 1) ++ s.readByte a := by
  rw [← load8_eq_readByte, ← load8_eq_readByte]
  exact ofNat_readLE_add s.mem a 1 1

theorem load32_eq_halves (s : State) (a : Word) :
    s.load32 a = s.load16 (a + 2) ++ s.load16 a :=
  ofNat_readLE_add s.mem a 2 2

theorem load64_eq_words (s : State) (a : Word) :
    s.load64 a = s.load32 (a + 4) ++ s.load32 a :=
  ofNat_readLE_add s.mem a 4 4

/-- A word above its two lowest bytes, which are single (R52). -/
theorem load32_eq_half_bytes (s : State) (a : Word) :
    s.load32 a = s.load16 (a + 2) ++ s.readByte (a + 1) ++ s.readByte a := by
  rw [load32_eq_halves, load16_eq_append s a, BitVec.append_assoc]
  rfl

/-- A word is its four bytes (R52). -/
theorem load32_eq_append (s : State) (a : Word) :
    s.load32 a =
      s.readByte (a + 3) ++ s.readByte (a + 2) ++ s.readByte (a + 1) ++ s.readByte a := by
  have h := load16_eq_append s (a + 2)
  rw [show a + 2 + 1 = a + 3 from BitVec.add_assoc a 2 1] at h
  rw [load32_eq_half_bytes, h]

/-- A read of one more byte, as bits: the bytes from the next address on above the first. -/
theorem ofNat_readLE_succ (s : State) (a : Word) (n : Nat) :
    BitVec.ofNat (8 * n + 8) (readLE s.mem a (1 + n)) =
      BitVec.ofNat (8 * n) (readLE s.mem (a + 1) n) ++ s.readByte a := by
  rw [← load8_eq_readByte]
  exact ofNat_readLE_add s.mem a 1 n

/-- A float pattern is its eight bytes (R52, R55): four single ones below a word. -/
theorem load64_eq_append (s : State) (a : Word) :
    s.load64 a = s.readByte (a + 7) ++ s.readByte (a + 6) ++ s.readByte (a + 5) ++
      s.readByte (a + 4) ++ s.readByte (a + 3) ++ s.readByte (a + 2) ++ s.readByte (a + 1) ++
        s.readByte a := by
  have next (b : Word) (k : Word) : b + k + 1 = b + (k + 1) := BitVec.add_assoc b k 1
  have hword := load32_eq_append s (a + 4)
  rw [show a + 4 + 3 = a + 7 from BitVec.add_assoc a 4 3,
    show a + 4 + 2 = a + 6 from BitVec.add_assoc a 4 2,
    show a + 4 + 1 = a + 5 from BitVec.add_assoc a 4 1] at hword
  calc s.load64 a
      = BitVec.ofNat 56 (readLE s.mem (a + 1) 7) ++ s.readByte a := ofNat_readLE_succ s a 7
    _ = BitVec.ofNat 48 (readLE s.mem (a + 2) 6) ++ s.readByte (a + 1) ++ s.readByte a := by
        have h := ofNat_readLE_succ s (a + 1) 6
        rw [next] at h
        exact congrArg (· ++ s.readByte a) h
    _ = BitVec.ofNat 40 (readLE s.mem (a + 3) 5) ++ s.readByte (a + 2) ++ s.readByte (a + 1) ++
          s.readByte a := by
        have h := ofNat_readLE_succ s (a + 2) 5
        rw [next] at h
        exact congrArg (· ++ s.readByte (a + 1) ++ s.readByte a) h
    _ = s.load32 (a + 4) ++ s.readByte (a + 3) ++ s.readByte (a + 2) ++ s.readByte (a + 1) ++
          s.readByte a := by
        have h := ofNat_readLE_succ s (a + 3) 4
        rw [next] at h
        exact congrArg (· ++ s.readByte (a + 2) ++ s.readByte (a + 1) ++ s.readByte a) h
    _ = _ := by rw [hword]

/-! ## A load after a store -/

/-- A read inside a written range gives the part of the value that stands there (R54). -/
theorem readLE_writeLE_inside {j n N : Nat} (hjn : j + n ≤ N) (hN : N ≤ 2 ^ 32) (m : Memory)
    (a : Word) (v : Nat) :
    readLE (writeLE m a N v) (a + BitVec.ofNat 32 j) n = v / 2 ^ (8 * j) % 2 ^ (8 * n) := by
  refine readLE_of_bytes n _ _ _ fun k hk => ?_
  rw [add_add_ofNat, read_writeLE_inside N hN m a v (j + k) (by omega), Nat.div_div_eq_div_mul,
    ← Nat.pow_add, Nat.mul_add]

/-- The same as bits: the part of the value is a field of it. -/
theorem ofNat_readLE_writeLE_inside {j n N : Nat} (hjn : j + n ≤ N) (hN : N ≤ 2 ^ 32) (m : Memory)
    (a : Word) {w : Nat} (v : BitVec w) :
    BitVec.ofNat (8 * n) (readLE (writeLE m a N v.toNat) (a + BitVec.ofNat 32 j) n) =
      v.extractLsb' (8 * j) (8 * n) := by
  apply BitVec.eq_of_toNat_eq
  rw [readLE_writeLE_inside hjn hN, BitVec.extractLsb'_toNat, BitVec.toNat_ofNat, Nat.mod_mod,
    Nat.shiftRight_eq_div_pow]

/-- From the first byte on. -/
theorem ofNat_readLE_writeLE_self {n N : Nat} (hn : n ≤ N) (hN : N ≤ 2 ^ 32) (m : Memory)
    (a : Word) {w : Nat} (v : BitVec w) :
    BitVec.ofNat (8 * n) (readLE (writeLE m a N v.toNat) a n) = v.extractLsb' 0 (8 * n) := by
  have h := ofNat_readLE_writeLE_inside (j := 0) (by omega : 0 + n ≤ N) hN m a v
  rwa [show a + BitVec.ofNat 32 0 = a from BitVec.add_zero a] at h

/-- A read that shares no byte with a written range sees the memory as it was (R54). -/
theorem readLE_writeLE_outside {n N : Nat} (m : Memory) (a b : Word) (v : Nat)
    (h : ∀ k, k < n → OutsideBytes a N (b + BitVec.ofNat 32 k)) :
    readLE (writeLE m a N v) b n = readLE m b n :=
  readLE_congr n _ _ b fun k hk => read_writeLE_outside N m a v _ (h k hk)

/-- Bytes at and above the end of a range are outside it, as far as they do not wrap onto it. -/
theorem outsideBytes_above {a : Word} {n k : Nat} (hn : n ≤ k) (hk : k < 2 ^ 32) :
    OutsideBytes a n (a + BitVec.ofNat 32 k) := by
  intro j hj h
  have := (add_ofNat_inj a hk (by omega)).mp h
  omega

/-- Bytes below the start of a range are outside it, as far as it does not wrap onto them. -/
theorem outsideBytes_below {a : Word} {d n k : Nat} (hk : k < d) (hd : d + n ≤ 2 ^ 32) :
    OutsideBytes (a + BitVec.ofNat 32 d) n (a + BitVec.ofNat 32 k) := by
  intro j hj h
  rw [add_add_ofNat] at h
  have := (add_ofNat_inj a (by omega) (by omega)).mp h
  omega

/-- A read above a written range. -/
theorem readLE_writeLE_above {N k n : Nat} (hN : N ≤ k) (hk : k + n ≤ 2 ^ 32) (m : Memory)
    (a : Word) (v : Nat) :
    readLE (writeLE m a N v) (a + BitVec.ofNat 32 k) n = readLE m (a + BitVec.ofNat 32 k) n := by
  refine readLE_writeLE_outside m a _ v fun j hj => ?_
  rw [add_add_ofNat]
  exact outsideBytes_above (by omega) (by omega)

@[simp] theorem load32_store32 (s : State) (a v : Word) : (s.store32 a v).load32 a = v :=
  (ofNat_readLE_writeLE_self (n := 4) (N := 4) le_rfl (by decide) s.mem a v).trans
    BitVec.extractLsb'_eq_self

@[simp] theorem load64_store64 (s : State) (a : Word) (d : Pattern) :
    (s.store64 a d).load64 a = d :=
  (ofNat_readLE_writeLE_self (n := 8) (N := 8) le_rfl (by decide) s.mem a d).trans
    BitVec.extractLsb'_eq_self

@[simp] theorem load16_store16 (s : State) (a : Word) (h : Half) : (s.store16 a h).load16 a = h :=
  (ofNat_readLE_writeLE_self (n := 2) (N := 2) le_rfl (by decide) s.mem a h).trans
    BitVec.extractLsb'_eq_self

@[simp] theorem load8_store8 (s : State) (a : Word) (b : Byte) : (s.store8 a b).load8 a = b :=
  (ofNat_readLE_writeLE_self (n := 1) (N := 1) le_rfl (by decide) s.mem a b).trans
    BitVec.extractLsb'_eq_self

/-- The bytes beside a stored byte. -/
theorem readByte_store8_above (s : State) (a : Word) (b : Byte) {k : Nat} (h1 : 1 ≤ k)
    (hk : k < 2 ^ 32) :
    (s.store8 a b).readByte (a + BitVec.ofNat 32 k) = s.readByte (a + BitVec.ofNat 32 k) :=
  readByte_store8_outside s a b _ (outsideBytes_above h1 hk)

theorem readByte_store8_self (s : State) (a : Word) (b : Byte) :
    (s.store8 a b).readByte a = b := by
  rw [← load8_eq_readByte, load8_store8]

/-- A wider read over a stored byte (R54). -/
theorem load16_store8 (s : State) (a : Word) (b : Byte) :
    (s.store8 a b).load16 a = s.readByte (a + 1) ++ b := by
  have h1 := readByte_store8_above s a b (k := 1) (by decide) (by decide)
  rw [load16_eq_append, readByte_store8_self]
  exact congrArg (· ++ b) h1

theorem load32_store8 (s : State) (a : Word) (b : Byte) :
    (s.store8 a b).load32 a =
      s.readByte (a + 3) ++ s.readByte (a + 2) ++ s.readByte (a + 1) ++ b := by
  have h1 := readByte_store8_above s a b (k := 1) (by decide) (by decide)
  have h2 := readByte_store8_above s a b (k := 2) (by decide) (by decide)
  have h3 := readByte_store8_above s a b (k := 3) (by decide) (by decide)
  rw [load32_eq_append, readByte_store8_self]
  exact congrArg₂ (· ++ · ++ b) (congrArg₂ (· ++ ·) h3 h2) h1

/-- A wider read over a stored half, from its first byte. -/
theorem load32_store16 (s : State) (a : Word) (h : Half) :
    (s.store16 a h).load32 a = s.readByte (a + 3) ++ s.readByte (a + 2) ++ h := by
  have hhigh : (s.store16 a h).load16 (a + 2) = s.load16 (a + 2) :=
    congrArg (BitVec.ofNat 16)
      (readLE_writeLE_above (N := 2) (k := 2) (n := 2) le_rfl (by decide) s.mem a h.toNat)
  rw [load32_eq_halves, hhigh, load16_store16, load16_eq_append s (a + 2),
    show a + 2 + 1 = a + 3 from BitVec.add_assoc a 2 1]

/-- A wider read over a stored half, from two bytes below it. -/
theorem load32_store16_above (s : State) (a : Word) (h : Half) :
    (s.store16 (a + 2) h).load32 a = h ++ s.readByte (a + 1) ++ s.readByte a := by
  have below {k : Nat} (hk : k < 2) :
      (s.store16 (a + 2) h).readByte (a + BitVec.ofNat 32 k) = s.readByte (a + BitVec.ofNat 32 k) :=
    readByte_store16_outside s (a + 2) h _ (outsideBytes_below (d := 2) hk (by decide))
  have h0 := below (k := 0) (by decide)
  have h1 := below (k := 1) (by decide)
  rw [show a + BitVec.ofNat 32 0 = a from BitVec.add_zero a] at h0
  rw [load32_eq_half_bytes, load16_store16, h0]
  exact congrArg (h ++ · ++ s.readByte a) h1

/-- A wider read over a stored word. -/
theorem load64_store32 (s : State) (a v : Word) :
    (s.store32 a v).load64 a =
      s.readByte (a + 7) ++ s.readByte (a + 6) ++ s.readByte (a + 5) ++ s.readByte (a + 4) ++
        v := by
  have hhigh : (s.store32 a v).load32 (a + 4) = s.load32 (a + 4) :=
    congrArg (BitVec.ofNat 32)
      (readLE_writeLE_above (N := 4) (k := 4) (n := 4) le_rfl (by decide) s.mem a v.toNat)
  rw [load64_eq_words, hhigh, load32_store32, load32_eq_append s (a + 4),
    show a + 4 + 3 = a + 7 from BitVec.add_assoc a 4 3,
    show a + 4 + 2 = a + 6 from BitVec.add_assoc a 4 2,
    show a + 4 + 1 = a + 5 from BitVec.add_assoc a 4 1]

/-- Settles O18: the reads inside the stored range are fields of the value, the wider ones are put
together from the value and the bytes beside it, which on reset memory are 0. -/
theorem mixedWidthAccessSeesTheBytes : Obligations.MixedWidthAccessSeesTheBytes := by
  unfold Obligations.MixedWidthAccessSeesTheBytes
  intro s a v b h d
  have inside {j n N : Nat} (hjn : j + n ≤ N) (hN : N ≤ 8) {w : Nat} (x : BitVec w) :=
    ofNat_readLE_writeLE_inside hjn (by omega : N ≤ 2 ^ 32) s.mem a x
  have atStart {n N : Nat} (hn : n ≤ N) (hN : N ≤ 8) {w : Nat} (x : BitVec w) :=
    ofNat_readLE_writeLE_self hn (by omega : N ≤ 2 ^ 32) s.mem a x
  refine ⟨load32_store32 s a v,
    atStart (n := 2) (N := 4) (by decide) (by decide) v,
    inside (j := 2) (n := 2) (N := 4) (by decide) (by decide) v,
    fun k hk => inside (j := k) (n := 1) (N := 4) (by omega) (by decide) v,
    load64_store64 s a d,
    atStart (n := 4) (N := 8) (by decide) (by decide) d,
    inside (j := 4) (n := 4) (N := 8) (by decide) (by decide) d,
    load8_store8 s a b, load16_store8 s a b, load32_store8 s a b,
    load16_store16 s a h,
    atStart (n := 1) (N := 2) (by decide) (by decide) h,
    inside (j := 1) (n := 1) (N := 2) (by decide) (by decide) h,
    load32_store16 s a h, load32_store16_above s a h, load64_store32 s a v,
    ?reset8, ?reset16, ?reset32⟩
  case reset8 =>
    rw [load32_store8]
    simp only [reset_readByte]
    exact congrArg (· ++ b) (by decide : (0#8 ++ 0#8 ++ 0#8 : BitVec 24) = 0#24)
  case reset16 =>
    rw [load32_store16]
    simp only [reset_readByte]
    exact congrArg (· ++ h) (by decide : (0#8 ++ 0#8 : BitVec 16) = 0#16)
  case reset32 =>
    rw [load64_store32]
    simp only [reset_readByte]
    exact congrArg (· ++ v) (by decide : (0#8 ++ 0#8 ++ 0#8 ++ 0#8 : BitVec 32) = 0#32)

/-! ## Memories that read alike -/

/-- The first cell of a canonical list, and the rest above it. -/
theorem wfFrom_cons {lo : Option Nat} {a : Nat} {v : Byte} {rest : Memory}
    (h : Memory.wfFrom lo ((a, v) :: rest) = true) :
    (∀ l, lo = some l → l < a) ∧ a < 2 ^ 32 ∧ v ≠ Memory.default ∧
      Memory.wfFrom (some a) rest = true := by
  simp only [Memory.wfFrom, Bool.and_eq_true, decide_eq_true_eq] at h
  obtain ⟨⟨⟨hlo, ha⟩, hv⟩, hrest⟩ := h
  refine ⟨?_, ha, hv, hrest⟩
  rintro l rfl
  simpa using hlo

/-- The first cell is read at its address. -/
theorem read_cons_self (a : Nat) (v : Byte) (rest : Memory) :
    Memory.read ((a, v) :: rest) a = v := if_pos rfl

/-- Every other address is read in the rest. -/
theorem read_cons_ne {a b : Nat} (v : Byte) (rest : Memory) (h : a ≠ b) :
    Memory.read ((a, v) :: rest) b = Memory.read rest b := if_neg h

/-- A canonical list that starts at `a` reads as zero below it. -/
theorem read_below_first {lo : Option Nat} {a b : Nat} {v : Byte} {rest : Memory}
    (h : Memory.wfFrom lo ((a, v) :: rest) = true) (hb : b < a) :
    Memory.read ((a, v) :: rest) b = Memory.default := by
  obtain ⟨-, -, -, hrest⟩ := wfFrom_cons h
  rw [read_cons_ne v rest (by omega), read_below hrest (by omega)]

/-- Canonical lists that read alike on the address space have the same first cell: the one that
started lower would read as zero in the other, which no listed byte is. -/
theorem wfFrom_ext {lo : Option Nat} {m m' : Memory} (hm : Memory.wfFrom lo m = true)
    (hm' : Memory.wfFrom lo m' = true) (h : ∀ a, a < 2 ^ 32 → m.read a = m'.read a) : m = m' := by
  induction m generalizing lo m' with
  | nil =>
    cases m' with
    | nil => rfl
    | cons p' rest' =>
      obtain ⟨a', v'⟩ := p'
      obtain ⟨-, ha', hv', -⟩ := wfFrom_cons hm'
      have heq := h a' ha'
      rw [read_cons_self] at heq
      exact absurd heq.symm hv'
  | cons p rest ih =>
    obtain ⟨a, v⟩ := p
    obtain ⟨-, ha, hv, hrest⟩ := wfFrom_cons hm
    have heqa := h a ha
    rw [read_cons_self] at heqa
    cases m' with
    | nil => exact absurd heqa hv
    | cons p' rest' =>
      obtain ⟨a', v'⟩ := p'
      obtain ⟨-, ha', hv', hrest'⟩ := wfFrom_cons hm'
      have heqa' := h a' ha'
      rw [read_cons_self] at heqa'
      rcases Nat.lt_trichotomy a a' with hlt | rfl | hgt
      · exact absurd (heqa.trans (read_below_first hm' hlt)) hv
      · obtain rfl : v = v' := heqa.trans (read_cons_self a v' rest')
        refine congrArg _ (ih hrest hrest' fun b hb => ?_)
        rcases Nat.lt_or_ge a b with hab | hba
        · have heqb := h b hb
          rwa [read_cons_ne v rest (by omega), read_cons_ne v rest' (by omega)] at heqb
        · rw [read_below hrest hba, read_below hrest' hba]
      · exact absurd (heqa'.symm.trans (read_below_first hm hgt)) hv'

/-- Settles O20: every address of the address space is a word. -/
theorem memoriesThatReadAlikeAreEqual : Obligations.MemoriesThatReadAlikeAreEqual := by
  unfold Obligations.MemoriesThatReadAlikeAreEqual
  intro m m' hm hm' h
  refine wfFrom_ext hm hm' fun a ha => ?_
  have ha' := h (BitVec.ofNat 32 a)
  rwa [BitVec.toNat_ofNat, Nat.mod_eq_of_lt ha] at ha'

/-- Settles O53: the loader writes memory alone, each byte at its place. -/
theorem loaderPlacesTheBytes : Obligations.LoaderPlacesTheBytes := by
  unfold Obligations.LoaderPlacesTheBytes
  intro s bytes base
  exact ⟨load_x s bytes base, load_f s bytes base, load_pc s bytes base, load_run s bytes base,
    load_out s bytes base, fun b hb => load_readByte_outside hb,
    fun hlen k hk => read_loadBytes_inside bytes s.mem base k hk hlen⟩

/-! ## A word placed at pc -/

/-- All 32 bits of a word make the word (R53). -/
theorem tableWord_toNat (w : Word) : tableWord 32 w.toNat = w := by
  unfold tableWord
  rw [Nat.mod_eq_of_lt w.isLt, BitVec.ofNat_toNat, BitVec.setWidth_eq]

theorem fetchWord_withFetchWord (s : State) (w : Word) :
    (s.withFetchWord 32 w.toNat).fetchWord = w :=
  (load32_store32 s s.pc _).trans (tableWord_toNat w)

/-- Settles O57: what is placed at pc is fetched, and a machine so prepared runs. -/
theorem placedWordRunsNext : Obligations.PlacedWordRunsNext := by
  unfold Obligations.PlacedWordRunsNext
  intro s w i hd
  have hfetch := fetchWord_withFetchWord s w
  exact ⟨hfetch, step_of_decode rfl (by rw [hfetch, hd])⟩

end Sys2Proof.Machine
end

section
/-! PROOF. Integer results (40_int_arith.md R120 to R155, 41_shift_logic_relational.md R160 to
R181): the exact result narrowed modulo 2^32 is the word operation, signed and unsigned alike; the shifts,
bitwise and relational operations; and what each instruction completes with. -/

namespace Sys2Proof.Machine

/-! ## Arithmetic on readings is arithmetic on words -/

theorem wrap32_sval (a : Word) : wrap32 (sval a) = a := BitVec.ofInt_toInt

theorem wrap32_uval (a : Word) : wrap32 (uval a) = a := by
  rw [wrap32, BitVec.ofInt_natCast, BitVec.ofNat_toNat, BitVec.setWidth_eq]

theorem wrap32_add (m n : Int) : wrap32 (m + n) = wrap32 m + wrap32 n := BitVec.ofInt_add m n

theorem wrap32_mul (m n : Int) : wrap32 (m * n) = wrap32 m * wrap32 n := BitVec.ofInt_mul m n

theorem wrap32_sub (m n : Int) : wrap32 (m - n) = wrap32 m - wrap32 n := by
  rw [eq_sub_iff_add_eq, ← wrap32_add, sub_add_cancel]

theorem addS_eq_add (a b : Word) : addS a b = a + b := by
  rw [addS, wrap32_add, wrap32_sval, wrap32_sval]

theorem addU_eq_add (a b : Word) : addU a b = a + b := by
  rw [addU, wrap32_add, wrap32_uval, wrap32_uval]

theorem subS_eq_sub (a b : Word) : subS a b = a - b := by
  rw [subS, wrap32_sub, wrap32_sval, wrap32_sval]

theorem subU_eq_sub (a b : Word) : subU a b = a - b := by
  rw [subU, wrap32_sub, wrap32_uval, wrap32_uval]

theorem mulS_eq_mul (a b : Word) : mulS a b = a * b := by
  rw [mulS, wrap32_mul, wrap32_sval, wrap32_sval]

theorem mulU_eq_mul (a b : Word) : mulU a b = a * b := by
  rw [mulU, wrap32_mul, wrap32_uval, wrap32_uval]

theorem divU_eq_udiv (a b : Word) : divU a b = a / b := by
  apply BitVec.eq_of_toNat_eq
  rw [toNat_divU, BitVec.toNat_udiv]

theorem modU_eq_umod (a b : Word) : modU a b = a % b := by
  apply BitVec.eq_of_toNat_eq
  rw [toNat_modU, BitVec.toNat_umod]

/-- The truncated quotient, narrowed: -2^31 by -1 wraps (R122, D12). -/
theorem divS_eq_sdiv (a b : Word) : divS a b = a.sdiv b := by
  apply BitVec.eq_of_toInt_eq
  rw [divS, wrap32, BitVec.toInt_ofInt, BitVec.toInt_sdiv]

theorem modS_eq_srem (a b : Word) : modS a b = a.srem b := by
  have htmod : sval a - (sval a).tdiv (sval b) * sval b = (a.srem b).toInt := by
    rw [BitVec.toInt_srem, Int.tmod_def, Int.mul_comm]
  rw [modS, htmod, wrap32_sval]

/-! ## Shifts -/

theorem shamt_eq_mod (v : Word) : shamt v = v.toNat % 32 := by
  simp [shamt]

theorem toNat_zext32 (v : Half) : (zext32 v).toNat = v.toNat := by
  have := v.isLt
  simp [zext32]
  omega

theorem shamt_zext32 (v : Half) : shamt (zext32 v) = v.toNat % 32 := by
  rw [shamt_eq_mod, toNat_zext32]

theorem sllOp_eq_shiftLeft (v : Word) (n : Nat) : sllOp v n = v <<< n := by
  apply BitVec.eq_of_toNat_eq
  rw [sllOp, BitVec.toNat_shiftLeft, BitVec.toNat_ofNat, Nat.shiftLeft_eq]

theorem srlOp_eq_shiftRight (v : Word) (n : Nat) : srlOp v n = v >>> n := by
  have hfits : v.toNat / 2 ^ n < 2 ^ 32 := (Nat.div_le_self _ _).trans_lt v.isLt
  apply BitVec.eq_of_toNat_eq
  rw [srlOp, BitVec.toNat_ushiftRight, BitVec.toNat_ofNat, Nat.mod_eq_of_lt hfits,
    Nat.shiftRight_eq_div_pow]

/-- Division by a power of two that rounds toward minus infinity copies the sign bit (R163). -/
theorem sraOp_eq_sshiftRight (v : Word) (n : Nat) : sraOp v n = v.sshiftRight n := by
  rw [sraOp, BitVec.sshiftRight_eq, Int.shiftRight_eq_div_pow, Int.fdiv_eq_ediv_of_nonneg]
  · push_cast; rfl
  · positivity

/-! ## Completion -/

/-- `setX` completes with any word that is equal to the one written. -/
theorem setX_completes (r : XReg) (s : State) {v v' : Word} (h : v = v') :
    CompletesX (setX r v s) s r v' := h ▸ setX_spec r v s

/-- A divide or remainder by a divisor that is not 0 completes with any word that is equal to its
result. -/
theorem setXDivided_completes_of_eq (r : XReg) (s : State) {op op' : Word → Word → Word}
    (h : ∀ a b, op a b = op' a b) (a : Word) {b : Word} (hb : b ≠ 0) :
    CompletesX (setXDivided r op a b s) s r (op' a b) :=
  h a b ▸ setXDivided_completes r op s hb

/-- Settles O22: each of the eighteen is `setX` of a sum, difference or product, which as a word is
the same for the signed and the unsigned readings. -/
theorem addSubtractMultiplyResults : Obligations.AddSubtractMultiplyResults := by
  unfold Obligations.AddSubtractMultiplyResults
  intro ra rb rc imm16 s
  have add a b := setX_completes ra s (addS_eq_add a b)
  have addu a b := setX_completes ra s (addU_eq_add a b)
  have sub a b := setX_completes ra s (subS_eq_sub a b)
  have subu a b := setX_completes ra s (subU_eq_sub a b)
  have mul a b := setX_completes ra s (mulS_eq_mul a b)
  have mulu a b := setX_completes ra s (mulU_eq_mul a b)
  exact ⟨add _ _, add _ _, add _ _, addu _ _, addu _ _, addu _ _,
    sub _ _, sub _ _, sub _ _, subu _ _, subu _ _, subu _ _,
    mul _ _, mul _ _, mul _ _, mulu _ _, mulu _ _, mulu _ _⟩

/-- Sign extension makes no word 0 but from 0. -/
theorem sext32_ne_zero {v : Half} (h : v ≠ 0) : sext32 v ≠ 0 := by
  intro h0
  have h1 : (sext32 v).setWidth 16 = v := by
    ext k hk
    simp [sext32, BitVec.getElem_signExtend, hk, (by omega : k < 32)]
  rw [h0] at h1
  exact h h1.symm

/-- Zero extension makes no word 0 but from 0. -/
theorem zext32_ne_zero {v : Half} (h : v ≠ 0) : zext32 v ≠ 0 := by
  intro h0
  have h1 := toNat_zext32 v
  rw [h0] at h1
  exact h (BitVec.eq_of_toNat_eq h1.symm)

/-- Settles O23: a divisor that is not 0 does not fault, and an immediate that is not 0 is not
extended to 0. -/
theorem divideRemainderResults : Obligations.DivideRemainderResults := by
  unfold Obligations.DivideRemainderResults
  intro ra rb rc imm16 s
  have div {b} := setXDivided_completes_of_eq ra s divS_eq_sdiv (s.readX rb) (b := b)
  have divu {b} := setXDivided_completes_of_eq ra s divU_eq_udiv (s.readX rb) (b := b)
  have mod {b} := setXDivided_completes_of_eq ra s modS_eq_srem (s.readX rb) (b := b)
  have modu {b} := setXDivided_completes_of_eq ra s modU_eq_umod (s.readX rb) (b := b)
  refine ⟨fun hrc => ⟨div hrc, divu hrc, mod hrc, modu hrc⟩, fun himm => ?_⟩
  have hs := sext32_ne_zero himm
  have hz := zext32_ne_zero himm
  exact ⟨div hs, div hz, divu hs, divu hz, mod hs, mod hz, modu hs, modu hz⟩

/-- A word that is not 0 reads as no signed 0. -/
theorem sval_ne_zero {a : Word} (h : a ≠ 0) : sval a ≠ 0 :=
  fun h0 => h (BitVec.eq_of_toInt_eq h0)

/-- A truncated remainder is zero or has the dividend's sign (R122). -/
theorem tmod_sign (a b : Int) : a.tmod b = 0 ∨ (0 < a.tmod b ↔ 0 < a) := by
  have hsign := Int.sign_tmod a b
  split at hsign
  · exact .inl (Int.sign_eq_zero_iff_zero.mp hsign)
  · right
    rw [← Int.sign_eq_one_iff_pos, hsign, Int.sign_eq_one_iff_pos]

/-- Settles O25: the quotient and the remainder are `Int.tdiv` and `Int.tmod` of the signed
readings, which obey the law; the case that wraps is evaluated. -/
theorem signedDivisionLaw : Obligations.SignedDivisionLaw := by
  unfold Obligations.SignedDivisionLaw
  refine ⟨fun ra rb rc s hrc => ?law, by decide, by decide⟩
  case law =>
    have hrem : sval (s.readX rb) - (sval (s.readX rb)).tdiv (sval (s.readX rc)) *
        sval (s.readX rc) = (sval (s.readX rb)).tmod (sval (s.readX rc)) := by
      rw [Int.tmod_def, Int.mul_comm]
    refine ⟨(sval (s.readX rb)).tdiv (sval (s.readX rc)),
      (sval (s.readX rb)).tmod (sval (s.readX rc)), ?_, ?_, ?_, ?_, tmod_sign _ _⟩
    · exact setXDivided_completes ra divS s hrc
    · rw [← hrem]
      exact setXDivided_completes ra modS s hrc
    · rw [Int.tdiv_mul_add_tmod]
    · rw [Int.natAbs_tmod]
      exact Nat.mod_lt _ (Int.natAbs_pos.mpr (sval_ne_zero hrc))

/-- Settles O26: the amounts of the register and the immediate forms are the low 5 bits, and each
shift by an amount is the word shift. -/
theorem shiftResults : Obligations.ShiftResults := by
  unfold Obligations.ShiftResults
  intro ra rb rc imm16 s
  rw [← shamt_eq_mod, ← shamt_zext32]
  have sll n := setX_completes ra s (sllOp_eq_shiftLeft (s.readX rb) n)
  have srl n := setX_completes ra s (srlOp_eq_shiftRight (s.readX rb) n)
  have sra n := setX_completes ra s (sraOp_eq_sshiftRight (s.readX rb) n)
  exact ⟨sll _, srl _, sra _, sll _, srl _, sra _⟩

/-- Settles O27: bit k of each operation of words. -/
theorem bitwiseResults : Obligations.BitwiseResults := by
  unfold Obligations.BitwiseResults
  intro ra rb rc s
  refine ⟨⟨_, setX_spec _ _ s, fun k => ?and⟩, ⟨_, setX_spec _ _ s, fun k => ?or⟩,
    ⟨_, setX_spec _ _ s, fun k => ?xor⟩, ⟨_, setX_spec _ _ s, fun k hk => ?not⟩⟩
  case and => exact BitVec.getLsbD_and
  case or => exact BitVec.getLsbD_or
  case xor => exact BitVec.getLsbD_xor
  case not => rw [BitVec.getLsbD_not, decide_eq_true hk, Bool.true_and]

/-! ## Relational operations -/

/-- `bool32` of a decided proposition is 1 or 0 (R171). -/
theorem bool32_decide (p : Prop) [Decidable p] : bool32 (decide p) = if p then 1 else 0 := by
  by_cases h : p <;> simp [bool32, h]

/-- The unsigned order of readings is that of the naturals. -/
theorem bool32_uval_lt (a b : Word) :
    bool32 (decide (uval a < uval b)) = if a.toNat < b.toNat then 1 else 0 := by
  simp [bool32_decide]

theorem bool32_uval_le (a b : Word) :
    bool32 (decide (uval a ≤ uval b)) = if a.toNat ≤ b.toNat then 1 else 0 := by
  simp [bool32_decide]

theorem bool32_relNe (a b : Word) : bool32 (relNe a b) = if a = b then 0 else 1 := by
  by_cases h : a = b <;> simp [relNe, bool32, h]

/-- An opcode the reference map gives to a mnemonic decodes to what the mnemonic builds. -/
theorem decodesTo_of_assigned {op : Byte} {m : Mnemonic}
    (h : opcodeMap.mnemonicOf op = some m) : DecodesTo op m.build := by
  rintro w rfl
  exact decodeWith_of_assigned h

/-- Settles O28: the opcodes are looked up, and each relation is decided on the readings it is
stated about. -/
theorem relationalResults : Obligations.RelationalResults := by
  unfold Obligations.RelationalResults
  refine ⟨decodesTo_of_assigned (m := .eq) rfl, decodesTo_of_assigned (m := .ne) rfl,
    decodesTo_of_assigned (m := .lt) rfl, decodesTo_of_assigned (m := .ltu) rfl,
    decodesTo_of_assigned (m := .gt) rfl, decodesTo_of_assigned (m := .gtu) rfl,
    decodesTo_of_assigned (m := .le) rfl, decodesTo_of_assigned (m := .leu) rfl,
    decodesTo_of_assigned (m := .ge) rfl, decodesTo_of_assigned (m := .geu) rfl,
    fun ra rb rc s => ?_⟩
  exact ⟨setX_completes ra s (bool32_decide _), setX_completes ra s (bool32_relNe _ _),
    setX_completes ra s (bool32_decide _), setX_completes ra s (bool32_uval_lt _ _),
    setX_completes ra s (bool32_decide _), setX_completes ra s (bool32_uval_lt _ _),
    setX_completes ra s (bool32_decide _), setX_completes ra s (bool32_uval_le _ _),
    setX_completes ra s (bool32_decide _), setX_completes ra s (bool32_uval_le _ _)⟩

end Sys2Proof.Machine
end

section
/-! PROOF. Control transfer (42_control_transfer.md R200 to R210), under any parameters where a
meaning depends on one: the branch targets, the jump targets, and `call` and `ret`. -/

namespace Sys2Proof.Machine

/-! ## Branches -/

/-- A branch on a decided relation: the scaled displacement from its own address, or the next
instruction (R200). -/
theorem branch_completes (s : State) (P : Params) (imm16 : Half) {target : Word}
    (ht : target = s.pc + wrap32 (imm16.toInt * P.branchScale)) (p : Prop) [Decidable p] :
    CompletesJump (.next (s.branch P.branchScale (decide p) imm16)) s
      (if p then target else s.pc + 4) := by
  have h := branch_spec s P.branchScale (decide p) imm16
  simp only [decide_eq_true_eq] at h
  subst ht
  exact h

/-- The five branches under any BRANCH_SCALE (R89, R201 to R205). -/
theorem execWith_branches (P : Params) (ra rb : XReg) (imm16 : Half) (s : State) (target : Word)
    (ht : target = s.pc + wrap32 (imm16.toInt * P.branchScale)) :
    CompletesJump (execWith P (.b imm16) s) s target ∧
    CompletesJump (execWith P (.beq ra rb imm16) s) s
      (if s.readX ra = s.readX rb then target else s.pc + 4) ∧
    CompletesJump (execWith P (.bne ra rb imm16) s) s
      (if s.readX ra = s.readX rb then s.pc + 4 else target) ∧
    CompletesJump (execWith P (.blt ra rb imm16) s) s
      (if sval (s.readX ra) < sval (s.readX rb) then target else s.pc + 4) ∧
    CompletesJump (execWith P (.bgt ra rb imm16) s) s
      (if sval (s.readX ra) > sval (s.readX rb) then target else s.pc + 4) := by
  have taken := branch_completes s P imm16 ht
  refine ⟨?always, taken _, ?ne, taken _, taken _⟩
  case always =>
    rw [ht]
    exact branch_spec s P.branchScale true imm16
  case ne =>
    have h := taken (s.readX ra ≠ s.readX rb)
    rw [ite_not] at h
    exact h

/-- With BRANCH_SCALE 1 the displacement is the sign-extended immediate (D8). -/
theorem wrap32_toInt_mul_one (imm16 : Half) :
    wrap32 (imm16.toInt * params.branchScale) = imm16.signExtend 32 := by
  rw [show params.branchScale = 1 from rfl, mul_one]
  rfl

/-- Settles O29: the five branches at the reference scale. -/
theorem branchTargets : Obligations.BranchTargets := by
  unfold Obligations.BranchTargets
  intro ra rb imm16 s
  exact execWith_branches params ra rb imm16 s _ (by rw [wrap32_toInt_mul_one])

/-! ## Jumps -/

/-- The mask of `j`'s segment: bits 31:26. -/
theorem getLsbD_segmentMask {k : Nat} (hk : k < 32) :
    BitVec.getLsbD (0xFC000000#32) k = decide (26 ≤ k) := by
  have hall : ∀ k : Fin 32, BitVec.getLsbD (0xFC000000#32) k = decide (26 ≤ (k : Nat)) := by decide
  exact hall ⟨k, hk⟩

/-- The three parts of the target of `j` (R90, R206). -/
theorem jumpTarget_fields (pc : Word) (imm24 : BitVec 24) :
    (jumpTarget pc imm24).extractLsb' 26 6 = pc.extractLsb' 26 6 ∧
      (jumpTarget pc imm24).extractLsb' 2 24 = imm24 ∧
      (jumpTarget pc imm24).extractLsb' 0 2 = 0 := by
  refine ⟨?segment, ?index, ?aligned⟩
  case segment =>
    ext k hk
    simp [jumpTarget, getLsbD_segmentMask (by omega : 26 + k < 32)]
    grind
  case index =>
    ext k hk
    simp [jumpTarget, getLsbD_segmentMask (by omega : 2 + k < 32)]
    grind
  case aligned =>
    ext k hk
    simp [jumpTarget, getLsbD_segmentMask (by omega : k < 32)]
    grind

/-- Settles O30: the target's three parts, and the register as it is. -/
theorem jumpTargets : Obligations.JumpTargets := by
  unfold Obligations.JumpTargets
  exact ⟨fun imm24 s => ⟨_, jump_spec s _, jumpTarget_fields s.pc imm24⟩,
    fun ra s => jump_spec s (s.readX ra)⟩

/-! ## Calls and returns -/

/-- `call` under any step: the return address below SP, SP moved, the pc at the register as it was
(R208, D15). -/
theorem execWith_call (P : Params) (ra : XReg) (s : State) :
    ∃ t, execWith P (.call ra) s = .next t ∧ t.pc = s.readX ra ∧
      t.readX regSP = s.pushAddr (P.stackStep .call) ∧
      BytesAt t (s.pushAddr (P.stackStep .call)) 4 (s.pc + 4).toNat ∧
      Frame [regSP] [] (some (s.pushAddr (P.stackStep .call), 4)) s t := by
  -- the push that `call` makes, but for the pc it ends at
  obtain ⟨t, ht, hbytes, hsp, -, hframe⟩ :=
    push_spec s (s.store32 (s.pushAddr (P.stackStep .call)) s.nextPc) (P.stackStep .call) 4
      (s.pc + 4).toNat (by decide) rfl rfl rfl rfl rfl rfl
  cases ht
  exact ⟨_, rfl, rfl, hsp, hbytes, hframe.x, hframe.f, hframe.mem, hframe.run, hframe.out⟩

/-- `ret` under any step: the word at SP to the pc, SP moved (R209). -/
theorem execWith_ret (P : Params) (s : State) :
    ∃ t, execWith P .ret s = .next t ∧ t.pc = s.load32 (s.readX regSP) ∧
      t.readX regSP = s.readX regSP + BitVec.ofNat 32 (P.stackStep .ret) ∧
      Frame [regSP] [] none s t := by
  refine ⟨_, rfl, rfl, by simp [State.popSP], fun r hr => ?_, fun _ _ => rfl, fun _ _ => rfl,
    rfl, rfl⟩
  simp only [List.mem_singleton] at hr
  simp [hr]

/-- Settles O31: the reference step of `call` is 4. -/
theorem callPushesTheReturnAddress : Obligations.CallPushesTheReturnAddress := by
  unfold Obligations.CallPushesTheReturnAddress
  exact fun ra s => execWith_call params ra s

/-- Settles O32: the reference step of `ret` is 4, and a word is its four bytes. -/
theorem returnPopsTheAddress : Obligations.ReturnPopsTheAddress := by
  unfold Obligations.ReturnPopsTheAddress
  intro s
  rw [← load32_eq_append]
  exact execWith_ret params s

/-- Bytes that hold a value are read as it (R52). -/
theorem BytesAt.ofNat_readLE_eq {t : State} {a : Word} {n : Nat} {v : BitVec (8 * n)}
    (h : BytesAt t a n v.toNat) : BitVec.ofNat (8 * n) (readLE t.mem a n) = v := by
  rw [readLE_of_bytes n t.mem a v.toNat h, Nat.mod_eq_of_lt v.isLt, BitVec.ofNat_toNat,
    BitVec.setWidth_eq]

theorem BytesAt.load8_eq {t : State} {a : Word} {v : Byte} (h : BytesAt t a 1 v.toNat) :
    t.load8 a = v := h.ofNat_readLE_eq (n := 1)

theorem BytesAt.load16_eq {t : State} {a : Word} {v : Half} (h : BytesAt t a 2 v.toNat) :
    t.load16 a = v := h.ofNat_readLE_eq (n := 2)

theorem BytesAt.load32_eq {t : State} {a v : Word} (h : BytesAt t a 4 v.toNat) :
    t.load32 a = v := h.ofNat_readLE_eq (n := 4)

theorem BytesAt.load64_eq {t : State} {a : Word} {v : Pattern} (h : BytesAt t a 8 v.toNat) :
    t.load64 a = v := h.ofNat_readLE_eq (n := 8)

/-- A step that moved SP and one that moved it back: the bytes of the first are all that changed. -/
theorem Frame.trans_back {st : Option (Word × Nat)} {s t u : State}
    (h1 : Frame [regSP] [] st s t) (h2 : Frame [regSP] [] none t u)
    (hsp : u.readX regSP = s.readX regSP) : Frame [] [] st s u where
  x r _ := by
    by_cases hr : r = regSP
    · rw [hr, hsp]
    · have hmem : r ∉ [regSP] := by simpa using hr
      rw [h2.x r hmem, h1.x r hmem]
  f r hr := by rw [h2.f r hr, h1.f r hr]
  mem b hb := by
    rw [h2.mem b (fun a n h => by cases h), h1.mem b hb]
  run := h2.run.trans h1.run
  out := h2.out.trans h1.out

/-- Settles O33: what `call` stored is the word `ret` reads, and SP is moved back. -/
theorem callThenReturnComesBack : Obligations.CallThenReturnComesBack := by
  unfold Obligations.CallThenReturnComesBack
  intro ra s
  obtain ⟨t, hcall, -, hspt, hbytes, hframet⟩ := execWith_call params ra s
  obtain ⟨u, hret, hpcu, hspu, hframeu⟩ := execWith_ret params t
  refine ⟨t, u, hcall, hret, ?_, hframet.trans_back hframeu ?_⟩
  · rw [hpcu, hspt, hbytes.load32_eq]
  · rw [hspu, hspt]
    exact BitVec.sub_add_cancel _ _

end Sys2Proof.Machine
end

section
/-! PROOF. Loads, stores and the stack (43_load_store.md R230 to R257), under any parameters where a
meaning depends on one. -/

namespace Sys2Proof.Machine

/-! ## Narrow values -/

theorem toNat_lowHalf (v : Word) : (lowHalf v).toNat = v.toNat % 2 ^ 16 := by
  simp [lowHalf]

theorem toNat_lowByte (v : Word) : (lowByte v).toNat = v.toNat % 2 ^ 8 := by
  simp [lowByte]

theorem zext32_append (b1 b0 : Byte) : zext32 (b1 ++ b0) = 0#16 ++ b1 ++ b0 := by
  ext k hk; simp [zext32]; grind

theorem toNat_zext32b (v : Byte) : (zext32b v).toNat = v.toNat := by
  have := v.isLt
  simp [zext32b]
  omega

theorem zext32b_eq_append (b : Byte) : zext32b b = 0#24 ++ b := by
  ext k hk; simp [zext32b]; grind

theorem zext32_lowHalf (v : Word) : zext32 (lowHalf v) = v &&& 0xFFFF := by
  apply BitVec.eq_of_toNat_eq
  rw [toNat_zext32, toNat_lowHalf, BitVec.toNat_and]
  exact (Nat.and_two_pow_sub_one_eq_mod v.toNat 16).symm

theorem zext32b_lowByte (v : Word) : zext32b (lowByte v) = v &&& 0xFF := by
  apply BitVec.eq_of_toNat_eq
  rw [toNat_zext32b, toNat_lowByte, BitVec.toNat_and]
  exact (Nat.and_two_pow_sub_one_eq_mod v.toNat 8).symm

/-! ## Loads and stores -/

/-- The four stores: the low part of the register at the effective address (R236 to R239). -/
theorem execWith_sw (P : Params) (ra rb : XReg) (imm16 : Half) (s : State) :
    CompletesStore (execWith P (.sw ra rb imm16) s) s (effAddr (s.readX rb) imm16) 4
      (s.readX ra).toNat :=
  store_spec s _ _ 4 _ (by decide) rfl rfl rfl rfl rfl rfl

theorem execWith_sh (P : Params) (ra rb : XReg) (imm16 : Half) (s : State) :
    CompletesStore (execWith P (.sh ra rb imm16) s) s (effAddr (s.readX rb) imm16) 2
      ((s.readX ra).toNat % 2 ^ 16) := by
  rw [← toNat_lowHalf]
  exact store_spec s _ _ 2 _ (by decide) rfl rfl rfl rfl rfl rfl

theorem execWith_sb (P : Params) (ra rb : XReg) (imm16 : Half) (s : State) :
    CompletesStore (execWith P (.sb ra rb imm16) s) s (effAddr (s.readX rb) imm16) 1
      ((s.readX ra).toNat % 2 ^ 8) := by
  rw [← toNat_lowByte]
  exact store_spec s _ _ 1 _ (by decide) rfl rfl rfl rfl rfl rfl

theorem execWith_sf (P : Params) (ra : FReg) (rb : XReg) (imm16 : Half) (s : State) :
    CompletesStore (execWith P (.sf ra rb imm16) s) s (effAddr (s.readX rb) imm16) 8
      (s.readF ra).toNat :=
  store_spec s _ _ 8 _ (by decide) rfl rfl rfl rfl rfl rfl

/-- Settles O34: each load is `setX` of the bytes at the effective address, the narrow ones with
zeros above. -/
theorem integerLoadsAndWordStore : Obligations.IntegerLoadsAndWordStore := by
  unfold Obligations.IntegerLoadsAndWordStore
  rintro ra rb imm16 s ea rfl
  refine ⟨setX_completes ra s (load32_eq_append s _), setX_completes ra s ?half,
    setX_completes ra s ?byte, execWith_sw params ra rb imm16 s⟩
  case half => exact (congrArg zext32 (load16_eq_append s _)).trans (zext32_append _ _)
  case byte => exact (congrArg zext32b (load8_eq_readByte s _)).trans (zext32b_eq_append _)

/-- `setF` completes with any pattern that is equal to the one written. -/
theorem setF_completes (r : FReg) (s : State) {v v' : Pattern} (h : v = v') :
    CompletesF (setF r v s) s r v' := h ▸ setF_spec r v s

/-- Settles O35: the opcodes are looked up; the load is the eight bytes, and the stores
are those of any parameters. -/
theorem floatLoadAndNarrowStores : Obligations.FloatLoadAndNarrowStores := by
  unfold Obligations.FloatLoadAndNarrowStores
  refine ⟨decodesTo_of_assigned (m := .lf) rfl, decodesTo_of_assigned (m := .sh) rfl,
    decodesTo_of_assigned (m := .sb) rfl, decodesTo_of_assigned (m := .sf) rfl, ?_⟩
  rintro ra rb fa imm16 s ea rfl
  exact ⟨setF_completes fa s (load64_eq_append s _), execWith_sh params ra rb imm16 s,
    execWith_sb params ra rb imm16 s, execWith_sf params fa rb imm16 s⟩

/-! ## Immediates -/

theorem zext32_eq_ofNat (v : Half) : zext32 v = BitVec.ofNat 32 v.toNat := by
  apply BitVec.eq_of_toNat_eq
  have := v.isLt
  rw [toNat_zext32, BitVec.toNat_ofNat, Nat.mod_eq_of_lt (by omega)]

/-- Settles O36: sign extension is the signed reading narrowed, and a half is at most 65535. -/
theorem loadImmediates : Obligations.LoadImmediates := by
  unfold Obligations.LoadImmediates
  refine ⟨decodesTo_of_assigned (m := .li) rfl, decodesTo_of_assigned (m := .liu) rfl,
    fun ra imm16 s => ⟨setX_spec ra _ s, setX_completes ra s (zext32_eq_ofNat imm16), ?_⟩,
    by decide⟩
  have := imm16.isLt
  rw [← zext32_eq_ofNat, toNat_zext32]
  omega

/-- Settles O37: the two halves of the word that `lui` writes. -/
theorem loadUpperImmediate : Obligations.LoadUpperImmediate := by
  unfold Obligations.LoadUpperImmediate
  refine fun ra imm16 s => ⟨upperImm imm16, setX_spec ra _ s, ?upper, ?lower⟩
  case upper => ext k hk; simp [upperImm]; grind
  case lower => ext k hk; simp [upperImm]; grind

/-! ## The stack -/

/-- The four pushes under any steps: the width of the data below SP, SP moved by the step (R250 to
R253). -/
theorem execWith_pushW (P : Params) (ra : XReg) (s : State) :
    CompletesPush (execWith P (.pushW ra) s) s (P.stackStep .pushW) 4 (s.readX ra).toNat :=
  push_spec s _ _ 4 _ (by decide) rfl rfl rfl rfl rfl rfl

theorem execWith_pushH (P : Params) (ra : XReg) (s : State) :
    CompletesPush (execWith P (.pushH ra) s) s (P.stackStep .pushH) 2
      ((s.readX ra).toNat % 2 ^ 16) := by
  rw [← toNat_lowHalf]
  exact push_spec s _ _ 2 _ (by decide) rfl rfl rfl rfl rfl rfl

theorem execWith_pushB (P : Params) (ra : XReg) (s : State) :
    CompletesPush (execWith P (.pushB ra) s) s (P.stackStep .pushB) 1
      ((s.readX ra).toNat % 2 ^ 8) := by
  rw [← toNat_lowByte]
  exact push_spec s _ _ 1 _ (by decide) rfl rfl rfl rfl rfl rfl

theorem execWith_pushF (P : Params) (ra : FReg) (s : State) :
    CompletesPush (execWith P (.pushF ra) s) s (P.stackStep .pushF) 8 (s.readF ra).toNat :=
  push_spec s _ _ 8 _ (by decide) rfl rfl rfl rfl rfl rfl

/-- The word and float pops under any steps (R254, R257). -/
theorem execWith_popW (P : Params) (ra : XReg) (s : State) :
    CompletesPopX (execWith P (.popW ra) s) s ra (P.stackStep .popW) (s.load32 (s.readX regSP)) :=
  popX_spec s ra _ _

theorem execWith_popF (P : Params) (fa : FReg) (s : State) :
    CompletesPopF (execWith P (.popF fa) s) s fa (P.stackStep .popF) (s.load64 (s.readX regSP)) :=
  popF_spec s fa _ _

/-- The narrow pops under any steps, widened by NARROW_LOAD_EXT (R255, R256). -/
theorem execWith_popH (P : Params) (ra : XReg) (s : State) :
    CompletesPopX (execWith P (.popH ra) s) s ra (P.stackStep .popH)
      (ext16 P.narrowLoadExt (s.load16 (s.readX regSP))) :=
  popX_spec s ra _ _

theorem execWith_popB (P : Params) (ra : XReg) (s : State) :
    CompletesPopX (execWith P (.popB ra) s) s ra (P.stackStep .popB)
      (ext8 P.narrowLoadExt (s.load8 (s.readX regSP))) :=
  popX_spec s ra _ _

/-- Settles O38: the reference steps are the widths. -/
theorem pushesStoreBelowTheStackPointer : Obligations.PushesStoreBelowTheStackPointer := by
  unfold Obligations.PushesStoreBelowTheStackPointer
  exact fun ra fa s => ⟨execWith_pushW params ra s, execWith_pushH params ra s,
    execWith_pushB params ra s, execWith_pushF params fa s⟩

/-- Settles O39: the pops at the reference parameters, their loads as bytes. -/
theorem popsLoadAtTheStackPointer : Obligations.PopsLoadAtTheStackPointer := by
  unfold Obligations.PopsLoadAtTheStackPointer
  rintro ra fa s sp rfl
  rw [← load32_eq_append, ← load64_eq_append, ← zext32_append, ← zext32b_eq_append,
    ← load16_eq_append, ← load8_eq_readByte]
  exact ⟨execWith_popW params ra s, execWith_popH params ra s, execWith_popB params ra s,
    execWith_popF params fa s⟩

/-- Moving SP down and up by one step restores it (R245). -/
theorem pushAddr_add (s : State) (k : Nat) :
    s.pushAddr k + BitVec.ofNat 32 k = s.readX regSP := BitVec.sub_add_cancel _ _

/-- A push and a pop with one step into another register than SP: SP is restored, and the value is
what the pop makes of the pushed bytes (R245). -/
theorem push_then_popX {o : StepResult} {pop : State → StepResult} {s : State} {k n v : Nat}
    {rd : XReg} {value : State → Word} {x : Word} (hpush : CompletesPush o s k n v)
    (hpop : ∀ t, CompletesPopX (pop t) t rd k (value t)) (hrd : rd ≠ regSP)
    (hvalue : ∀ t, BytesAt t (t.readX regSP) n v → value t = x) :
    ∃ t u, o = .next t ∧ pop t = .next u ∧ u.readX rd = x ∧ u.readX regSP = s.readX regSP := by
  obtain ⟨t, ht, hbytes, hspt, -, -⟩ := hpush
  obtain ⟨u, hu, hread, hspu, -, -⟩ := hpop t
  rw [← hspt] at hbytes
  exact ⟨t, u, ht, hu, hread.trans (hvalue t hbytes), by rw [hspu hrd, hspt, pushAddr_add]⟩

/-- The same into a float register. -/
theorem push_then_popF {o : StepResult} {pop : State → StepResult} {s : State} {k n v : Nat}
    {fd : FReg} {value : State → Pattern} {x : Pattern} (hpush : CompletesPush o s k n v)
    (hpop : ∀ t, CompletesPopF (pop t) t fd k (value t))
    (hvalue : ∀ t, BytesAt t (t.readX regSP) n v → value t = x) :
    ∃ t u, o = .next t ∧ pop t = .next u ∧ u.readF fd = x ∧ u.readX regSP = s.readX regSP := by
  obtain ⟨t, ht, hbytes, hspt, -, -⟩ := hpush
  obtain ⟨u, hu, hread, hspu, -, -⟩ := hpop t
  rw [← hspt] at hbytes
  exact ⟨t, u, ht, hu, hread.trans (hvalue t hbytes), by rw [hspu, hspt, pushAddr_add]⟩

/-- Settles O40: the pushed bytes are at the SP that the pop reads at, and the steps are equal. -/
theorem popUndoesPush : Obligations.PopUndoesPush := by
  unfold Obligations.PopUndoesPush
  intro ra rd fa fd s hrd
  have hh := execWith_pushH params ra s
  have hb := execWith_pushB params ra s
  rw [← toNat_lowHalf] at hh
  rw [← toNat_lowByte] at hb
  refine ⟨push_then_popX (execWith_pushW params ra s) (execWith_popW params rd) hrd
      fun t h => h.load32_eq,
    push_then_popX hh (execWith_popH params rd) hrd fun t h => ?half,
    push_then_popX hb (execWith_popB params rd) hrd fun t h => ?byte,
    push_then_popF (execWith_pushF params fa s) (execWith_popF params fd) fun t h => h.load64_eq⟩
  case half => rw [h.load16_eq]; exact zext32_lowHalf _
  case byte => rw [h.load8_eq]; exact zext32b_lowByte _

end Sys2Proof.Machine
end

section
/-! PROOF. The frame and the pc of every instruction (00_scope.md R93, 30_encoding.md R97, R102,
R103): each ends in one of the shared shapes, whose frames are known. -/

namespace Sys2Proof.Machine

/-! ## The frame of a completed shape -/

theorem CompletesX.frame {o : StepResult} {s t : State} {d : XReg} {v : Word}
    (h : CompletesX o s d v) (ht : o = .next t) : Frame [d] [] none s t := by
  obtain ⟨u, hu, -, -, hframe⟩ := h
  cases hu.symm.trans ht
  exact hframe

theorem CompletesF.frame {o : StepResult} {s t : State} {d : FReg} {v : Pattern}
    (h : CompletesF o s d v) (ht : o = .next t) : Frame [] [d] none s t := by
  obtain ⟨u, hu, -, -, hframe⟩ := h
  cases hu.symm.trans ht
  exact hframe

theorem CompletesJump.frame {o : StepResult} {s t : State} {target : Word}
    (h : CompletesJump o s target) (ht : o = .next t) : Frame [] [] none s t := by
  obtain ⟨u, hu, -, hframe⟩ := h
  cases hu.symm.trans ht
  exact hframe

theorem CompletesStore.frame {o : StepResult} {s t : State} {a : Word} {n v : Nat}
    (h : CompletesStore o s a n v) (ht : o = .next t) : Frame [] [] (some (a, n)) s t := by
  obtain ⟨u, hu, -, -, hframe⟩ := h
  cases hu.symm.trans ht
  exact hframe

theorem CompletesPush.frame {o : StepResult} {s t : State} {k n v : Nat}
    (h : CompletesPush o s k n v) (ht : o = .next t) :
    Frame [regSP] [] (some (s.pushAddr k, n)) s t := by
  obtain ⟨u, hu, -, -, -, hframe⟩ := h
  cases hu.symm.trans ht
  exact hframe

theorem CompletesPopX.frame {o : StepResult} {s t : State} {d : XReg} {k : Nat} {v : Word}
    (h : CompletesPopX o s d k v) (ht : o = .next t) : Frame [regSP, d] [] none s t := by
  obtain ⟨u, hu, -, -, -, hframe⟩ := h
  cases hu.symm.trans ht
  exact hframe

theorem CompletesPopF.frame {o : StepResult} {s t : State} {d : FReg} {k : Nat} {v : Pattern}
    (h : CompletesPopF o s d k v) (ht : o = .next t) : Frame [regSP] [d] none s t := by
  obtain ⟨u, hu, -, -, -, hframe⟩ := h
  cases hu.symm.trans ht
  exact hframe

/-! ## The registers and the memory of every instruction -/

/-- The state with the run state and the output of another: what is left to compare where `halt`,
`putc` and a fault may differ. -/
def State.withRunOutOf (t s : State) : State := { t with run := s.run, out := s.out }

/-- A frame allows no less once the run state and the output are set aside. -/
theorem Frame.setAside {xs : List XReg} {fs : List FReg} {st : Option (Word × Nat)} {s t : State}
    (h : Frame xs fs st s t) : Frame xs fs st s (t.withRunOutOf s) :=
  ⟨h.x, h.f, h.mem, rfl, rfl⟩

/-- A state whose registers and memory are another's. -/
theorem frame_setAside_of_eq {s t : State} (hx : t.x = s.x) (hf : t.f = s.f) (hm : t.mem = s.mem) :
    Frame [] [] none s (t.withRunOutOf s) :=
  frame_of_eq (t := t.withRunOutOf s) hx hf hm rfl rfl

/-- A divide or remainder changes its destination at most. -/
theorem setXDivided_frame {r : XReg} {op : Word → Word → Word} {a b : Word} {s t : State}
    (h : setXDivided r op a b s = .next t) : Frame [r] [] none s (t.withRunOutOf s) := by
  obtain ⟨-, rfl⟩ | ⟨hb, -⟩ := setXDivided_cases h
  · exact (frame_setAside_of_eq (takeFault_x s _) (takeFault_f s _) (takeFault_mem s _)).mono
      (by simp) (by simp)
  · exact ((setXDivided_completes r op s hb).frame h).setAside

/-- No instruction changes a register but its destinations, or a byte but those its store covers,
whatever the parameters (R93, R102, R245). -/
theorem execWith_frame {P : Params} {i : Instr} {s t : State} (h : execWith P i s = .next t) :
    Frame (xDests i) (fDests i) (storeRangeWith P s i) s (t.withRunOutOf s) := by
  cases i with
  | nop | halt | putc => cases h; exact frame_setAside_of_eq rfl rfl rfl
  | div | divSi | divZi | divu | divuSi | divuZi | mod | modSi | modZi | modu | moduSi | moduZi =>
    exact setXDivided_frame h
  | b | beq | bne | blt | bgt => exact ((branch_spec s _ _ _).frame h).setAside
  | j | jr => exact ((jump_spec s _).frame h).setAside
  | call ra =>
    obtain ⟨u, hu, -, -, -, hframe⟩ := execWith_call P ra s
    cases hu.symm.trans h
    exact hframe.setAside
  | ret =>
    obtain ⟨u, hu, -, -, hframe⟩ := execWith_ret P s
    cases hu.symm.trans h
    exact hframe.setAside
  | sw ra rb imm16 => exact ((execWith_sw P ra rb imm16 s).frame h).setAside
  | sh ra rb imm16 => exact ((execWith_sh P ra rb imm16 s).frame h).setAside
  | sb ra rb imm16 => exact ((execWith_sb P ra rb imm16 s).frame h).setAside
  | sf ra rb imm16 => exact ((execWith_sf P ra rb imm16 s).frame h).setAside
  | pushW ra => exact ((execWith_pushW P ra s).frame h).setAside
  | pushH ra => exact ((execWith_pushH P ra s).frame h).setAside
  | pushB ra => exact ((execWith_pushB P ra s).frame h).setAside
  | pushF ra => exact ((execWith_pushF P ra s).frame h).setAside
  | popW | popH | popB => exact ((popX_spec s _ _ _).frame h).setAside
  | popF => exact ((popF_spec s _ _ _).frame h).setAside
  | lf | itof | utof | fadd | fsub | fmul | fdiv | fmod | ffloor | fceil =>
    exact ((setF_spec _ _ s).frame h).setAside
  | _ => exact ((setX_spec _ _ s).frame h).setAside

/-- No instruction but `putc` changes the output, faulting or not (R310). -/
theorem execWith_out {P : Params} {i : Instr} {s t : State} (h : execWith P i s = .next t)
    (hi : ∀ r, i ≠ .putc r) : t.out = s.out := by
  cases i with
  | putc r => exact absurd rfl (hi r)
  | div | divSi | divZi | divu | divuSi | divuZi | mod | modSi | modZi | modu | moduSi | moduZi =>
    obtain ⟨-, rfl⟩ | ⟨-, rfl⟩ := setXDivided_cases h <;> rfl
  | _ => cases h; rfl

/-- Settles O50: the frame of every instruction, and the output, which `putc` alone changes. -/
theorem everyInstructionKeepsItsFrame : Obligations.EveryInstructionKeepsItsFrame := by
  unfold Obligations.EveryInstructionKeepsItsFrame
  intro i s t h
  rw [exec_eq_execWith] at h
  have hframe := execWith_frame h
  refine ⟨hframe.x, hframe.f, hframe.mem, execWith_out h, ?_⟩
  rintro r rfl
  cases h
  rfl

/-- An instruction of the advance policy that does not divide by zero ends at pc + 4 (R97, R103). -/
theorem execWith_advances {P : Params} {i : Instr} {s t : State}
    (hp : i.mnemonic.pcPolicy = .advance) (hd : divisorOf s i ≠ some 0)
    (h : execWith P i s = .next t) : t.pc = s.pc + 4 := by
  cases i with
  | b | beq | bne | blt | bgt | j | jr | call | ret => cases hp
  | div | divSi | divZi | divu | divuSi | divuZi | mod | modSi | modZi | modu | moduSi | moduZi =>
    obtain ⟨hz, -⟩ | ⟨-, rfl⟩ := setXDivided_cases h
    · exact absurd (congrArg some hz) hd
    · rfl
  | _ => cases h; rfl

/-- Settles O51: an instruction that divides by zero leaves the pc, every other one advances. -/
theorem advancePolicyMovesPcByFour : Obligations.AdvancePolicyMovesPcByFour := by
  unfold Obligations.AdvancePolicyMovesPcByFour
  intro i s t hp h
  rw [exec_eq_execWith] at h
  by_cases hd : divisorOf s i = some 0
  · rw [execWith_of_divisor_zero params hd] at h
    cases h
    rw [if_pos hd, takeFault_pc]
  · rw [if_neg hd]
    exact execWith_advances hp hd h

/-- Settles O49: the three are their updates. -/
theorem systemInstructions : Obligations.SystemInstructions := by
  unfold Obligations.SystemInstructions
  exact fun ra s => ⟨rfl, rfl, rfl⟩

end Sys2Proof.Machine
end

section
/-! PROOF. The run loop, the reset state and the reference parameters (00_scope.md R6, 10_state.md
R35, 60_exceptions.md R348, 70_reset_and_hazards.md R350, R354). -/

namespace Sys2Proof.Machine

/-- The run loop takes a step that there is (R354). -/
theorem runLoop_succ_of_step {s t : State} (h : step s = .next t) (n : Nat) :
    runLoop (n + 1) s = runLoop n t := by
  simp [runLoop, runLoopOf, h]

/-- The run loop leaves a machine whose run has ended. -/
theorem Terminal.runLoop_eq {s : State} (h : Terminal s) (n : Nat) : runLoop n s = s :=
  runLoopOf_of_no_step h.stepOf_ne_next n

/-- The host's `k` steps take a step that there is. -/
theorem core_run_succ_of_step {s t : State} (h : step s = .next t) (n : Nat) :
    Host.Core.run core (n + 1) s = Host.Core.run core n t := by
  have hcore : core.step s = .next t := h
  simp only [Host.Core.run, hcore]

/-- A running machine always takes its step. -/
theorem step_next {s : State} (hr : s.run = .running) : ∃ t, step s = .next t := by
  obtain ⟨t, ht⟩ := stepWith_next (I := reference) hr
  exact ⟨t, (stepWith_reference s).symm.trans ht⟩

/-- A run that has not ended has taken every step asked for. -/
theorem core_run_of_running {n : Nat} {s : State} (h : (runLoop n s).run = .running) :
    Host.Core.run core n s = .next (runLoop n s) := by
  induction n generalizing s with
  | zero => rfl
  | succ n ih =>
    by_cases hr : s.run = .running
    · obtain ⟨t, ht⟩ := step_next hr
      rw [runLoop_succ_of_step ht] at h ⊢
      rw [core_run_succ_of_step ht, ih h]
    · rw [Terminal.runLoop_eq hr] at h
      exact absurd h hr

/-- A run of `m + n` steps is a run of `m` continued by `n`. -/
theorem runLoop_add (m n : Nat) (s : State) : runLoop (m + n) s = runLoop n (runLoop m s) := by
  induction m generalizing s with
  | zero => rw [Nat.zero_add]; rfl
  | succ m ih =>
    by_cases hr : s.run = .running
    · obtain ⟨t, ht⟩ := step_next hr
      rw [Nat.succ_add, runLoop_succ_of_step ht, runLoop_succ_of_step ht, ih]
    · have hend : Terminal s := hr
      rw [hend.runLoop_eq, hend.runLoop_eq, hend.runLoop_eq]

/-- Settles O55: the run state has three forms, and where it is still running no step was left
out. -/
theorem runLoopEndings : Obligations.RunLoopEndings := by
  unfold Obligations.RunLoopEndings
  refine ⟨fun n s _ => ?endings, runLoop_add⟩
  case endings =>
    cases h : (runLoop n s).run with
    | halted => exact .inl rfl
    | faulted k p w => exact .inr (.inl ⟨k, p, w, rfl⟩)
    | running => exact .inr (.inr ⟨rfl, core_run_of_running h⟩)

theorem reset_readX (r : XReg) : State.reset.readX r = 0 := by
  simp [State.reset, State.readX]

theorem reset_readF (r : FReg) : State.reset.readF r = 0 := by
  simp [State.reset, State.readF]

/-- Settles O56: the reset state, field by field. -/
theorem resetState : Obligations.ResetState := by
  unfold Obligations.ResetState
  exact fun s => ⟨rfl, reset_readX, reset_readF, rfl, reset_readByte, rfl, rfl⟩

/-- Settles O58: the values are read off, and the machine under them is the model's step. -/
theorem referenceParameters : Obligations.ReferenceParameters := by
  unfold Obligations.ReferenceParameters
  refine ⟨by decide, rfl, rfl, rfl, rfl, rfl, rfl, rfl, rfl, rfl, rfl, rfl, rfl, rfl, rfl,
    fun _ => rfl, fun _ _ => rfl, by decide +kernel, rfl, rfl, stepWith_reference,
    stepWordWith_reference, fun n s => ?loop, fun _ _ _ => rfl⟩
  case loop =>
    have hstep : stepWith reference = step := funext stepWith_reference
    rw [runLoopWith, hstep, runLoop]

end Sys2Proof.Machine
end

section
/-! PROOF. Float patterns and exact values (44_float.md R270 to R272): what each kind of pattern
stands for, and which values have a pattern, so that packing them rounds nothing. -/

namespace Sys2Proof.Machine

/-! ## The three kinds of pattern -/

theorem isNaNPattern_iff {b : Pattern} :
    isNaNPattern b = true ↔ expField b = 0x7FF ∧ fracField b ≠ 0 := by
  simp [isNaNPattern, expField, fracField, ← BitVec.toNat_inj]

theorem toFVal_nan {b : Pattern} (h : isNaNPattern b = true) : toFVal b = .nan := by
  obtain ⟨he, hf⟩ := isNaNPattern_iff.mp h
  rw [toFVal, if_pos he, if_neg hf]

theorem toFVal_inf {b : Pattern} (h : isInfPattern b) : toFVal b = .inf (signField b) := by
  obtain ⟨he, hf⟩ := h
  rw [toFVal, if_pos he, if_pos hf]

/-- Every pattern is a NaN, an infinity or finite (R13). -/
theorem pattern_cases (b : Pattern) :
    isNaNPattern b = true ∨ isInfPattern b ∨ isFinitePattern b := by
  rw [isNaNPattern_iff]
  unfold isInfPattern isFinitePattern
  tauto

/-- The only patterns of the infinities are the packed ones. -/
theorem pack_inf {b : Pattern} (h : isInfPattern b) : packFloat (signField b) infMag = b := by
  obtain ⟨he, hf⟩ := h
  have hi : infMag = 2047 * 2 ^ 52 := by decide
  have hmag : b.toNat % 2 ^ 63 = infMag := by
    rw [expField_eq] at he
    rw [fracField_eq] at hf
    omega
  rw [← hmag, pack_self]

/-- A pattern is what its sign and its rounded units pack to. -/
theorem pack_finite {b : Pattern} (h : isFinitePattern b) :
    packFloat (signField b) (roundMag (unitsOfPattern b) 1) = b := by
  rw [roundMag_finite h, pack_self]

/-- Infinities are told apart by their sign. -/
theorem inf_eq_iff {a b : Pattern} (ha : isInfPattern a) (hb : isInfPattern b) :
    a = b ↔ signField a = signField b := by
  refine ⟨fun h => by rw [h], fun h => ?_⟩
  rw [← pack_inf ha, ← pack_inf hb, h]

/-- What a pattern stands for as a finite number, read back in its fields. -/
theorem of_toFVal_eq_fin {p : Pattern} {neg : Bool} {k : Nat} (h : toFVal p = .fin neg k) :
    isFinitePattern p ∧ signField p = neg ∧ unitsOfPattern p = k := by
  rcases pattern_cases p with hp | hp | hp
  · rw [toFVal_nan hp] at h; cases h
  · rw [toFVal_inf hp] at h; cases h
  · rw [toFVal_finite hp] at h
    cases h
    exact ⟨hp, rfl, rfl⟩

/-! ## Values that have a pattern -/

/-- The power of two next above the largest finite number. -/
theorem magUnits_infMag : magUnits infMag = 2 ^ (52 + 2046) := by
  have hi : infMag = 2 ^ 52 + 2046 * 2 ^ 52 := by decide
  rw [hi, magUnits_grid 2046 (2 ^ 52) (by decide) (.inr le_rfl), Nat.pow_add]

/-- A magnitude in units that has a pattern: 53 significant bits, below the infinity. -/
def Representable (k : Nat) : Prop := (∃ c e, c ≤ 2 ^ 53 ∧ k = c * 2 ^ e) ∧ k < magUnits infMag

/-- A magnitude with a pattern is packed as itself. -/
theorem Representable.toFVal_pack {k : Nat} (h : Representable k) (neg : Bool) :
    toFVal (packFloat neg (roundMag k 1)) = .fin neg k := by
  obtain ⟨⟨c, e, hc, hk⟩, hlt⟩ := h
  obtain ⟨m, hm, hmk⟩ := exists_mag hc hk hlt
  rw [roundMag_exact Nat.one_pos hm.le (by rw [hmk, Nat.mul_one]), Machine.toFVal_pack neg hm, hmk]

/-- The units of a finite pattern have a pattern. -/
theorem representable_units {b : Pattern} (h : isFinitePattern b) :
    Representable (unitsOfPattern b) := by
  obtain ⟨hlt, hu⟩ := unitsOfPattern_eq h
  obtain ⟨c, e, hc, hk⟩ := magUnits_form (b.toNat % 2 ^ 63)
  rw [hu]
  exact ⟨⟨c, e, hc, hk⟩, magUnits_strictMono hlt⟩

theorem mul_two_pow_lt {c a b d : Nat} (hc : c ≤ 2 ^ a) (h : a + b < d) : c * 2 ^ b < 2 ^ d :=
  calc c * 2 ^ b ≤ 2 ^ a * 2 ^ b := Nat.mul_le_mul_right _ hc
    _ = 2 ^ (a + b) := (Nat.pow_add 2 a b).symm
    _ < 2 ^ d := Nat.pow_lt_pow_right (by decide) h

/-- A whole number of up to 53 bits has a pattern. -/
theorem representable_integer {c : Nat} (hc : c ≤ 2 ^ 53) : Representable (c * oneUnits) := by
  refine ⟨⟨c, 1074, hc, rfl⟩, ?_⟩
  rw [magUnits_infMag]
  exact mul_two_pow_lt (b := 1074) hc (by decide)

/-- The remainder of two values with patterns has a pattern: it is a multiple of the coarser grid
below the divisor, or of the finer grid at most the dividend. -/
theorem Representable.mod {k1 k2 : Nat} (h1 : Representable k1) (h2 : Representable k2)
    (h0 : k2 ≠ 0) : Representable (k1 % k2) := by
  obtain ⟨⟨c1, e1, hc1, hk1⟩, -⟩ := h1
  obtain ⟨⟨c2, e2, hc2, hk2⟩, hlt2⟩ := h2
  refine ⟨?_, (Nat.mod_lt k1 (Nat.pos_of_ne_zero h0)).trans hlt2⟩
  rcases Nat.le_total e2 e1 with he | he
  · obtain ⟨d, rfl⟩ := Nat.exists_eq_add_of_le he
    have hc20 : 0 < c2 := by
      rcases Nat.eq_zero_or_pos c2 with rfl | h
      · simp [hk2] at h0
      · exact h
    refine ⟨c1 * 2 ^ d % c2, e2, (Nat.mod_lt _ hc20).le.trans hc2, ?_⟩
    rw [hk1, hk2, ← Nat.mul_mod_mul_right, Nat.pow_add]
    congr 1
    ring
  · obtain ⟨d, rfl⟩ := Nat.exists_eq_add_of_le he
    refine ⟨c1 % (c2 * 2 ^ d), e1, (Nat.mod_le _ _).trans hc1, ?_⟩
    rw [hk1, hk2, ← Nat.mul_mod_mul_right, Nat.pow_add]
    congr 1
    ring

/-! ## Whole numbers below and above -/

theorem oneUnits_pos : 0 < oneUnits := by
  unfold oneUnits
  positivity

theorem mul_two_pow_add_mod (c n d : Nat) : c * 2 ^ (n + d) % 2 ^ n = 0 := by
  rw [Nat.pow_add, Nat.mul_left_comm, Nat.mul_mod_right]

/-- A magnitude with its fraction dropped: the largest whole number not above it. -/
theorem unitsDown_eq (k : Nat) : unitsDown k = k / oneUnits * oneUnits := by
  have := Nat.div_add_mod' k oneUnits
  unfold unitsDown
  omega

theorem unitsDown_bounds (k : Nat) : unitsDown k ≤ k ∧ k < unitsDown k + oneUnits := by
  have := Nat.mod_lt k oneUnits_pos
  have := Nat.mod_le k oneUnits
  unfold unitsDown
  omega

/-- The number of ones in a magnitude rounded up. -/
def onesUp (k : Nat) : Nat := if k % oneUnits = 0 then k / oneUnits else k / oneUnits + 1

/-- A magnitude rounded up to a whole number: the smallest not below it. -/
theorem unitsUp_eq (k : Nat) : unitsUp k = onesUp k * oneUnits := by
  have := Nat.div_add_mod' k oneUnits
  unfold unitsUp onesUp
  split
  · omega
  · rw [Nat.add_one_mul]
    omega

theorem unitsUp_bounds (k : Nat) : k ≤ unitsUp k ∧ unitsUp k < k + oneUnits := by
  have := Nat.mod_lt k oneUnits_pos
  have := Nat.mod_le k oneUnits
  unfold unitsUp
  split <;> omega

/-- A value with a pattern is whole, or has at most half as many ones as its 53 bits could count. -/
theorem Representable.whole_or_small {k : Nat} (h : Representable k) :
    k % oneUnits = 0 ∨ k / oneUnits + 1 ≤ 2 ^ 53 := by
  obtain ⟨⟨c, e, hc, hk⟩, -⟩ := h
  rcases Nat.lt_or_ge e 1074 with he | he
  · obtain ⟨d, hd⟩ := Nat.exists_eq_add_of_lt he
    right
    have hone : oneUnits = 2 ^ d * 2 * 2 ^ e := by
      rw [oneUnits, hd, Nat.pow_succ, Nat.pow_add]
      ring
    have hdiv : k / oneUnits ≤ c / 2 := by
      rw [hk, hone, Nat.mul_div_mul_right _ _ (Nat.two_pow_pos e)]
      exact Nat.div_le_div_left (Nat.le_mul_of_pos_left 2 (Nat.two_pow_pos d)) (by decide)
    omega
  · obtain ⟨d, rfl⟩ := Nat.exists_eq_add_of_le he
    left
    rw [hk]
    exact mul_two_pow_add_mod c 1074 d

/-- Rounding a value with a pattern down to a whole number gives one with a pattern. -/
theorem Representable.down {k : Nat} (h : Representable k) : Representable (unitsDown k) := by
  rcases h.whole_or_small with hwhole | hsmall
  · rwa [unitsDown, hwhole, Nat.sub_zero]
  · rw [unitsDown_eq]
    exact representable_integer (by omega)

/-- And so does rounding it up. -/
theorem Representable.up {k : Nat} (h : Representable k) : Representable (unitsUp k) := by
  rcases h.whole_or_small with hwhole | hsmall
  · rwa [unitsUp, if_pos hwhole]
  · rw [unitsUp_eq]
    refine representable_integer ?_
    unfold onesUp
    split <;> omega

/-! ## Signed values -/

theorem signedUnits_not (neg : Bool) (k : Nat) :
    signedUnits (!neg) k = -signedUnits neg k := by
  cases neg <;> simp [signedUnits]

/-- A product of a magnitude with a natural carries the sign through. -/
theorem signedUnits_mul (neg : Bool) (c k : Nat) :
    signedUnits neg (c * k) = signedUnits neg c * k := by
  cases neg <;> simp [signedUnits]

/-- The truncated remainder has the dividend's sign (R281). -/
theorem tmod_signedUnits (n1 n2 : Bool) (k1 k2 : Nat) :
    (signedUnits n1 k1).tmod (signedUnits n2 k2) = signedUnits n1 (k1 % k2) := by
  cases n1 <;> cases n2 <;>
    simp [signedUnits, Int.neg_tmod, Int.tmod_neg, Int.tmod_eq_emod_of_nonneg]

/-- The value of a pattern that stands for a finite number. -/
theorem valueOf_eq {p : Pattern} {neg : Bool} {k : Nat} (h : toFVal p = .fin neg k) :
    valueOf p = signedUnits neg k := by
  obtain ⟨-, hs, hu⟩ := of_toFVal_eq_fin h
  rw [valueOf, hs, hu]

/-! ## Packing what stands for a value -/

/-- Every pattern but a NaN is what its value is written as (R341). -/
theorem ofFVal_toFVal (nan : Pattern) {p : Pattern} (h : isNaNPattern p = false) :
    ofFVal nan (toFVal p) = p := by
  rcases pattern_cases p with hp | hp | hp
  · rw [hp] at h; cases h
  · rw [toFVal_inf hp]; exact pack_inf hp
  · rw [toFVal_finite hp]; exact pack_finite hp

end Sys2Proof.Machine
end

section
/-! PROOF. The float instructions (44_float.md R272 to R290), under any parameters where a meaning
depends on one: exact conversions, correct rounding, the special cases, remainder, floor and
ceiling, and the comparisons. -/

namespace Sys2Proof.Machine

/-! ## Conversions -/

/-- An integer of up to 53 bits is converted exactly (R273, R274). -/
theorem toFVal_ofInteger {n : Int} (h : n.natAbs ≤ 2 ^ 53) :
    toFVal (ofInteger n) = .fin (decide (n < 0)) (n.natAbs * oneUnits) :=
  (representable_integer h).toFVal_pack _

theorem natAbs_sval_le (v : Word) : (sval v).natAbs ≤ 2 ^ 53 := by
  have h1 := BitVec.toInt_lt (x := v)
  have h2 := BitVec.le_toInt (x := v)
  simp only [sval]
  omega

theorem natAbs_uval_le (v : Word) : (uval v).natAbs ≤ 2 ^ 53 := by
  have h := v.isLt
  simp only [uval]
  omega

/-- Settles O41: both readings of a word have fewer than 53 bits. -/
theorem integerToFloatIsExact : Obligations.IntegerToFloatIsExact := by
  unfold Obligations.IntegerToFloatIsExact
  refine fun ra rb s => ⟨⟨_, setF_spec ra _ s, toFVal_ofInteger (natAbs_sval_le _)⟩,
    _, setF_spec ra _ s, ?_⟩
  have hneg : ¬uval (s.readX rb) < 0 := by simp
  have h := toFVal_ofInteger (natAbs_uval_le (s.readX rb))
  rwa [decide_eq_false hneg, Int.natAbs_natCast] at h

theorem natCast_oneUnits : (oneUnits : Int) = 2 ^ 1074 := by
  rw [oneUnits, Nat.cast_pow, Nat.cast_ofNat]

/-- The floor of a finite value is the whole number that its bounds fix (R272). -/
theorem floorInt_bounds (neg : Bool) (k : Nat) :
    floorInt neg k * oneUnits ≤ signedUnits neg k ∧
      signedUnits neg k < (floorInt neg k + 1) * oneUnits := by
  cases neg with
  | false =>
    obtain ⟨hle, hlt⟩ := unitsDown_bounds k
    rw [unitsDown_eq] at hle hlt
    simp only [floorInt, signedUnits, Bool.false_eq_true, if_false, Int.add_mul, one_mul]
    exact ⟨by exact_mod_cast hle, by exact_mod_cast hlt⟩
  | true =>
    obtain ⟨hle, hlt⟩ := unitsUp_bounds k
    have hdiv : unitsUp k / oneUnits = onesUp k := by
      rw [unitsUp_eq, Nat.mul_div_cancel _ oneUnits_pos]
    rw [unitsUp_eq] at hle hlt
    simp only [floorInt, signedUnits, if_true, hdiv, Int.add_mul, one_mul, Int.neg_mul]
    zify at hle hlt
    omega

/-- `ftoi` of a finite value under any FTOI_OOR: its floor where that is an int32 (R272, R275). -/
theorem execWith_ftoi_finite (P : Params) (ra : XReg) {rb : FReg} {s : State}
    (h : isFinitePattern (s.readF rb)) :
    ∃ n : Int, n * 2 ^ 1074 ≤ valueOf (s.readF rb) ∧
      valueOf (s.readF rb) < (n + 1) * 2 ^ 1074 ∧
      n = floorInt (signField (s.readF rb)) (unitsOfPattern (s.readF rb)) ∧
      CompletesX (execWith P (.ftoi ra rb) s) s ra
        (if -(2 ^ 31) ≤ n ∧ n ≤ 2 ^ 31 - 1 then wrap32 n else P.ftoiOor (toFVal (s.readF rb))) := by
  have hone : (2 ^ 1074 : Int) = oneUnits := natCast_oneUnits.symm
  obtain ⟨hle, hlt⟩ := floorInt_bounds (signField (s.readF rb)) (unitsOfPattern (s.readF rb))
  rw [← hone] at hle hlt
  refine ⟨_, hle, hlt, rfl, setX_completes ra s ?_⟩
  rw [toFVal_finite h]
  rfl

/-- `ftoi` of a NaN or an infinity gives FTOI_OOR (R272). -/
theorem execWith_ftoi_not_finite (P : Params) (ra : XReg) {rb : FReg} {s : State}
    (h : ¬isFinitePattern (s.readF rb)) :
    CompletesX (execWith P (.ftoi ra rb) s) s ra (P.ftoiOor (toFVal (s.readF rb))) := by
  refine setX_completes ra s ?_
  rcases pattern_cases (s.readF rb) with hb | hb | hb
  · rw [toFVal_nan hb]; rfl
  · rw [toFVal_inf hb]; rfl
  · exact absurd hb h

/-- An int32 is read back from its word. -/
theorem sval_wrap32 {n : Int} (h1 : -(2 ^ 31) ≤ n) (h2 : n ≤ 2 ^ 31 - 1) : sval (wrap32 n) = n := by
  rw [sval, wrap32, BitVec.toInt_ofInt]
  exact Int.bmod_eq_of_le (by omega) (by omega)

/-- Settles O42: at the reference FTOI_OOR an out of range floor is narrowed as one in range is, and
what has no floor gives 0. -/
theorem floatToIntegerIsFloor : Obligations.FloatToIntegerIsFloor := by
  unfold Obligations.FloatToIntegerIsFloor
  refine fun ra rb s => ⟨fun h => ?finite, fun h => ?notFinite⟩
  case finite =>
    obtain ⟨n, hle, hlt, hn, hexec⟩ := execWith_ftoi_finite params ra h
    have hoor : params.ftoiOor (toFVal (s.readF rb)) = wrap32 n := by
      rw [toFVal_finite h, hn]; rfl
    rw [hoor, ite_self] at hexec
    exact ⟨n, hle, hlt, hexec, fun hrange => sval_wrap32 hrange.1 hrange.2⟩
  case notFinite =>
    have hoor : params.ftoiOor (toFVal (s.readF rb)) = 0 := by
      rcases pattern_cases (s.readF rb) with hb | hb | hb
      · rw [toFVal_nan hb]; rfl
      · rw [toFVal_inf hb]; rfl
      · exact absurd hb h
    rw [← hoor]
    exact execWith_ftoi_not_finite params ra h

/-! ## Arithmetic -/

/-- The seven float arithmetic instructions complete with their operation's pattern, under any
NAN_PAYLOAD (R277 to R283). -/
theorem execWith_float (P : Params) (ra rb rc : FReg) (s : State) :
    CompletesF (execWith P (.fadd ra rb rc) s) s ra
      (fadd64 P.nanPayload (s.readF rb) (s.readF rc)) ∧
    CompletesF (execWith P (.fsub ra rb rc) s) s ra
      (fsub64 P.nanPayload (s.readF rb) (s.readF rc)) ∧
    CompletesF (execWith P (.fmul ra rb rc) s) s ra
      (fmul64 P.nanPayload (s.readF rb) (s.readF rc)) ∧
    CompletesF (execWith P (.fdiv ra rb rc) s) s ra
      (fdiv64 P.nanPayload (s.readF rb) (s.readF rc)) ∧
    CompletesF (execWith P (.fmod ra rb rc) s) s ra
      (fmod64 P.nanPayload (s.readF rb) (s.readF rc)) ∧
    CompletesF (execWith P (.ffloor ra rb) s) s ra (ffloor64 P.nanPayload (s.readF rb)) ∧
    CompletesF (execWith P (.fceil ra rb) s) s ra (fceil64 P.nanPayload (s.readF rb)) :=
  ⟨setF_spec ra _ s, setF_spec ra _ s, setF_spec ra _ s, setF_spec ra _ s, setF_spec ra _ s,
    setF_spec ra _ s, setF_spec ra _ s⟩

/-- Settles O43: the arithmetic at the reference parameters. -/
theorem floatArithmeticCompletes : Obligations.FloatArithmeticCompletes := by
  unfold Obligations.FloatArithmeticCompletes
  exact fun ra rb rc s => execWith_float params ra rb rc s

theorem roundMag_zero : roundMag 0 1 = 0 := by decide

/-- The sum of finite values, a zero one like the others but for its sign (R277). -/
theorem addVal_fin (nan : Pattern) (n1 n2 : Bool) (k1 k2 : Nat) :
    addVal nan (.fin n1 k1) (.fin n2 k2) =
      packFloat (if signedUnits n1 k1 + signedUnits n2 k2 = 0 then n1 && n2
          else decide (signedUnits n1 k1 + signedUnits n2 k2 < 0))
        (roundMag (signedUnits n1 k1 + signedUnits n2 k2).natAbs 1) := by
  simp only [addVal]
  split
  · next h => rw [h, Int.natAbs_zero, roundMag_zero]
  · rfl

section
variable {a b : Pattern} (ha : isFinitePattern a) (hb : isFinitePattern b)
include ha hb

theorem fadd64_finite (nan : Pattern) :
    fadd64 nan a b =
      packFloat (if valueOf a + valueOf b = 0 then signField a && signField b
          else decide (valueOf a + valueOf b < 0))
        (roundMag (valueOf a + valueOf b).natAbs 1) := by
  rw [fadd64, toFVal_finite ha, toFVal_finite hb, addVal_fin]
  rfl

theorem fsub64_finite (nan : Pattern) :
    fsub64 nan a b =
      packFloat (if valueOf a - valueOf b = 0 then signField a && !(signField b)
          else decide (valueOf a - valueOf b < 0))
        (roundMag (valueOf a - valueOf b).natAbs 1) := by
  rw [fsub64, toFVal_finite ha, toFVal_finite hb, negVal, addVal_fin, signedUnits_not,
    ← sub_eq_add_neg]
  rfl

theorem fmul64_finite (nan : Pattern) :
    fmul64 nan a b = packFloat (signField a ^^ signField b)
      (roundMag (unitsOfPattern a * unitsOfPattern b) oneUnits) := by
  rw [fmul64, toFVal_finite ha, toFVal_finite hb, mulVal]

theorem fdiv64_finite (nan : Pattern) (h0 : unitsOfPattern b ≠ 0) :
    fdiv64 nan a b = packFloat (signField a ^^ signField b)
      (roundMag (unitsOfPattern a * oneUnits) (unitsOfPattern b)) := by
  rw [fdiv64, toFVal_finite ha, toFVal_finite hb, divVal, if_neg h0]

theorem fdiv64_zero (nan : Pattern) (h0 : unitsOfPattern b = 0) :
    fdiv64 nan a b = if unitsOfPattern a = 0 then nan
      else packFloat (signField a ^^ signField b) infMag := by
  rw [fdiv64, toFVal_finite ha, toFVal_finite hb, divVal, if_pos h0]

theorem fmod64_finite (nan : Pattern) (h0 : unitsOfPattern b ≠ 0) :
    fmod64 nan a b =
      packFloat (signField a) (roundMag (unitsOfPattern a % unitsOfPattern b) 1) := by
  rw [fmod64, toFVal_finite ha, toFVal_finite hb, modVal, if_neg h0]

end

/-- Settles O44: each operation rounds its exact result once, to the nearest pattern. -/
theorem floatResultsAreCorrectlyRounded : Obligations.FloatResultsAreCorrectlyRounded := by
  unfold Obligations.FloatResultsAreCorrectlyRounded
  rintro ra rb rc s a b rfl rfl ha hb
  refine ⟨⟨_, _, setF_completes ra s (fadd64_finite ha hb _), ?add, fun h0 => if_neg h0⟩,
    ⟨_, _, setF_completes ra s (fsub64_finite ha hb _), ?sub, fun h0 => if_neg h0⟩,
    ⟨_, setF_completes ra s (fmul64_finite ha hb _), ?mul⟩,
    fun h0 => ⟨_, setF_completes ra s (fdiv64_finite ha hb _ h0), ?div⟩⟩
  case add => exact roundMag_nearest _ 1 Nat.one_pos
  case sub => exact roundMag_nearest _ 1 Nat.one_pos
  case mul => exact roundMag_nearest _ oneUnits oneUnits_pos
  case div => exact roundMag_nearest _ _ (Nat.pos_of_ne_zero h0)

/-- Settles O46: the remainder has a pattern, so it is not rounded, and it is the truncated
remainder of the values. -/
theorem floatRemainderIsExact : Obligations.FloatRemainderIsExact := by
  unfold Obligations.FloatRemainderIsExact
  rintro ra rb rc s a b rfl rfl ha hb h0
  have hval := ((representable_units ha).mod (representable_units hb) h0).toFVal_pack
    (signField (s.readF rb))
  obtain ⟨hfin, hsign, hunits⟩ := of_toFVal_eq_fin hval
  refine ⟨_, setF_completes ra s (fmod64_finite ha hb _ h0), hfin, hsign, ?below, ?value⟩
  case below =>
    rw [hunits]
    exact Nat.mod_lt _ (Nat.pos_of_ne_zero h0)
  case value =>
    rw [valueOf_eq hval, ← tmod_signedUnits _ (signField (s.readF rc)), Int.tmod_def, Int.mul_comm]
    rfl

/-! ## Floor and ceiling -/

/-- The magnitude of the floor: up for a negative value, down for another (R282). -/
def floorMag (neg : Bool) (k : Nat) : Nat := if neg then unitsUp k else unitsDown k

/-- The magnitude of the ceiling: the other way (R283). -/
def ceilMag (neg : Bool) (k : Nat) : Nat := if neg then unitsDown k else unitsUp k

theorem ffloor64_finite (nan : Pattern) {a : Pattern} (h : isFinitePattern a) :
    ffloor64 nan a =
      packFloat (signField a) (roundMag (floorMag (signField a) (unitsOfPattern a)) 1) := by
  rw [ffloor64, toFVal_finite h]
  rfl

theorem fceil64_finite (nan : Pattern) {a : Pattern} (h : isFinitePattern a) :
    fceil64 nan a =
      packFloat (signField a) (roundMag (ceilMag (signField a) (unitsOfPattern a)) 1) := by
  rw [fceil64, toFVal_finite h]
  rfl

/-- The floor is a whole number, at most the value and less than one below it. -/
theorem floorMag_spec (neg : Bool) (k : Nat) :
    (∃ c, floorMag neg k = c * oneUnits) ∧ signedUnits neg (floorMag neg k) ≤ signedUnits neg k ∧
      signedUnits neg k < signedUnits neg (floorMag neg k) + oneUnits := by
  have hdown := unitsDown_bounds k
  have hup := unitsUp_bounds k
  cases neg with
  | false => exact ⟨⟨_, unitsDown_eq k⟩, by
      simp only [floorMag, signedUnits, if_false, Bool.false_eq_true]; omega⟩
  | true => exact ⟨⟨_, unitsUp_eq k⟩, by
      simp only [floorMag, signedUnits, if_true]; omega⟩

/-- The ceiling is a whole number, at least the value and less than one above it. -/
theorem ceilMag_spec (neg : Bool) (k : Nat) :
    (∃ c, ceilMag neg k = c * oneUnits) ∧ signedUnits neg k ≤ signedUnits neg (ceilMag neg k) ∧
      signedUnits neg (ceilMag neg k) < signedUnits neg k + oneUnits := by
  have hdown := unitsDown_bounds k
  have hup := unitsUp_bounds k
  cases neg with
  | false => exact ⟨⟨_, unitsUp_eq k⟩, by
      simp only [ceilMag, signedUnits, if_false, Bool.false_eq_true]; omega⟩
  | true => exact ⟨⟨_, unitsDown_eq k⟩, by
      simp only [ceilMag, signedUnits, if_true]; omega⟩

theorem Representable.floorMag {k : Nat} (h : Representable k) (neg : Bool) :
    Representable (floorMag neg k) := by
  cases neg
  · exact h.down
  · exact h.up

theorem Representable.ceilMag {k : Nat} (h : Representable k) (neg : Bool) :
    Representable (ceilMag neg k) := by
  cases neg
  · exact h.up
  · exact h.down

/-- A whole magnitude with a pattern is packed as itself, under either sign. -/
theorem pack_whole {m c : Nat} (neg : Bool) (hm : Representable m) (hc : m = c * oneUnits) :
    isFinitePattern (packFloat neg (roundMag m 1)) ∧
      signField (packFloat neg (roundMag m 1)) = neg ∧
      valueOf (packFloat neg (roundMag m 1)) = signedUnits neg c * 2 ^ 1074 ∧
      valueOf (packFloat neg (roundMag m 1)) = signedUnits neg m := by
  have hval := hm.toFVal_pack neg
  obtain ⟨hfin, hsign, -⟩ := of_toFVal_eq_fin hval
  refine ⟨hfin, hsign, ?_, valueOf_eq hval⟩
  rw [valueOf_eq hval, hc, signedUnits_mul, natCast_oneUnits]

/-- Settles O47: the floor and the ceiling of a finite value have a pattern, so they are not
rounded; an infinity is packed as it was. -/
theorem floorAndCeilingAreExact : Obligations.FloorAndCeilingAreExact := by
  unfold Obligations.FloorAndCeilingAreExact
  rintro ra rb s a rfl
  refine ⟨fun ha => ⟨?floor, ?ceiling⟩, fun ha => ?infinity⟩
  case floor =>
    obtain ⟨⟨c, hc⟩, hle, hlt⟩ :=
      floorMag_spec (signField (s.readF rb)) (unitsOfPattern (s.readF rb))
    obtain ⟨hfin, hsign, hn, hval⟩ := pack_whole _ ((representable_units ha).floorMag _) hc
    rw [← hval, natCast_oneUnits] at hlt
    rw [← hval] at hle
    exact ⟨_, _, setF_completes ra s (ffloor64_finite _ ha), hfin, hsign, hn, hle, hlt⟩
  case ceiling =>
    obtain ⟨⟨c, hc⟩, hle, hlt⟩ :=
      ceilMag_spec (signField (s.readF rb)) (unitsOfPattern (s.readF rb))
    obtain ⟨hfin, hsign, hn, hval⟩ := pack_whole _ ((representable_units ha).ceilMag _) hc
    rw [← hval, natCast_oneUnits] at hlt
    rw [← hval] at hle
    exact ⟨_, _, setF_completes ra s (fceil64_finite _ ha), hfin, hsign, hn, hle, hlt⟩
  case infinity =>
    have hfloor (nan : Pattern) : ffloor64 nan (s.readF rb) = s.readF rb := by
      rw [ffloor64, toFVal_inf ha, floorVal, ofFVal, pack_inf ha]
    have hceil (nan : Pattern) : fceil64 nan (s.readF rb) = s.readF rb := by
      rw [fceil64, toFVal_inf ha, ceilVal, ofFVal, pack_inf ha]
    exact ⟨setF_completes ra s (hfloor _), setF_completes ra s (hceil _)⟩

end Sys2Proof.Machine
end

section
/-! PROOF. The special cases of the float operations (44_float.md R270, R271, R277 to R281), for any
NAN_PAYLOAD. -/

namespace Sys2Proof.Machine

/-! ## NaN operands -/

@[simp] theorem addVal_nan_right (nan : Pattern) (v : FVal) : addVal nan v .nan = nan := by
  cases v <;> rfl

@[simp] theorem mulVal_nan_right (nan : Pattern) (v : FVal) : mulVal nan v .nan = nan := by
  cases v <;> rfl

@[simp] theorem divVal_nan_right (nan : Pattern) (v : FVal) : divVal nan v .nan = nan := by
  cases v <;> rfl

@[simp] theorem modVal_nan_right (nan : Pattern) (v : FVal) : modVal nan v .nan = nan := by
  cases v <;> rfl

/-- An operation with a NaN operand gives NAN_PAYLOAD (R271). -/
theorem float_of_nan (nan : Pattern) {a b : Pattern}
    (h : isNaNPattern a = true ∨ isNaNPattern b = true) :
    fadd64 nan a b = nan ∧ fsub64 nan a b = nan ∧ fmul64 nan a b = nan ∧ fdiv64 nan a b = nan ∧
      fmod64 nan a b = nan := by
  rcases h with h | h
  · simp [fadd64, fsub64, fmul64, fdiv64, fmod64, toFVal_nan h, addVal, mulVal, divVal, modVal]
  · simp [fadd64, fsub64, fmul64, fdiv64, fmod64, toFVal_nan h, negVal]

theorem floorCeil_of_nan (nan : Pattern) {a : Pattern} (h : isNaNPattern a = true) :
    ffloor64 nan a = nan ∧ fceil64 nan a = nan := by
  rw [ffloor64, fceil64, toFVal_nan h]
  exact ⟨rfl, rfl⟩

/-! ## Infinite operands -/

section
variable {a b : Pattern} (nan : Pattern)

/-- Two infinities (R277 to R280). -/
theorem float_of_inf_inf (ha : isInfPattern a) (hb : isInfPattern b) :
    fadd64 nan a b = (if signField a = signField b then a else nan) ∧
      fsub64 nan a b = (if signField a = signField b then nan else a) ∧
      fmul64 nan a b = packFloat (signField a ^^ signField b) infMag ∧
      fdiv64 nan a b = nan := by
  simp only [fadd64, fsub64, fmul64, fdiv64, toFVal_inf ha, toFVal_inf hb, negVal, addVal, mulVal,
    divVal, pack_inf ha, true_and, and_true]
  cases signField a <;> cases signField b <;> simp

/-- An infinity and a finite operand (R277 to R280). -/
theorem float_of_inf_fin (ha : isInfPattern a) (hb : isFinitePattern b) :
    fadd64 nan a b = a ∧ fsub64 nan a b = a ∧
      fmul64 nan a b = (if unitsOfPattern b = 0 then nan
        else packFloat (signField a ^^ signField b) infMag) ∧
      fdiv64 nan a b = packFloat (signField a ^^ signField b) infMag := by
  simp only [fadd64, fsub64, fmul64, fdiv64, toFVal_inf ha, toFVal_finite hb, negVal, addVal,
    mulVal, divVal, pack_inf ha, and_self]

/-- The remainder of an infinity is invalid, whatever the divisor (R281). -/
theorem fmod64_of_inf (ha : isInfPattern a) : fmod64 nan a b = nan := by
  rw [fmod64, toFVal_inf ha]
  cases toFVal b <;> rfl

/-- A finite operand and an infinity (R277 to R281). -/
theorem float_of_fin_inf (ha : isFinitePattern a) (hb : isInfPattern b) :
    fadd64 nan a b = b ∧ fsub64 nan a b = packFloat (!(signField b)) infMag ∧
      fmul64 nan a b = (if unitsOfPattern a = 0 then nan
        else packFloat (signField a ^^ signField b) infMag) ∧
      fdiv64 nan a b = packFloat (signField a ^^ signField b) 0 ∧ fmod64 nan a b = a := by
  simp only [fadd64, fsub64, fmul64, fdiv64, fmod64, toFVal_finite ha, toFVal_inf hb, negVal,
    addVal, mulVal, divVal, modVal, pack_inf hb, pack_finite ha, and_self]

/-- The remainder by a zero is invalid (R281). -/
theorem fmod64_of_zero (hb : isFinitePattern b) (h0 : unitsOfPattern b = 0) :
    fmod64 nan a b = nan := by
  rw [fmod64, toFVal_finite hb, h0]
  cases toFVal a <;> rfl

/-! ## Zero results -/

/-- An exact zero sum (R277). -/
theorem fadd64_eq_zero (ha : isFinitePattern a) (hb : isFinitePattern b)
    (h : valueOf a + valueOf b = 0) :
    fadd64 nan a b = packFloat (signField a && signField b) 0 := by
  rw [fadd64_finite ha hb, if_pos h, h, Int.natAbs_zero, roundMag_zero]

/-- An exact zero difference (R278). -/
theorem fsub64_eq_zero (ha : isFinitePattern a) (hb : isFinitePattern b)
    (h : valueOf a - valueOf b = 0) :
    fsub64 nan a b = packFloat (signField a && !(signField b)) 0 := by
  rw [fsub64_finite ha hb, if_pos h, h, Int.natAbs_zero, roundMag_zero]

/-- A finite number less itself is +0.0 (R278). -/
theorem fsub64_self (ha : isFinitePattern a) : fsub64 nan a a = 0 := by
  rw [fsub64_eq_zero nan ha ha (Int.sub_self _), Bool.and_not_self]
  rfl

end

/-- Settles O45: each clause is the case of its operand kinds. -/
theorem floatSpecialCases : Obligations.FloatSpecialCases := by
  unfold Obligations.FloatSpecialCases
  rintro ra rb rc s a b rfl rfl
  have completes {v v' : Pattern} (h : v = v') := setF_completes ra s h
  refine ⟨fun h => ?nan, fun h => ?nanFloor, fun ha hb => ?infInf, fun ha hb => ?infFin,
    fun ha => completes (fmod64_of_inf _ ha), fun ha hb => ?finInf, fun ha hb h0 => ?byZero,
    fun ha hb => ⟨fun h => completes (fadd64_eq_zero _ ha hb h),
      fun h => completes (fsub64_eq_zero _ ha hb h)⟩,
    fun ha => completes (fsub64_self _ ha)⟩
  case nan =>
    obtain ⟨hadd, hsub, hmul, hdiv, hmod⟩ := float_of_nan params.nanPayload h
    exact ⟨completes hadd, completes hsub, completes hmul, completes hdiv, completes hmod⟩
  case nanFloor =>
    obtain ⟨hfloor, hceil⟩ := floorCeil_of_nan params.nanPayload h
    exact ⟨completes hfloor, completes hceil⟩
  case infInf =>
    obtain ⟨hadd, hsub, hmul, hdiv⟩ := float_of_inf_inf params.nanPayload ha hb
    exact ⟨completes hadd, completes hsub, completes hmul, completes hdiv⟩
  case infFin =>
    obtain ⟨hadd, hsub, hmul, hdiv⟩ := float_of_inf_fin params.nanPayload ha hb
    exact ⟨completes hadd, completes hsub, completes hmul, completes hdiv⟩
  case finInf =>
    obtain ⟨hadd, hsub, hmul, hdiv, hmod⟩ := float_of_fin_inf params.nanPayload ha hb
    exact ⟨completes hadd, completes hsub, completes hmul, completes hdiv, completes hmod⟩
  case byZero =>
    exact ⟨completes (fdiv64_zero ha hb _ h0), completes (fmod64_of_zero _ hb h0)⟩

/-! ## Division by a zero -/

theorem expField_inf (neg : Bool) : expField (packFloat neg infMag) = 0x7FF :=
  expField_pack neg le_rfl

/-- A quotient by a zero is an infinity or the NaN, which the exponent field says (R280). -/
theorem expField_divVal_zero {nan : Pattern} (hnan : expField nan = 0x7FF) (v : FVal)
    (neg : Bool) : expField (divVal nan v (.fin neg 0)) = 0x7FF := by
  cases v with
  | nan => exact hnan
  | inf n => exact expField_inf _
  | fin n k =>
    rw [divVal, if_pos rfl]
    split
    · exact hnan
    · exact expField_inf _

/-- Settles O12: the instructions are told apart by their divisor, and a float quotient by a zero is
computed like every other. -/
theorem arithmeticFaultExactlyOnZeroDivisor :
    Obligations.ArithmeticFaultExactlyOnZeroDivisor := by
  unfold Obligations.ArithmeticFaultExactlyOnZeroDivisor
  refine ⟨fun i s h => ?zero, fun i s h => ?nonzero, fun ra rb rc s h => ?float⟩
  case zero =>
    rw [exec_eq_execWith]
    exact execWith_of_divisor_zero params h
  case nonzero =>
    obtain ⟨t, ht, hrun⟩ := execWith_of_divisor_ne_zero params h
    refine ⟨t, (exec_eq_execWith i s).trans ht, ?_⟩
    rw [hrun]
    split
    · exact .inr rfl
    · exact .inl rfl
  case float =>
    obtain ⟨neg, hzero⟩ : ∃ neg, toFVal (s.readF rc) = .fin neg 0 := by
      rcases h with h | h <;> exact ⟨_, h⟩
    obtain ⟨-, -, -, ⟨t, ht, hread, -, hframe⟩, -⟩ := execWith_float params ra rb rc s
    refine ⟨t, ht, hframe.run, ?_⟩
    rw [hread, fdiv64, hzero]
    exact expField_divVal_zero (by decide) _ neg

end Sys2Proof.Machine
end

section
/-! PROOF. The float comparisons (44_float.md R284 to R290): the ordering of two patterns by their
kinds, from which the six relations are read. -/

namespace Sys2Proof.Machine

theorem compareFloat_nan {a b : Pattern} (h : isNaNPattern a = true ∨ isNaNPattern b = true) :
    compareFloat a b = none := by
  unfold compareFloat
  rcases h with h | h
  · rw [toFVal_nan h]; rfl
  · rw [toFVal_nan h]; cases toFVal a <;> rfl

theorem compareFloat_finite {a b : Pattern} (ha : isFinitePattern a) (hb : isFinitePattern b) :
    compareFloat a b = some (compare (valueOf a) (valueOf b)) := by
  rw [compareFloat, toFVal_finite ha, toFVal_finite hb]
  rfl

theorem compareFloat_inf_fin {a b : Pattern} (ha : isInfPattern a) (hb : isFinitePattern b) :
    compareFloat a b = some (if signField a then .lt else .gt) := by
  rw [compareFloat, toFVal_inf ha, toFVal_finite hb]
  rfl

theorem compareFloat_fin_inf {a b : Pattern} (ha : isFinitePattern a) (hb : isInfPattern b) :
    compareFloat a b = some (if signField b then .gt else .lt) := by
  rw [compareFloat, toFVal_finite ha, toFVal_inf hb]
  rfl

theorem compareFloat_inf_inf {a b : Pattern} (ha : isInfPattern a) (hb : isInfPattern b) :
    compareFloat a b =
      some (if signField a = signField b then .eq else if signField a then .lt else .gt) := by
  rw [compareFloat, toFVal_inf ha, toFVal_inf hb]
  rfl

/-- The three outcomes of an ordering of integers. -/
theorem compare_beq_eq (x y : Int) :
    (some (compare x y) == some Ordering.eq) = decide (x = y) ∧
      (some (compare x y) == some Ordering.lt) = decide (x < y) ∧
      (some (compare x y) == some Ordering.gt) = decide (x > y) := by
  rcases lt_trichotomy x y with h | h | h
  · rw [compare_lt_iff_lt.mpr h]
    simp [h, h.ne, h.le]
  · subst h
    simp
  · rw [compare_gt_iff_gt.mpr h]
    simp [h, h.ne', h.le]

/-- Settles O48: the six instructions write `feq`, `flt` and `fgt` and what is made of them, and the
ordering is that of the operands' kinds. -/
theorem floatComparisons : Obligations.FloatComparisons := by
  unfold Obligations.FloatComparisons
  rintro ra rb rc s a b rfl rfl
  refine ⟨relFeq (s.readF rb) (s.readF rc), relFlt (s.readF rb) (s.readF rc),
    relFgt (s.readF rb) (s.readF rc), setX_spec ra _ s, setX_spec ra _ s, setX_spec ra _ s,
    setX_spec ra _ s, setX_spec ra _ s, setX_spec ra _ s, fun h => ?nan, fun ha hb => ?finite,
    fun ha hb => ?infFin, fun ha hb => ?finInf, fun ha hb => ?infInf⟩
  all_goals unfold relFeq relFlt relFgt
  case nan => rw [compareFloat_nan h]; decide
  case finite => rw [compareFloat_finite ha hb]; exact compare_beq_eq _ _
  case infFin =>
    rw [compareFloat_inf_fin ha hb]
    cases signField (s.readF rb) <;> decide
  case finInf =>
    rw [compareFloat_fin_inf ha hb]
    cases signField (s.readF rc) <;> decide
  case infInf =>
    have heq : decide (s.readF rb = s.readF rc) =
        decide (signField (s.readF rb) = signField (s.readF rc)) :=
      decide_eq_decide.mpr (inf_eq_iff ha hb)
    rw [compareFloat_inf_inf ha hb, heq]
    cases signField (s.readF rb) <;> cases signField (s.readF rc) <;> decide

end Sys2Proof.Machine
end

section
/-! PROOF. Host accesses to the registers and the pc (60_exceptions.md R340, R341, R344, R347). -/

namespace Sys2Proof.Machine

/-! ## Indices -/

theorem firstBadIndex_of_ok {is : List Int} (h : ∀ i ∈ is, indexOk i = true) :
    firstBadIndex is = none := by
  induction is with
  | nil => rfl
  | cons i rest ih =>
    obtain ⟨hi, hrest⟩ := List.forall_mem_cons.mp h
    rw [firstBadIndex, if_pos hi, ih hrest]

/-- The first bad index is the one that only legal ones stand before (R347). -/
theorem firstBadIndex_of_bad {pre : List Int} {i : Int} (hpre : ∀ j ∈ pre, indexOk j = true)
    (hi : indexOk i = false) (post : List Int) : firstBadIndex (pre ++ i :: post) = some i := by
  induction pre with
  | nil => simp [firstBadIndex, hi]
  | cons j rest ih =>
    obtain ⟨hj, hrest⟩ := List.forall_mem_cons.mp hpre
    rw [List.cons_append, firstBadIndex, if_pos hj, ih hrest]

/-- Legal indices name different registers (R347). -/
theorem regIndex_inj {i j : Int} (hi : indexOk i = true) (hj : indexOk j = true)
    (h : regIndex i = regIndex j) : i = j := by
  simp only [indexOk, Bool.and_eq_true, decide_eq_true_eq] at hi hj
  have h' := congrArg BitVec.toNat h
  simp only [regIndex, BitVec.toNat_ofInt] at h'
  omega

/-- What a bad index leaves: the record in a running machine, the state itself in another (R347;
log 9). -/
theorem hostIndexFault_eq (s : State) (i : Int) :
    s.hostIndexFault i =
      if s.run = .running then { s with run := .faulted .indexFault s.pc (wrap32 i) } else s := by
  split
  · next h => simp only [State.hostIndexFault, h]; rfl
  · next h => exact Terminal.hostIndexFault_eq h i

/-! ## Integer values -/

/-- A value in range is read back from its word (R340). -/
theorem read_wrap32 {signed : Bool} {v : Int} (h : valueOk signed v = true) :
    (if signed then sval (wrap32 v) else uval (wrap32 v)) = v := by
  cases signed with
  | true =>
    obtain ⟨h1, h2⟩ : -(2 ^ 31) ≤ v ∧ v ≤ 2 ^ 31 - 1 := by simpa [valueOk] using h
    exact sval_wrap32 h1 h2
  | false =>
    obtain ⟨h1, h2⟩ : 0 ≤ v ∧ v ≤ 2 ^ 32 - 1 := by simpa [valueOk] using h
    simp only [uval, wrap32, BitVec.toNat_ofInt, Bool.false_eq_true, if_false]
    omega

/-- The host reads the value it wrote to the register. -/
theorem intOf_of_readX {s : State} {signed : Bool} {i v : Int} (hv : valueOk signed v = true)
    (h : s.readX (regIndex i) = wrap32 v) : s.intOf signed i = v := by
  rw [State.intOf, h, read_wrap32 hv]

/-! ## Writes of a list of registers -/

@[simp] theorem writeInts_f (ws : List (Int × Int)) (s : State) : (s.writeInts ws).f = s.f := by
  induction ws generalizing s with
  | nil => rfl
  | cons p rest ih => rw [State.writeInts, ih, writeX_f]

@[simp] theorem writeInts_pc (ws : List (Int × Int)) (s : State) : (s.writeInts ws).pc = s.pc := by
  induction ws generalizing s with
  | nil => rfl
  | cons p rest ih => rw [State.writeInts, ih, writeX_pc]

@[simp] theorem writeInts_out (ws : List (Int × Int)) (s : State) :
    (s.writeInts ws).out = s.out := by
  induction ws generalizing s with
  | nil => rfl
  | cons p rest ih => rw [State.writeInts, ih, writeX_out]

/-- A register that no write names keeps its value. -/
theorem writeInts_readX_other {ws : List (Int × Int)} {r : XReg}
    (h : ∀ p ∈ ws, regIndex p.1 ≠ r) (s : State) : (s.writeInts ws).readX r = s.readX r := by
  induction ws generalizing s with
  | nil => rfl
  | cons p rest ih =>
    obtain ⟨hp, hrest⟩ := List.forall_mem_cons.mp h
    rw [State.writeInts, ih hrest, readX_writeX, if_neg (Ne.symm hp)]

/-- Where no index is named twice, every named register holds its value (R340). -/
theorem writeInts_readX {ws : List (Int × Int)} (hok : ∀ p ∈ ws, indexOk p.1 = true)
    (hnodup : (ws.map Prod.fst).Nodup) (s : State) :
    ∀ p ∈ ws, (s.writeInts ws).readX (regIndex p.1) = wrap32 p.2 := by
  induction ws generalizing s with
  | nil => simp
  | cons q rest ih =>
    obtain ⟨hq, hrest⟩ := List.forall_mem_cons.mp hok
    obtain ⟨hnotin, hnodup'⟩ := List.nodup_cons.mp hnodup
    refine List.forall_mem_cons.mpr ⟨?first, ih hrest hnodup' _⟩
    case first =>
      have hother : ∀ p ∈ rest, regIndex p.1 ≠ regIndex q.1 := by
        intro p hp heq
        have hpq := regIndex_inj (hrest p hp) hq heq
        exact hnotin (List.mem_map.mpr ⟨p, hp, hpq⟩)
      rw [State.writeInts, writeInts_readX_other hother, readX_writeX, if_pos rfl]

/-! ## The operations, by what the indices are -/

theorem setInts_of_ok {s : State} {ws : List (Int × Int)} {signed : Bool}
    (h : ∀ p ∈ ws, indexOk p.1 = true ∧ valueOk signed p.2 = true) :
    s.setInts ws signed = .done () (s.writeInts ws) := by
  have hi : firstBadIndex (ws.map Prod.fst) = none :=
    firstBadIndex_of_ok (List.forall_mem_map.mpr fun p hp => (h p hp).1)
  have hv : (ws.all fun p => valueOk signed p.2) = true :=
    List.all_eq_true.mpr fun p hp => (h p hp).2
  simp only [State.setInts, hi, hv, if_true]

/-- One value out of range refuses all the writes (R340). -/
theorem setInts_of_bad_value {s : State} {ws : List (Int × Int)} {signed : Bool}
    (hok : ∀ p ∈ ws, indexOk p.1 = true) (hbad : ∃ p ∈ ws, valueOk signed p.2 = false) :
    s.setInts ws signed = .refused s := by
  have hi : firstBadIndex (ws.map Prod.fst) = none :=
    firstBadIndex_of_ok (List.forall_mem_map.mpr hok)
  have hv : (ws.all fun p => valueOk signed p.2) = false := by
    simpa using hbad
  simp only [State.setInts, hi, hv, Bool.false_eq_true, if_false]

theorem setInts_of_bad_index {s : State} {ws : List (Int × Int)} {i : Int} (signed : Bool)
    (h : firstBadIndex (ws.map Prod.fst) = some i) :
    s.setInts ws signed = .indexFault (s.hostIndexFault i) := by
  simp only [State.setInts, h]

theorem getInts_of_ok {s : State} {is : List Int} (signed : Bool)
    (h : ∀ i ∈ is, indexOk i = true) :
    s.getInts is signed = .done (is.map (s.intOf signed)) s := by
  simp only [State.getInts, firstBadIndex_of_ok h]

theorem getInts_of_bad_index {s : State} {is : List Int} {i : Int} (signed : Bool)
    (h : firstBadIndex is = some i) : s.getInts is signed = .indexFault (s.hostIndexFault i) := by
  simp only [State.getInts, h]

theorem setFloatWith_of_ok {s : State} {nan : Pattern} {i : Int} (d : HostFloat)
    (h : indexOk i = true) :
    s.setFloatWith nan i d = .done () (s.writeF (regIndex i) (d.bits nan)) := if_pos h

theorem getFloat_of_ok {s : State} {i : Int} (h : indexOk i = true) :
    s.getFloat i = .done (s.readF (regIndex i)) s := if_pos h

/-- Every access with a bad index answers with the same state (R347). -/
theorem host_bad_index {s : State} {i v : Int} {pre post : List (Int × Int)} (signed : Bool)
    (d : HostFloat) (hi : indexOk i = false) (hpre : ∀ p ∈ pre, indexOk p.1 = true) :
    s.setInts (pre ++ (i, v) :: post) signed = .indexFault (s.hostIndexFault i) ∧
      s.getInts ((pre ++ (i, v) :: post).map Prod.fst) signed =
        .indexFault (s.hostIndexFault i) ∧
      s.setInt i v signed = .indexFault (s.hostIndexFault i) ∧
      s.getInt i signed = .indexFault (s.hostIndexFault i) ∧
      s.setFloat i d = .indexFault (s.hostIndexFault i) ∧
      s.getFloat i = .indexFault (s.hostIndexFault i) := by
  have hfirst : firstBadIndex ((pre ++ (i, v) :: post).map Prod.fst) = some i := by
    rw [List.map_append, List.map_cons]
    exact firstBadIndex_of_bad (List.forall_mem_map.mpr hpre) hi _
  have hsingle : firstBadIndex ([(i, v)].map Prod.fst) = some i :=
    firstBadIndex_of_bad (pre := []) (by simp) hi []
  have hnot : ¬indexOk i = true := by simp [hi]
  exact ⟨setInts_of_bad_index signed hfirst, getInts_of_bad_index signed hfirst,
    setInts_of_bad_index signed hsingle, if_neg hnot, if_neg hnot, if_neg hnot⟩

/-- Settles O52: legal writes are read back register by register, and what is illegal is decided
before anything is written. -/
theorem hostRegisterAccesses : Obligations.HostRegisterAccesses := by
  unfold Obligations.HostRegisterAccesses
  refine ⟨fun s i v signed hi hv => ?one, fun s ws signed hok hnodup => ?subset,
    fun s is signed hok => getInts_of_ok signed hok,
    fun s ws signed hok hbad => setInts_of_bad_value hok hbad,
    fun s i p hi => ⟨?pattern, fun hp => ?value, setFloatWith_of_ok _ hi⟩,
    fun s t i v pre post signed d hi hpre ht => ?badIndex,
    fun s a => ⟨rfl, rfl, rfl⟩⟩
  case one =>
    refine ⟨_, setInts_of_ok (by simp [hi, hv]), ?_, rfl⟩
    rw [State.getInt, if_pos hi, intOf_of_readX hv]
    simp [State.writeInts]
  case subset =>
    have hidx : ∀ p ∈ ws, indexOk p.1 = true := fun p hp => (hok p hp).1
    have hread := writeInts_readX hidx hnodup s
    refine ⟨_, setInts_of_ok hok, ?_, hread, fun r hr => writeInts_readX_other hr s,
      writeInts_f ws s, writeInts_pc ws s, writeInts_mem ws s, writeInts_run ws s,
      writeInts_out ws s⟩
    rw [getInts_of_ok signed (List.forall_mem_map.mpr hidx), List.map_map]
    congr 1
    exact List.map_congr_left fun p hp => intOf_of_readX (hok p hp).2 (hread p hp)
  case pattern =>
    refine ⟨_, setFloatWith_of_ok _ hi, ?_, rfl⟩
    rw [getFloat_of_ok hi, readF_writeF, if_pos rfl]
    rfl
  case value =>
    have hbits : (HostFloat.value (toFVal p)).bits params.nanPayload = p :=
      ofFVal_toFVal params.nanPayload hp
    rw [State.setFloat, setFloatWith_of_ok _ hi, hbits]
  case badIndex =>
    rw [ht, ← hostIndexFault_eq]
    exact host_bad_index signed d hi hpre

end Sys2Proof.Machine
end

section
/-! PROOF. Every value of the parameters has its effect (00_scope.md R6): the rules of the
instructions under any parameters, gathered. -/

namespace Sys2Proof.Machine

/-- An instruction that depends on no parameter does what `exec` says (R6). -/
theorem execWith_eq_exec {P : Params} {i : Instr} (h : takesParam i = false) (s : State) :
    execWith P i s = exec i s := by
  cases i with
  | b | beq | bne | blt | bgt | call | ret | lh | lb | pushW | pushH | pushB | pushF | popW | popH
  | popB | popF | ftoi | fadd | fsub | fmul | fdiv | fmod | ffloor | fceil => cases h
  | _ => rfl

/-- The narrow loads and pops widen their bytes by NARROW_LOAD_EXT (R231, R233, R234, R255,
R256). -/
theorem execWith_narrow (P : Params) (ra rb : XReg) (imm16 : Half) (s : State) :
    CompletesX (execWith P (.lh ra rb imm16) s) s ra (ext16 P.narrowLoadExt
      (s.readByte (effAddr (s.readX rb) imm16 + 1) ++ s.readByte (effAddr (s.readX rb) imm16))) ∧
    CompletesX (execWith P (.lb ra rb imm16) s) s ra
      (ext8 P.narrowLoadExt (s.readByte (effAddr (s.readX rb) imm16))) ∧
    CompletesPopX (execWith P (.popH ra) s) s ra (P.stackStep .popH) (ext16 P.narrowLoadExt
      (s.readByte (s.readX regSP + 1) ++ s.readByte (s.readX regSP))) ∧
    CompletesPopX (execWith P (.popB ra) s) s ra (P.stackStep .popB)
      (ext8 P.narrowLoadExt (s.readByte (s.readX regSP))) := by
  rw [← load16_eq_append, ← load16_eq_append, ← load8_eq_readByte, ← load8_eq_readByte]
  exact ⟨setX_spec ra _ s, setX_spec ra _ s, execWith_popH P ra s, execWith_popB P ra s⟩

/-- Settles O60: each clause is the rule of its instructions under any parameters. -/
theorem parametersReachTheInstructions : Obligations.ParametersReachTheInstructions := by
  unfold Obligations.ParametersReachTheInstructions
  refine fun P => ⟨fun i s h => execWith_eq_exec h s,
    fun ra rb imm16 s target ht => execWith_branches P ra rb imm16 s target ht,
    fun ra rb imm16 s ea sp hea hsp => ⟨fun hext => ?zero, fun hext => ?sign⟩,
    fun ra fa s => ?stack,
    fun ra rb s => ⟨fun h => ?ftoi, execWith_ftoi_not_finite P ra⟩,
    fun ra rb rc s a b ha hb => ?float,
    fun s i p hi => ⟨setFloatWith_of_ok _ hi, setFloatWith_of_ok _ hi⟩⟩
  case zero | sign =>
    subst hea hsp
    have h := execWith_narrow P ra rb imm16 s
    rw [hext] at h
    exact h
  case stack =>
    exact ⟨execWith_pushW P ra s, execWith_pushH P ra s, execWith_pushB P ra s,
      execWith_pushF P fa s, execWith_popW P ra s, execWith_popF P fa s, execWith_call P ra s,
      execWith_ret P s⟩
  case ftoi =>
    obtain ⟨n, hle, hlt, -, hexec⟩ := execWith_ftoi_finite P ra h
    exact ⟨n, hle, hlt, hexec⟩
  case float =>
    subst ha hb
    have completes {v v' : Pattern} (h : v = v') := setF_completes ra s h
    obtain ⟨hadd, hsub, hmul, hdiv, hmod, hfloor, hceil⟩ := execWith_float P ra rb rc s
    refine ⟨hadd, hsub, hmul, hdiv, hmod, hfloor, hceil, fun h => ?nan, fun h => ?nanFloor,
      fun ha hb => ?infInf, fun h => ?zeroTimesInf, fun ha ha0 hb hb0 => ?zeroByZero,
      fun h => ?remainder⟩
    case nan =>
      obtain ⟨eadd, esub, emul, ediv, emod⟩ := float_of_nan P.nanPayload h
      exact ⟨completes eadd, completes esub, completes emul, completes ediv, completes emod⟩
    case nanFloor =>
      obtain ⟨efloor, eceil⟩ := floorCeil_of_nan P.nanPayload h
      exact ⟨completes efloor, completes eceil⟩
    case infInf =>
      obtain ⟨eadd, esub, -, ediv⟩ := float_of_inf_inf P.nanPayload ha hb
      exact ⟨fun hs => completes (eadd.trans (if_neg hs)),
        fun hs => completes (esub.trans (if_pos hs)), completes ediv⟩
    case zeroTimesInf =>
      obtain ⟨ha, hb, hb0⟩ | ⟨ha, ha0, hb⟩ := h
      · obtain ⟨-, -, emul, -⟩ := float_of_inf_fin P.nanPayload ha hb
        exact completes (emul.trans (if_pos hb0))
      · obtain ⟨-, -, emul, -⟩ := float_of_fin_inf P.nanPayload ha hb
        exact completes (emul.trans (if_pos ha0))
    case zeroByZero => exact completes ((fdiv64_zero ha hb _ hb0).trans (if_pos ha0))
    case remainder =>
      obtain ha | ⟨hb, hb0⟩ := h
      · exact completes (fmod64_of_inf _ ha)
      · exact completes (fmod64_of_zero _ hb hb0)

end Sys2Proof.Machine
end
